-- ==== Sys2Proof/Word.lean ====
section
/-! DEFINITION. The two data widths of the datapath: bytes and unsigned 32-bit words (00_scope.md R7, R9; 10_state.md R54). -/

namespace Sys2Proof

/-- A byte of a byte sequence (00_scope.md R9). -/
abbrev Byte := BitVec 8

/-- An unsigned 32-bit word; `+` and `-` on it wrap modulo 2^32 (00_scope.md R9, 10_state.md R54). -/
abbrev Word := BitVec 32

end Sys2Proof
end

