-- ==== Sys2Proof/Config.lean ====
section
/-! DEFINITION. The implementation parameters that the model takes as an argument (00_scope.md R8) and the free values of the
model (notes/assumptions 5, 6, 7). -/

namespace Sys2Proof

/-- BUS_PROTOCOL, as far as the transaction level of this spec can see it: the sizes in bytes of the reads and of the writes
that it carries, and whether it carries an error response (00_scope.md R8, 92_eei_decisions.md D2). -/
structure BusProtocol where
  readBytes : List Nat
  writeBytes : List Nat
  errorResponse : Bool
  deriving DecidableEq, Repr

/-- The parameters that the source leaves to the implementation (00_scope.md R8). Their legal values are `paramsWf`. -/
structure Params where
  /-- MAX_MSG, the capacity of IN_BUF in bytes. -/
  maxMsg : Nat
  /-- BUS_PROTOCOL. -/
  busProtocol : BusProtocol
  /-- ADDR_BITS, the width of a byte offset into the core's window. -/
  addrBits : Nat
  /-- BASE, the address of the core's window in the host's address space. -/
  base : Nat
  deriving DecidableEq, Repr

/-- OUT_BUF_BYTES, "always MAX_MSG + 16" (00_scope.md R8). -/
def Params.outBufBytes (p : Params) : Nat := p.maxMsg + 16

namespace Config

/-- The platform's choice of BASE, counted in windows of 2^18 bytes: OPEN, and so with no body (00_scope.md R8,
93_implementation_defined.md U14; log 7). -/
opaque baseWindow : Nat

/-- The least that 00_scope.md R8 asks of BUS_PROTOCOL, which is OPEN (93_implementation_defined.md U13; log 7). -/
def busProtocol : BusProtocol := { readBytes := [1, 2, 4], writeBytes := [1, 2, 4], errorResponse := true }

/-- The parameters of this hardware: MAX_MSG = 4096, ADDR_BITS = 18, BASE a multiple of 2^18 (00_scope.md R8,
92_eei_decisions.md D4, D19; log 7). -/
def params : Params :=
  { maxMsg := 4096, busProtocol := busProtocol, addrBits := 18, base := 2 ^ 18 * baseWindow }

/-- FREE VALUE. The byte that the k-th free draw gives: "a free draw, under no law, per read" (20_memory.md R84, R85, R86;
93_implementation_defined.md U1, U2, U3, U10). It has no body: nothing can be proved about its values (log 6). -/
opaque freeByte : Nat → Byte

/-- FREE VALUE. What IN_BUF[i] holds while the host has not written it since reset: "its value is unspecified"
(10_state.md R44, 93_implementation_defined.md U18; log 5). -/
opaque unwrittenByte : Nat → Byte

end Config

end Sys2Proof
end

