-- ==== Sys2Proof/Machine/WordUtil.lean ====
section
/-! DEFINITION. Word and endian utilities (40_word_utilities.md R140–R146). -/

namespace Sys2Proof.Machine

/-- `byte_at(w, n)`: the byte `w[8n+7 : 8n]`, byte 0 the least significant (40_word_utilities.md R140). -/
def byteAt (w : Word) (n : Nat) : Byte := w.extractLsb' (8 * n) 8

/-- `w(b3, b2, b1, b0) = b3<<24 | b2<<16 | b1<<8 | b0` (41_constant_tables.md R153). -/
def wordOf (b3 b2 b1 b0 : Byte) : Word :=
  b3.setWidth 32 <<< 24 ||| b2.setWidth 32 <<< 16 ||| b1.setWidth 32 <<< 8 ||| b0.setWidth 32

/-- `swap_endian(w)`: the four bytes in reverse order (40_word_utilities.md R141). -/
def swapEndian (w : Word) : Word := wordOf (byteAt w 0) (byteAt w 1) (byteAt w 2) (byteAt w 3)

/-- Byte `i` of a byte sequence. Every rule indexes inside the sequence, but for the lanes above a narrow transaction's
width, which read as 0 (the n-byte value of 20_memory.md R73 as a number). -/
def byteIn (s : List Byte) (i : Nat) : Byte := s.getD i 0

/-- `le32(s, o)` (40_word_utilities.md R142). -/
def le32 (s : List Byte) (o : Nat) : Word :=
  wordOf (byteIn s (o + 3)) (byteIn s (o + 2)) (byteIn s (o + 1)) (byteIn s o)

/-- `be32(s, o)` (00_scope.md R9, 40_word_utilities.md R142). -/
def be32 (s : List Byte) (o : Nat) : Word :=
  wordOf (byteIn s o) (byteIn s (o + 1)) (byteIn s (o + 2)) (byteIn s (o + 3))

/-- `be32bytes(w)` (00_scope.md R9, 40_word_utilities.md R142). -/
def be32bytes (w : Word) : List Byte := [byteAt w 3, byteAt w 2, byteAt w 1, byteAt w 0]

/-- The first `n` bytes of a word in the bus's lane order: lane j is bits 8j+7:8j (20_memory.md R73). -/
def leBytes (n : Nat) (w : Word) : List Byte := (List.range n).map (byteAt w)

/-- `xor16(x, y)`: bytewise exclusive-or of two blocks (40_word_utilities.md R146). -/
def xor16 (x y : List Byte) : List Byte := List.zipWith (· ^^^ ·) x y

end Sys2Proof.Machine
end

