-- ==== Sys2Proof/Machine/KeySchedule.lean ====
section
/-! DEFINITION. The key schedule (42_key_schedule.md R170–R180). -/

namespace Sys2Proof.Machine

/-- The schedule's local words A, B, C, D: values of a pure function, not architectural state (10_state.md R48). -/
structure KeyWords where
  a : Word
  b : Word
  c : Word
  d : Word
  deriving DecidableEq, Repr

/-- The key view: A, B, C, D read big-endian (40_word_utilities.md R144). -/
def keyView (k : List Byte) : KeyWords :=
  { a := be32 k 0, b := be32 k 4, c := be32 k 8, d := be32 k 12 }

/-- `T0 = A + C - KC[i-1]` of round `i` (42_key_schedule.md R173). -/
def keyT0 (i : Nat) (x : KeyWords) : Word := x.a + x.c - kc (i - 1)

/-- `T1 = B + KC[i-1] - D` of round `i` (42_key_schedule.md R173). -/
def keyT1 (i : Nat) (x : KeyWords) : Word := x.b + kc (i - 1) - x.d

/-- The type-0 rotation of (A, B), both new values from the old ones (42_key_schedule.md R175). -/
def rotateAB (x : KeyWords) : KeyWords :=
  { x with a := (x.a >>> 8) ^^^ (x.b <<< 24), b := (x.b >>> 8) ^^^ (x.a <<< 24) }

/-- The type-1 rotation of (C, D), both new values from the old ones (42_key_schedule.md R176). -/
def rotateCD (x : KeyWords) : KeyWords :=
  { x with c := (x.c <<< 8) ^^^ (x.d >>> 24), d := (x.d <<< 8) ^^^ (x.c >>> 24) }

/-- The rotation that follows round `i`: none after round 16, type 0 after an odd round, type 1 after an even one
(42_key_schedule.md R171, R177). -/
def rotateAfter (i : Nat) (x : KeyWords) : KeyWords :=
  if i = 16 then x else if i % 2 = 1 then rotateAB x else rotateCD x

/-- The words emitted by `n` rounds from round `i` on: RK[2(i-1)] = G(T0), RK[2(i-1)+1] = G(T1), then the next round
(42_key_schedule.md R172, R174). -/
def keyRounds : Nat → Nat → KeyWords → List Word
  | 0, _, _ => []
  | n + 1, i, x => gFun (keyT0 i x) :: gFun (keyT1 i x) :: keyRounds n (i + 1) (rotateAfter i x)

/-- Each round emits two words. -/
theorem keyRounds_length (n i : Nat) (x : KeyWords) : (keyRounds n i x).length = 2 * n := by
  induction n generalizing i x with
  | zero => rfl
  | succ n ih => simp [keyRounds, ih]; omega

/-- `KeySchedule(k)`: rounds 1 to 16 on the key view of `k` (42_key_schedule.md R172). -/
def keySchedule (k : List Byte) : Vector Word 32 :=
  ⟨(keyRounds 16 1 (keyView k)).toArray, by simp [keyRounds_length]⟩

end Sys2Proof.Machine
end

