-- ==== Sys2Proof/Machine/Cipher.lean ====
section
/-! DEFINITION. The Feistel round function (43_round_function.md R190–R194) and the block cipher
(44_block_cipher.md R200–R205). -/

namespace Sys2Proof.Machine

/-- `F(R0, R1, K0, K1)`, step by step (43_round_function.md R190). -/
def feistel (r0 r1 k0 k1 : Word) : Word × Word :=
  let t0 := r0 ^^^ k0
  let t1 := r1 ^^^ k1
  let t1 := t1 ^^^ t0
  let t1 := gFun t1
  let t0 := t0 + t1
  let t0 := gFun t0
  let t1 := t1 + t0
  let t1 := gFun t1
  let t0 := t0 + t1
  (t0, t1)

/-- The block words L0, L1, R0, R1: values of a pure function, not architectural state (10_state.md R48). -/
structure BlockWords where
  l0 : Word
  l1 : Word
  r0 : Word
  r1 : Word
  deriving DecidableEq, Repr

/-- The block view (40_word_utilities.md R143). -/
def blockView (b : List Byte) : BlockWords :=
  { l0 := be32 b 0, l1 := be32 b 4, r0 := be32 b 8, r1 := be32 b 12 }

/-- The output view, the R half first: R0, R1, L0, L1 (40_word_utilities.md R145, 44_block_cipher.md R200). -/
def outputView (x : BlockWords) : List Byte :=
  be32bytes x.r0 ++ be32bytes x.r1 ++ be32bytes x.l0 ++ be32bytes x.l1

/-- Round-key word RK[n]. -/
def rkWord (rk : Vector Word 32) (n : Nat) : Word := rk.toList.getD n 0

/-- One round: round `r` updates L from R when `r` is even and R from L when it is odd, with the key pair at offset `o`
(43_round_function.md R191, 44_block_cipher.md R200). -/
def blockRound (rk : Vector Word 32) (r o : Nat) (x : BlockWords) : BlockWords :=
  if r % 2 = 0 then
    let f := feistel x.r0 x.r1 (rkWord rk o) (rkWord rk (o + 1))
    { x with l0 := x.l0 ^^^ f.1, l1 := x.l1 ^^^ f.2 }
  else
    let f := feistel x.l0 x.l1 (rkWord rk o) (rkWord rk (o + 1))
    { x with r0 := x.r0 ^^^ f.1, r1 := x.r1 ^^^ f.2 }

/-- The sixteen rounds, round `r` with the key pair at offset `off r`. -/
def blockRounds (rk : Vector Word 32) (off : Nat → Nat) (x : BlockWords) : BlockWords :=
  (List.range 16).foldl (fun x r => blockRound rk r (off r) x) x

/-- `EncryptBlock(b, RK)`: key pairs at offsets 0, 2, …, 30 (44_block_cipher.md R200, R202). -/
def encryptBlock (b : List Byte) (rk : Vector Word 32) : List Byte :=
  outputView (blockRounds rk (fun r => 2 * r) (blockView b))

/-- `DecryptBlock(c, RK)`: key pairs at offsets 30, 28, …, 0 (44_block_cipher.md R201, R202). -/
def decryptBlock (c : List Byte) (rk : Vector Word 32) : List Byte :=
  outputView (blockRounds rk (fun r => 30 - 2 * r) (blockView c))

end Sys2Proof.Machine
end

