-- ==== Sys2Proof/Machine/Chaining.lean ====
section
/-! DEFINITION. The chaining and padding layer (45_chaining_padding.md R220–R233). -/

namespace Sys2Proof.Machine

/-- `Pad(p)`: k = 16 - (len mod 16) copies of the byte k (45_chaining_padding.md R220). -/
def pad (p : List Byte) : List Byte :=
  let k := 16 - p.length % 16
  p ++ List.replicate k (BitVec.ofNat 8 k)

/-- Whether the last byte `c` of `q` lies in 1 to 16, is at most len(q), and the preceding c - 1 bytes all equal it
(45_chaining_padding.md R221). -/
def padPattern (q : List Byte) : Bool :=
  let last := byteIn q (q.length - 1)
  let c := last.toNat
  decide (1 ≤ c) && decide (c ≤ 16) && decide (c ≤ q.length) &&
    (List.range (c - 1)).all fun j => byteIn q (q.length - c + j) == last

/-- `Unpad(q)`: the bytes and whether the padding was valid; the empty sequence is invalid (45_chaining_padding.md R221). -/
def unpad (q : List Byte) : List Byte × Bool :=
  if q.length = 0 then (q, false)
  else if padPattern q then (q.take (q.length - (byteIn q (q.length - 1)).toNat), true)
  else (q, false)

/-- `n` blocks of CBC encryption from the chaining value `prev` (45_chaining_padding.md R222). -/
def cbcEncryptBlocks (rk : Vector Word 32) : Nat → List Byte → List Byte → List Byte
  | 0, _, _ => []
  | n + 1, d, prev =>
    let c := encryptBlock (xor16 (d.take 16) prev) rk
    c ++ cbcEncryptBlocks rk n (d.drop 16) c

/-- `CbcEncrypt(d, iv, RK)` (45_chaining_padding.md R222). -/
def cbcEncrypt (d iv : List Byte) (rk : Vector Word 32) : List Byte :=
  cbcEncryptBlocks rk (d.length / 16) d iv

/-- `n` blocks of CBC decryption from the chaining value `prev`; the next chaining value is the ciphertext block
(45_chaining_padding.md R223). -/
def cbcDecryptBlocks (rk : Vector Word 32) : Nat → List Byte → List Byte → List Byte
  | 0, _, _ => []
  | n + 1, e, prev =>
    xor16 (decryptBlock (e.take 16) rk) prev ++ cbcDecryptBlocks rk n (e.drop 16) (e.take 16)

/-- `CbcDecrypt(e, iv, RK)` (45_chaining_padding.md R223). -/
def cbcDecrypt (e iv : List Byte) (rk : Vector Word 32) : List Byte :=
  cbcDecryptBlocks rk (e.length / 16) e iv

/-- `n` blocks, each on its own, by the block function `f` (45_chaining_padding.md R225). -/
def ecbBlocks (f : List Byte → List Byte) : Nat → List Byte → List Byte
  | 0, _ => []
  | n + 1, d => f (d.take 16) ++ ecbBlocks f n (d.drop 16)

/-- `EcbEncrypt(d, RK)` (45_chaining_padding.md R225). -/
def ecbEncrypt (d : List Byte) (rk : Vector Word 32) : List Byte :=
  ecbBlocks (fun b => encryptBlock b rk) (d.length / 16) d

/-- `EcbDecrypt(d, RK)` (45_chaining_padding.md R225). -/
def ecbDecrypt (d : List Byte) (rk : Vector Word 32) : List Byte :=
  ecbBlocks (fun b => decryptBlock b rk) (d.length / 16) d

/-- `m = len - (len mod 16)`: the bytes that truncation keeps (45_chaining_padding.md R228). -/
def wholeBlocks (n : Nat) : Nat := n - n % 16

/-- `EncryptMsg(p, RK, iv, pad)`: the output and the truncation flag (45_chaining_padding.md R226). -/
def encryptMsg (p : List Byte) (rk : Vector Word 32) (iv : List Byte) (padded : Bool) : List Byte × Bool :=
  if padded then (cbcEncrypt (pad p) iv rk, false)
  else (ecbEncrypt (p.take (wholeBlocks p.length)) rk, wholeBlocks p.length != p.length)

/-- What a DECRYPT says of the padding (45_chaining_padding.md R227). -/
inductive PadState where
  /-- Unpadded mode: no padding is looked at. -/
  | none
  /-- Unpad found a valid padding and stripped it. -/
  | valid
  /-- Unpad found no valid padding and left the buffer as it was. -/
  | invalid
  deriving DecidableEq, Repr

/-- `DecryptMsg(c, RK, iv, pad)`: the output, the truncation flag and the padding state (45_chaining_padding.md R227). -/
def decryptMsg (c : List Byte) (rk : Vector Word 32) (iv : List Byte) (padded : Bool) : List Byte × Bool × PadState :=
  let m := wholeBlocks c.length
  let trunc := m != c.length
  if padded then
    let u := unpad (cbcDecrypt (c.take m) iv rk)
    (u.1, trunc, if u.2 then .valid else .invalid)
  else (ecbDecrypt (c.take m) rk, trunc, .none)

end Sys2Proof.Machine
end

