-- ==== Sys2Proof/Syntax.lean ====
section
/-! DEFINITION. The six commands of the opcode table (30_encoding.md R111). -/

namespace Sys2Proof

/-- A command: this hardware's instruction. No command carries an operand, because "a command takes its operands from
registers, never from the word" (30_encoding.md R113). -/
inductive Instr where
  /-- NOP, OP 0x0 (46_commands.md R255). -/
  | nop
  /-- KEYSCHED, OP 0x1 (46_commands.md R256). -/
  | keysched
  /-- ENC_BLOCK, OP 0x2 (46_commands.md R257). -/
  | encBlock
  /-- DEC_BLOCK, OP 0x3 (46_commands.md R258). -/
  | decBlock
  /-- ENCRYPT, OP 0x4 (46_commands.md R260). -/
  | encrypt
  /-- DECRYPT, OP 0x5 (46_commands.md R261). -/
  | decrypt
  deriving DecidableEq, Repr

end Sys2Proof
end

