-- ==== Sys2Proof/WellFormed.lean ====
section
/-! DEFINITION. What is well formed: a command, a command word, the implementation parameters. (Host-script lines are checked in
Sys2Proof/Machine/Script.lean, where their type stands.) -/

namespace Sys2Proof

/-- Every command is well formed: it has no operand that could be out of range (30_encoding.md R113). -/
def Instr.wf : Instr → Bool
  | .nop => true
  | .keysched => true
  | .encBlock => true
  | .decBlock => true
  | .encrypt => true
  | .decrypt => true

/-- A command word is well formed when RSV (bits 31:4) is 0 and OP (bits 3:0) is at most 5 (30_encoding.md R110, R112). -/
def wordWf (w : Word) : Bool :=
  w.extractLsb' 4 28 == 0 && decide ((w.extractLsb' 0 4).toNat ≤ 5)

/-- The legal values of MAX_MSG: "a multiple of 16, 16 ≤ MAX_MSG ≤ 65520" (00_scope.md R8). -/
def maxMsgWf (m : Nat) : Bool :=
  m % 16 == 0 && decide (16 ≤ m) && decide (m ≤ 65520)

/-- The legal bus protocols: "any protocol that gives 8-, 16- and 32-bit reads and writes, and an error response"
(00_scope.md R8). -/
def busProtocolWf (b : BusProtocol) : Bool :=
  [1, 2, 4].all (fun n => b.readBytes.contains n && b.writeBytes.contains n) && b.errorResponse

/-- The legal parameters: MAX_MSG and BUS_PROTOCOL as above, ADDR_BITS ≥ 18, BASE 2^18-aligned (00_scope.md R8). -/
def paramsWf (p : Params) : Bool :=
  maxMsgWf p.maxMsg && busProtocolWf p.busProtocol && decide (18 ≤ p.addrBits) && p.base % 2 ^ 18 == 0

end Sys2Proof
end

