-- ==== Sys2Proof/Decode.lean ====
section
/-! DEFINITION. The decoder, total on every word and on every byte string (30_encoding.md R112), and the encoder. -/

namespace Sys2Proof

/-- Why a command word does not decode (30_encoding.md R112). Both are the spec's ILLEGAL (46_commands.md R262). -/
inductive DecodeReject where
  /-- RSV, bits 31:4, is not 0. -/
  | reservedBits
  /-- OP is one of the reserved numbers 0x6 to 0xF. -/
  | reservedOp
  /-- Not exactly four bytes: a command word is exactly 32 bits (30_encoding.md R114). -/
  | wrongLength
  deriving DecidableEq, Repr

/-- The command with number `op` (30_encoding.md R111). -/
def decodeOp (op : Nat) : Except DecodeReject Instr :=
  match op with
  | 0 => .ok .nop
  | 1 => .ok .keysched
  | 2 => .ok .encBlock
  | 3 => .ok .decBlock
  | 4 => .ok .encrypt
  | 5 => .ok .decrypt
  | _ => .error .reservedOp

/-- Decode of a 32-bit command word: "every 32-bit word is either one of the six commands or illegal" (30_encoding.md R112). -/
def decode (w : Word) : Except DecodeReject Instr :=
  if w.extractLsb' 4 28 ≠ 0 then .error .reservedBits
  else decodeOp (w.extractLsb' 0 4).toNat

/-- Decode of bytes as the bus carries them: four bytes, the byte at the lowest offset in bits 7:0 (20_memory.md R73). -/
def decodeBytes (bs : List Byte) : Except DecodeReject Instr :=
  match bs with
  | [b0, b1, b2, b3] =>
    decode (b3.setWidth 32 <<< 24 ||| b2.setWidth 32 <<< 16 ||| b1.setWidth 32 <<< 8 ||| b0.setWidth 32)
  | _ => .error .wrongLength

/-- A word laid out as bytes, the least significant first (20_memory.md R73). -/
def wordBytes (w : Word) : List Byte :=
  [w.extractLsb' 0 8, w.extractLsb' 8 8, w.extractLsb' 16 8, w.extractLsb' 24 8]

/-- The command that the decoder reads from a row of `nbits` bits whose bits are `w`, the bits above `nbits` being 0.
A row longer than a command word is none. -/
def decodeTableWord (nbits w : Nat) : Option Instr :=
  if 32 < nbits then none
  else (decodeBytes (wordBytes (BitVec.ofNat 32 (w % 2 ^ nbits)))).toOption

/-- The command number of a command (30_encoding.md R111). -/
def opNumber : Instr → BitVec 4
  | .nop => 0x0
  | .keysched => 0x1
  | .encBlock => 0x2
  | .decBlock => 0x3
  | .encrypt => 0x4
  | .decrypt => 0x5

/-- The word of a command: OP in bits 3:0 and RSV = 0 (30_encoding.md R110, R111). -/
def encode (i : Instr) : Word := (opNumber i).setWidth 32

/-- The mnemonic of a command (30_encoding.md R111). -/
def mnemonic : Instr → String
  | .nop => "NOP"
  | .keysched => "KEYSCHED"
  | .encBlock => "ENC_BLOCK"
  | .decBlock => "DEC_BLOCK"
  | .encrypt => "ENCRYPT"
  | .decrypt => "DECRYPT"

/-- One hexadecimal digit in capitals. -/
def hexDigit (d : Nat) : Char :=
  if d < 10 then Char.ofNat (48 + d) else Char.ofNat (55 + d)

/-- The eight hexadecimal digits of a word, most significant first. -/
def hexWord (w : Word) : List Char :=
  (List.range 8).map fun k => hexDigit (w.extractLsb' (4 * (7 - k)) 4).toNat

/-- What a disassembler prints for a command word (30_encoding.md R118). -/
def disassemble (w : Word) : String :=
  match decode w with
  | .ok i => mnemonic i
  | .error _ => ".word 0x" ++ String.ofList (hexWord w) ++ " ; illegal"

end Sys2Proof
end

