-- ==== Sys2Proof/Machine/Map.lean ====
section
/-! DEFINITION. The address map of the core's window: offsets, widths, registers, buffers (20_memory.md R70–R72, R77, R78;
30_encoding.md R116).
A byte offset into the core's window of 2^ADDR_BITS bytes is a natural number, ADDR_BITS being a parameter (20_memory.md R70). -/

namespace Sys2Proof.Machine

/-- The widths of a transaction: "no transaction wider than 32 bits exists" (20_memory.md R77). -/
inductive Width where
  | w8
  | w16
  | w32
  deriving DecidableEq, Repr

/-- The number of bytes of a transaction. -/
def Width.bytes : Width → Nat
  | .w8 => 1
  | .w16 => 2
  | .w32 => 4

/-- The registers of the register region (20_memory.md R71). -/
inductive Reg where
  | id
  | cmd
  | status
  | cfg
  | keylen
  | ivlen
  | inLen
  | outLen
  | keyW (n : Fin 4)
  | ivW (n : Fin 4)
  | rk (n : Fin 32)
  deriving DecidableEq, Repr

/-- What a transaction reaches: a register, or the bytes of a buffer from an index on. -/
inductive Target where
  | reg (r : Reg)
  | inBuf (i : Nat)
  | outBuf (i : Nat)
  deriving DecidableEq, Repr

/-- The base of IN_BUF in the window (20_memory.md R71). -/
def inBufBase : Nat := 0x10000

/-- The base of OUT_BUF in the window (20_memory.md R71). -/
def outBufBase : Nat := 0x20000

/-- The register at a word-aligned offset of the register region; none where the offset is unmapped (20_memory.md R71). -/
def regAt (o : Nat) : Option Reg :=
  if o = 0x000 then some .id
  else if o = 0x004 then some .cmd
  else if o = 0x008 then some .status
  else if o = 0x00C then some .cfg
  else if o = 0x010 then some .keylen
  else if o = 0x014 then some .ivlen
  else if o = 0x018 then some .inLen
  else if o = 0x01C then some .outLen
  else if o < 0x030 then some (.keyW (Fin.ofNat 4 ((o - 0x020) / 4)))
  else if o < 0x040 then some (.ivW (Fin.ofNat 4 ((o - 0x030) / 4)))
  else if o < 0x080 then none
  else if o < 0x100 then some (.rk (Fin.ofNat 32 ((o - 0x080) / 4)))
  else none

/-- The offset of a register (20_memory.md R71). -/
def regOffset : Reg → Nat
  | .id => 0x000
  | .cmd => 0x004
  | .status => 0x008
  | .cfg => 0x00C
  | .keylen => 0x010
  | .ivlen => 0x014
  | .inLen => 0x018
  | .outLen => 0x01C
  | .keyW n => 0x020 + 4 * n.val
  | .ivW n => 0x030 + 4 * n.val
  | .rk n => 0x080 + 4 * n.val

/-- What a transaction of width `w` at offset `a` reaches; none is the bus error of 20_memory.md R76: misaligned (R78), a
narrow access to the register region (R77), or any byte unmapped (R72). No byte beyond the map is mapped, whatever ADDR_BITS. -/
def locate (p : Params) (a : Nat) (w : Width) : Option Target :=
  if a % w.bytes ≠ 0 then none
  else if a < 0x100 then (if w = .w32 then (regAt a).map .reg else none)
  else if inBufBase ≤ a ∧ a + w.bytes ≤ inBufBase + p.maxMsg then some (.inBuf (a - inBufBase))
  else if outBufBase ≤ a ∧ a + w.bytes ≤ outBufBase + p.outBufBytes then some (.outBuf (a - outBufBase))
  else none

/-- The address of an offset in the host's address space: "byte offsets from BASE" (20_memory.md R70, R71). -/
def hostAddress (p : Params) (a : Nat) : Nat := p.base + a

/-- The offset that an address of the host's space names; none outside the core's window (20_memory.md R70). -/
def windowOffset (p : Params) (x : Nat) : Option Nat :=
  if p.base ≤ x ∧ x < p.base + 2 ^ p.addrBits then some (x - p.base) else none

/-- The symbolic offset of a register (30_encoding.md R116). -/
def offsetOf (r : Reg) : Nat := regOffset r

/-- The symbolic offset `IN_BUF+k` (30_encoding.md R116). -/
def inBufAt (k : Nat) : Nat := inBufBase + k

/-- The symbolic offset `OUT_BUF+k` (30_encoding.md R116). -/
def outBufAt (k : Nat) : Nat := outBufBase + k

end Sys2Proof.Machine
end

