-- ==== Sys2Proof/Machine/Script.lean ====
section
/-! DEFINITION. The host script: its instructions, its pseudo-instructions and their exact expansions
(30_encoding.md R115–R117). Labels stand as line numbers (log 3). -/

namespace Sys2Proof.Machine

/-- One line of a host script (30_encoding.md R115). -/
inductive ScriptInstr where
  /-- `WR32 a, v`. -/
  | wr32 (a : Nat) (v : BitVec 32)
  /-- `WR16 a, v`. -/
  | wr16 (a : Nat) (v : BitVec 16)
  /-- `WR8 a, v`. -/
  | wr8 (a : Nat) (v : BitVec 8)
  /-- `RD32 a`. -/
  | rd32 (a : Nat)
  /-- `RD16 a`. -/
  | rd16 (a : Nat)
  /-- `RD8 a`. -/
  | rd8 (a : Nat)
  /-- `BNZ m, label`: go to the line when `rd & m` is not 0. -/
  | bnz (m : Word) (target : Nat)
  /-- `BZ m, label`: go to the line when `rd & m` is 0. -/
  | bz (m : Word) (target : Nat)
  /-- `EXPECT v`: a failed assertion stops the script with failure. -/
  | expect (v : Word)
  deriving DecidableEq, Repr

/-- The pseudo-instructions (30_encoding.md R117). -/
inductive Pseudo where
  | cmd (m : Instr)
  | wait
  | ldkey (k : Vector Byte 16)
  | ldiv (v : Vector Byte 16)
  | noiv
  | ldin (s : List Byte)
  | setcfg (pad strict ie : Bool)
  | clrdone
  | clrwerr
  | run (m : Instr)
  deriving DecidableEq, Repr

/-- A source line of a script: an instruction or a pseudo-instruction. -/
inductive ScriptItem where
  | plain (i : ScriptInstr)
  | pseudo (p : Pseudo)
  deriving DecidableEq, Repr

/-- An offset is well formed when ADDR_BITS bits hold it (00_scope.md R8, 20_memory.md R70). -/
def offsetWf (p : Params) (a : Nat) : Bool := decide (a < 2 ^ p.addrBits)

/-- A script is well formed when every offset lies in the window and every branch goes to one of its lines or to its end. -/
def scriptWf (p : Params) (s : List ScriptInstr) : Bool :=
  s.all fun i =>
    match i with
    | .wr32 a _ => offsetWf p a
    | .wr16 a _ => offsetWf p a
    | .wr8 a _ => offsetWf p a
    | .rd32 a => offsetWf p a
    | .rd16 a => offsetWf p a
    | .rd8 a => offsetWf p a
    | .bnz _ t => decide (t ≤ s.length)
    | .bz _ t => decide (t ≤ s.length)
    | .expect _ => true

/-- A pseudo-instruction is well formed when `LDIN` loads at most MAX_MSG bytes (30_encoding.md R117). -/
def pseudoWf (p : Params) : Pseudo → Bool
  | .cmd _ => true
  | .wait => true
  | .ldkey _ => true
  | .ldiv _ => true
  | .noiv => true
  | .ldin s => decide (s.length ≤ p.maxMsg)
  | .setcfg _ _ _ => true
  | .clrdone => true
  | .clrwerr => true
  | .run _ => true

/-- The value `pad + 2·strict + 4·ie` of `SETCFG` (30_encoding.md R117). -/
def cfgValue (pad strict ie : Bool) : Word :=
  BitVec.ofNat 32 (pad.toNat + 2 * strict.toNat + 4 * ie.toNat)

/-- The two lines of `WAIT` from line `at_` on: poll STATUS until BUSY = 0 (30_encoding.md R117). -/
def expandWait (at_ : Nat) : List ScriptInstr := [.rd32 (offsetOf .status), .bnz 0x1 at_]

/-- `WR32` of `le32(s, 4j)` at `base + 4j`, for j = 0 .. n - 1, bytes beyond `s` being zero (30_encoding.md R117). -/
def expandBytes (base : Nat) (s : List Byte) (n : Nat) : List ScriptInstr :=
  (List.range n).map fun j => .wr32 (base + 4 * j) (le32 s (4 * j))

/-- The exact expansion of a pseudo-instruction that starts at line `at_` (30_encoding.md R117). -/
def expand (at_ : Nat) : Pseudo → List ScriptInstr
  | .cmd m => [.wr32 (offsetOf .cmd) (encode m)]
  | .wait => expandWait at_
  | .ldkey k => expandBytes 0x020 k.toList 4 ++ [.wr32 (offsetOf .keylen) 16]
  | .ldiv v => expandBytes 0x030 v.toList 4 ++ [.wr32 (offsetOf .ivlen) 16]
  | .noiv => [.wr32 (offsetOf .ivlen) 0]
  | .ldin s => expandBytes inBufBase s ((s.length + 3) / 4) ++ [.wr32 (offsetOf .inLen) (BitVec.ofNat 32 s.length)]
  | .setcfg p st ie => [.wr32 (offsetOf .cfg) (cfgValue p st ie)]
  | .clrdone => [.wr32 (offsetOf .status) 0x2]
  | .clrwerr => [.wr32 (offsetOf .status) 0x40]
  | .run m => .wr32 (offsetOf .cmd) (encode m) :: expandWait (at_ + 1)

/-- The script of a list of source lines, the first at line `at_`. -/
def assemble (at_ : Nat) : List ScriptItem → List ScriptInstr
  | [] => []
  | .plain i :: rest => i :: assemble (at_ + 1) rest
  | .pseudo p :: rest => expand at_ p ++ assemble (at_ + (expand at_ p).length) rest

end Sys2Proof.Machine
end

