-- ==== Sys2Proof/Machine/State.lean ====
section
/-! DEFINITION. The state of the machine (10_state.md R30–R54), the reasons a step can stop, and the state after reset
(70_reset_and_hazards.md R341). -/

namespace Sys2Proof.Machine

/-- The error codes, STATUS.ERRCODE. Codes 8 to 15 are "never produced" (60_exceptions.md R301) and have no name here (log 11). -/
inductive ErrorCode where
  /-- 0: the command succeeded. -/
  | noError
  /-- 1: KEYLEN is not 16. -/
  | invalidKeyLength
  /-- 2: IN_LEN is not 16 for a block command. -/
  | invalidBlockSize
  /-- 3: strict mode, IN_LEN not a multiple of 16. -/
  | truncatedInput
  /-- 4: strict mode, the padding after decryption is invalid. -/
  | invalidPadding
  /-- 5: padded mode, IVLEN is neither 0 nor 16. -/
  | invalidIvLength
  /-- 6: IN_LEN exceeds MAX_MSG. -/
  | invalidLength
  /-- 7: the command word does not decode. -/
  | illegalCommand
  deriving DecidableEq, Repr

/-- The bits of STATUS that are storage (10_state.md R33). BUSY is derived from the sequencer (R50); bit 7 and bits 31:12
are reserved and read 0. -/
structure Status where
  done : Bool
  err : Bool
  trunc : Bool
  padinv : Bool
  padok : Bool
  werr : Bool
  errcode : ErrorCode
  deriving DecidableEq, Repr

/-- The fields of CFG (10_state.md R36); bits 31:3 are reserved and read 0. -/
structure Cfg where
  pad : Bool
  strict : Bool
  ie : Bool
  deriving DecidableEq, Repr

/-- The sequencer: Idle, or Busy with the accepted command word (10_state.md R50). -/
inductive Seq where
  | idle
  | busy (w : Word)
  deriving DecidableEq, Repr

/-- The three agents that act on the core's state (10_state.md R30). -/
inductive Agent where
  /-- The host: the next line of its script. -/
  | host
  /-- The core's sequencer: the completion step, when one is enabled. -/
  | sequencer
  /-- The reset input. -/
  | reset
  deriving DecidableEq, Repr

/-- The faults of the model. -/
inductive Fault where
  /-- Raised by memRead and memWrite for a transaction of `n` bytes at offset `a` that is unmapped, misaligned or of a width
  its region does not allow: `raise BusError(a, n)` (20_memory.md R76). A step does not stop with it: "the fault is reported to
  the host agent and recorded", so it stands in the host's responses and the core's state is unchanged. Safe (log 4). -/
  | busError (a : Nat) (n : Nat)
  /-- Raised by the completion step of a command whose body reads an IN_BUF byte the host has not written since reset: the
  model-only fault UninitRead (46_commands.md R263). A step stops with it. Safe: the hardware goes on (log 5). -/
  | uninitRead
  deriving DecidableEq, Repr

/-- The refusals of the model. -/
inductive Refusal where
  /-- Raised by an arm of exec that has no meaning yet; the model has no such arm. Safe. -/
  | notModelled (mnemonic : String)
  deriving DecidableEq, Repr

/-- What the host receives for a transaction (20_memory.md R74–R76). -/
inductive Response where
  /-- "okay" for a write. -/
  | writeOkay
  /-- "okay" for a read, with the data. -/
  | readOkay (v : Word)
  /-- The recorded fault of a transaction: a bus error. Its data has no meaning and is not kept. -/
  | raised (f : Fault)
  deriving DecidableEq, Repr

/-- The host agent: its script, its next line, its implicit result `rd`, whether a failed EXPECT has stopped it
(30_encoding.md R115), and the responses it has received, the last one first. -/
structure HostAgent where
  script : List ScriptInstr
  line : Nat
  rd : Word
  failed : Bool
  responses : List Response
  deriving DecidableEq, Repr

/-- The bytes of a buffer that have a value: index and byte, indices strictly rising. An unlisted byte has no value
(unwritten, 10_state.md R44; unspecified, R45), so no entry equals what an unlisted one reads as (log 10). -/
abbrev Memory := List Host.Cell

/-- The canonical form: indices strictly rising. -/
abbrev Memory.wf (m : Memory) : Prop := m.Pairwise (fun x y => x.1 < y.1)

/-- The complete state: the record of 10_state.md R53, then the host agent, then the model's own fields. -/
structure State where
  /-- LASTCMD: the last accepted command word (10_state.md R32). -/
  lastcmd : Word
  /-- STATUS but BUSY (10_state.md R33). -/
  status : Status
  /-- CFG (10_state.md R36). -/
  cfg : Cfg
  /-- KEYLEN bits 7:0 (10_state.md R37). -/
  keylen : BitVec 8
  /-- IVLEN bits 7:0 (10_state.md R38). -/
  ivlen : BitVec 8
  /-- IN_LEN (10_state.md R39). -/
  inLen : Word
  /-- OUT_LEN (10_state.md R40). -/
  outLen : Word
  /-- KEY[0..15] (10_state.md R41). -/
  key : Vector Byte 16
  /-- IV[0..15] (10_state.md R42). -/
  iv : Vector Byte 16
  /-- RK[0..31] (10_state.md R43). -/
  rk : Vector Word 32
  /-- IN_BUF: a listed byte is written, an unlisted one is not (10_state.md R44). -/
  inBuf : Memory
  /-- OUT_BUF: an unlisted byte is unspecified (10_state.md R45). -/
  outBuf : Memory
  /-- The sequencer (10_state.md R50). -/
  seq : Seq
  /-- The host agent (10_state.md R30, 30_encoding.md R115; log 3). -/
  host : HostAgent
  /-- The MODEL's own: which agents act next, in order; the spec leaves their interleaving open (20_memory.md R82,
  46_commands.md R253; log 1). -/
  sched : List Agent
  /-- The MODEL's own: the index of the next free draw (20_memory.md R84–R86; log 6). -/
  draws : Nat
  /-- The parameters "the model takes as an argument" (00_scope.md R8). They are no state of the machine (10_state.md R52): no
  step changes them, and a statement about every state holds for every legal value of each (log 7). -/
  params : Params
  deriving DecidableEq, Repr

/-- STATUS after reset (70_reset_and_hazards.md R341). -/
def Status.reset : Status :=
  { done := false, err := false, trunc := false, padinv := false, padok := false, werr := false, errcode := .noError }

/-- A host with no script, before its first transaction (log 3). -/
def HostAgent.empty : HostAgent :=
  { script := [], line := 0, rd := 0, failed := false, responses := [] }

/-- The machine right after reset: every value of 70_reset_and_hazards.md R341; an empty host, an empty schedule and draw 0
(logs 1, 3, 6); the parameters of this hardware (log 7). -/
def State.reset : State :=
  { lastcmd := 0
    status := Status.reset
    cfg := { pad := false, strict := false, ie := false }
    keylen := 0
    ivlen := 0
    inLen := 0
    outLen := 0
    key := Vector.replicate 16 0
    iv := Vector.replicate 16 0
    rk := Vector.replicate 32 0
    inBuf := []
    outBuf := []
    seq := .idle
    host := HostAgent.empty
    sched := []
    draws := 0
    params := Config.params }

end Sys2Proof.Machine
end

