-- ==== Sys2Proof/Machine/Flags.lean ====
section
/-! DEFINITION. Every computation over STATUS, CFG and the interrupt output (10_state.md R33–R36, R47, R50, R51). -/

namespace Sys2Proof.Machine

/-- The number of an error code (60_exceptions.md R301). -/
def ErrorCode.number : ErrorCode → BitVec 4
  | .noError => 0
  | .invalidKeyLength => 1
  | .invalidBlockSize => 2
  | .truncatedInput => 3
  | .invalidPadding => 4
  | .invalidIvLength => 5
  | .invalidLength => 6
  | .illegalCommand => 7

/-- STATUS.BUSY = 1 exactly when the sequencer is Busy (10_state.md R50). -/
def State.busy (s : State) : Bool :=
  match s.seq with
  | .idle => false
  | .busy _ => true

/-- A flag in bit `n` of a word (00_scope.md R9). -/
def flagBit (b : Bool) (n : Nat) : Word := (BitVec.ofBool b).setWidth 32 <<< n

/-- The STATUS word: BUSY, DONE, ERR, TRUNC, PADINV, PADOK, WERR in bits 0 to 6, ERRCODE in bits 11:8, the reserved bits 7 and
31:12 zero (10_state.md R33). -/
def Status.word (st : Status) (busy : Bool) : Word :=
  flagBit busy 0 ||| flagBit st.done 1 ||| flagBit st.err 2 ||| flagBit st.trunc 3 ||| flagBit st.padinv 4 |||
    flagBit st.padok 5 ||| flagBit st.werr 6 ||| st.errcode.number.setWidth 32 <<< 8

/-- Acceptance clears DONE, ERR, ERRCODE, TRUNC, PADINV and PADOK; WERR is unchanged (46_commands.md R250). -/
def Status.accepted (st : Status) : Status :=
  { st with done := false, err := false, trunc := false, padinv := false, padok := false, errcode := .noError }

/-- A successful completion: ERR and ERRCODE 0, TRUNC, PADINV and PADOK as the body sets them, DONE 1 (46_commands.md R252). -/
def Status.completed (st : Status) (trunc padinv padok : Bool) : Status :=
  { st with done := true, err := false, errcode := .noError, trunc := trunc, padinv := padinv, padok := padok }

/-- A failed completion: ERR 1, ERRCODE the code, TRUNC = PADINV = PADOK = 0, DONE 1 (60_exceptions.md R307). -/
def Status.failedWith (st : Status) (code : ErrorCode) : Status :=
  { st with done := true, err := true, errcode := code, trunc := false, padinv := false, padok := false }

/-- A host write to STATUS: 1 in bit 1 clears DONE, 1 in bit 6 clears WERR, all other bits are ignored (10_state.md R34). -/
def Status.writeOneToClear (st : Status) (v : Word) : Status :=
  { st with done := st.done && !v.getLsbD 1, werr := st.werr && !v.getLsbD 6 }

/-- A write that is ignored because the core is busy sets WERR (20_memory.md R83). -/
def Status.lateWrite (st : Status) : Status := { st with werr := true }

/-- The CFG word: PAD, STRICT, IE in bits 0, 1, 2, the rest 0 (10_state.md R36). -/
def Cfg.word (c : Cfg) : Word :=
  flagBit c.pad 0 ||| flagBit c.strict 1 ||| flagBit c.ie 2

/-- The fields that a write to CFG stores; reserved bits are dropped (10_state.md R36, 20_memory.md R80). -/
def Cfg.ofWord (v : Word) : Cfg :=
  { pad := v.getLsbD 0, strict := v.getLsbD 1, ie := v.getLsbD 2 }

/-- The interrupt output, `IRQ = CFG.IE & STATUS.DONE` (10_state.md R47, 60_exceptions.md R310). -/
def State.irq (s : State) : Bool := s.cfg.ie && s.status.done

end Sys2Proof.Machine
end

