-- ==== Sys2Proof/Machine/Ops.lean ====
section
/-! DEFINITION. The named operations over buffers and registers, the acceptance of a command, its completion, the raising of
an error, and the reset (10_state.md, 46_commands.md R250–R252, 60_exceptions.md R307, 70_reset_and_hazards.md R340). -/

namespace Sys2Proof.Machine

/-- The byte at index `a`; none where it has no value. -/
def Memory.read : Memory → Nat → Option Byte
  | [], _ => none
  | (k, b) :: m, a => if k = a then some b else Memory.read m a

/-- Store `b` at index `a`, keeping the indices rising. -/
def Memory.write : Memory → Nat → Byte → Memory
  | [], a, b => [(a, b)]
  | (k, c) :: m, a, b =>
    if a < k then (a, b) :: (k, c) :: m
    else if a = k then (a, b) :: m
    else (k, c) :: Memory.write m a b

/-- Store a byte sequence from index `a` on. -/
def Memory.writeBytes (m : Memory) (a : Nat) : List Byte → Memory
  | [] => m
  | b :: bs => Memory.writeBytes (Memory.write m a b) (a + 1) bs

/-- The bytes below index `n` lose their value. -/
def Memory.dropBelow (m : Memory) (n : Nat) : Memory := m.filter fun c => decide (n ≤ c.1)

/-- Word `n` of a 16-byte register file, in the bus's lane order (10_state.md R41, R42; 20_memory.md R73). -/
def fileWord (v : Vector Byte 16) (n : Fin 4) : Word := le32 v.toList (4 * n.val)

/-- A write of word `n` of a 16-byte register file: byte 4n+j from bits 8j+7:8j (10_state.md R41, R42; 20_memory.md R73). -/
def setFileWord (v : Vector Byte 16) (n : Fin 4) (w : Word) : Vector Byte 16 :=
  (((v.set (4 * n.val) (byteAt w 0) (by omega)).set (4 * n.val + 1) (byteAt w 1) (by omega)).set
    (4 * n.val + 2) (byteAt w 2) (by omega)).set (4 * n.val + 3) (byteAt w 3) (by omega)

/-- The constant of the identity register (10_state.md R31). -/
def idValue : Word := 0x5EED0128

/-- The 32-bit value of a register (10_state.md R31–R43); reserved bits are 0 (20_memory.md R80). -/
def readReg (r : Reg) (s : State) : Word :=
  match r with
  | .id => idValue
  | .cmd => s.lastcmd
  | .status => s.status.word s.busy
  | .cfg => s.cfg.word
  | .keylen => s.keylen.setWidth 32
  | .ivlen => s.ivlen.setWidth 32
  | .inLen => s.inLen
  | .outLen => s.outLen
  | .keyW n => fileWord s.key n
  | .ivW n => fileWord s.iv n
  | .rk n => s.rk[n]

/-- Acceptance of the command word `w` (46_commands.md R250). -/
def accept (w : Word) (s : State) : State :=
  { s with lastcmd := w, seq := .busy w, status := s.status.accepted }

/-- The effect of a write to a register that is neither ignored nor in error; read-only registers keep their value
(20_memory.md R74, R79–R81; 10_state.md R34). -/
def writeReg (r : Reg) (v : Word) (s : State) : State :=
  match r with
  | .id => s
  | .cmd => accept v s
  | .status => { s with status := s.status.writeOneToClear v }
  | .cfg => { s with cfg := Cfg.ofWord v }
  | .keylen => { s with keylen := v.setWidth 8 }
  | .ivlen => { s with ivlen := v.setWidth 8 }
  | .inLen => { s with inLen := v }
  | .outLen => s
  | .keyW n => { s with key := setFileWord s.key n v }
  | .ivW n => { s with iv := setFileWord s.iv n v }
  | .rk _ => s

/-- The key schedule run by a command: all 32 words of RK from KEY (10_state.md R43, 42_key_schedule.md R178). -/
def loadRoundKeys (s : State) : State := { s with rk := keySchedule s.key.toList }

/-- A result into OUT_BUF[0 .. len(out)) (46_commands.md R252). -/
def storeOut (out : List Byte) (s : State) : State := { s with outBuf := s.outBuf.writeBytes 0 out }

/-- OUT_BUF[0 .. m) gets unspecified values (60_exceptions.md R307, 93_implementation_defined.md U4; log 8). -/
def forgetOut (m : Nat) (s : State) : State := { s with outBuf := s.outBuf.dropBelow m }

/-- The end of a completion step on success, with a result of `len` bytes (46_commands.md R252). -/
def complete (len : Nat) (trunc padinv padok : Bool) (s : State) : State :=
  { s with outLen := BitVec.ofNat 32 len, status := s.status.completed trunc padinv padok, seq := .idle }

/-- `raise Error(code)`: the end of a completion step on failure. OUT_LEN is 0, STATUS carries the code, DONE is set, the
sequencer is Idle, and nothing else changes (60_exceptions.md R300, R307; 46_commands.md R252). No pc is saved and no handler
is entered: "no trap entry, handler or return exists" (60_exceptions.md R309). -/
def raiseError (code : ErrorCode) (s : State) : State :=
  { s with outLen := 0, status := s.status.failedWith code, seq := .idle }

/-- The reset input: every piece of the core's state to its value of 70_reset_and_hazards.md R341, a command in flight
aborted (R340). The host agent, the schedule, the draw counter and the parameters are no state of the core (logs 7, 12). -/
def applyReset (s : State) : State :=
  { State.reset with host := s.host, sched := s.sched, draws := s.draws, params := s.params }

end Sys2Proof.Machine
end

