-- ==== Sys2Proof/Machine/Operands.lean ====
section
/-! DEFINITION. Every operand form of the commands: each comes from registers or from IN_BUF (30_encoding.md R113), the checks
made on them first (60_exceptions.md R302), and which IN_BUF bytes a body reads (46_commands.md R263). -/

namespace Sys2Proof.Machine

/-- The commands that read IN_BUF, and so check IN_LEN (30_encoding.md R113, 60_exceptions.md R302). -/
def readsInput : Instr → Bool
  | .nop => false
  | .keysched => false
  | .encBlock => true
  | .decBlock => true
  | .encrypt => true
  | .decrypt => true

/-- The two block commands. -/
def isBlock (op : Instr) : Bool := op == .encBlock || op == .decBlock

/-- The two message commands. -/
def isMessage (op : Instr) : Bool := op == .encrypt || op == .decrypt

/-- `Validate(op)`: the first check that fails, in the order of 60_exceptions.md R302; none when all pass. (Its first check,
the illegal word, is made where the word is decoded: Sys2Proof/Machine/Sequencer.lean.) -/
def validate (op : Instr) (s : State) : Option ErrorCode :=
  if op = .nop then none
  else if readsInput op && decide (s.params.maxMsg < s.inLen.toNat) then some .invalidLength
  else if s.keylen ≠ 16 then some .invalidKeyLength
  else if isMessage op && s.cfg.pad && s.ivlen != 0 && s.ivlen != 16 then some .invalidIvLength
  else if isBlock op && s.inLen != 16 then some .invalidBlockSize
  else if s.cfg.strict && s.inLen.toNat % 16 != 0 && (op == .decrypt || (op == .encrypt && !s.cfg.pad)) then
    some .truncatedInput
  else none

/-- The chaining seed: IV when IVLEN = 16, sixteen zero bytes otherwise (45_chaining_padding.md R224). -/
def ivSeed (s : State) : List Byte :=
  if s.ivlen = 16 then s.iv.toList else List.replicate 16 0

/-- Whether the host has written IN_BUF[0 .. n) since reset (10_state.md R44). -/
def inputWritten (n : Nat) (s : State) : Bool :=
  (List.range n).all fun i => (s.inBuf.read i).isSome

/-- IN_BUF[i]; what an unwritten byte holds is a free value, and no result depends on it: a body that reads one faults
(10_state.md R44, 46_commands.md R263; log 5). -/
def inputByte (i : Nat) (s : State) : Byte :=
  match s.inBuf.read i with
  | some b => b
  | none => Config.unwrittenByte i

/-- IN_BUF[0 .. n). -/
def inputBytes (n : Nat) (s : State) : List Byte :=
  (List.range n).map fun i => inputByte i s

/-- How many bytes of IN_BUF the body of a command reads (46_commands.md R263). -/
def bytesRead (op : Instr) (s : State) : Nat :=
  match op with
  | .nop => 0
  | .keysched => 0
  | .encBlock => 16
  | .decBlock => 16
  | .encrypt => if s.cfg.pad then s.inLen.toNat else wholeBlocks s.inLen.toNat
  | .decrypt => wholeBlocks s.inLen.toNat

/-- The shared shape of every body: Validate, then the error or the body proper, which faults when it reads a byte of IN_BUF
never written since reset (46_commands.md R252, R263; 60_exceptions.md R302). -/
def runBody (op : Instr) (body : State → State) (s : State) : Host.Outcome State Fault Refusal :=
  match validate op s with
  | some code => .next (raiseError code s)
  | none => if inputWritten (bytesRead op s) s then .next (body s) else .fault .uninitRead

end Sys2Proof.Machine
end

