-- ==== Sys2Proof/Machine/Commands.lean ====
section
/-! DEFINITION. The meanings of the six commands: what the completion step of each does (46_commands.md R255–R261). A meaning
does not look at the sequencer; the step runs it only when the sequencer is Busy with its word. -/

namespace Sys2Proof.Machine

/-- NOP completes with OUT_LEN = 0 and changes nothing else but STATUS (46_commands.md R255). -/
def nopBody (s : State) : State := complete 0 false false false s

/-- KEYSCHED writes RK (46_commands.md R256). -/
def keyschedBody (s : State) : State := complete 0 false false false (loadRoundKeys s)

/-- ENC_BLOCK encrypts IN_BUF[0..16) into OUT_BUF[0..16) (46_commands.md R257). -/
def encBlockBody (s : State) : State :=
  let s1 := loadRoundKeys s
  complete 16 false false false (storeOut (encryptBlock (inputBytes 16 s) s1.rk) s1)

/-- DEC_BLOCK decrypts IN_BUF[0..16) into OUT_BUF[0..16) (46_commands.md R258). -/
def decBlockBody (s : State) : State :=
  let s1 := loadRoundKeys s
  complete 16 false false false (storeOut (decryptBlock (inputBytes 16 s) s1.rk) s1)

/-- ENCRYPT: the message function of CFG.PAD on IN_BUF[0..IN_LEN) (46_commands.md R260). -/
def encryptBody (s : State) : State :=
  let s1 := loadRoundKeys s
  let r := encryptMsg (inputBytes s.inLen.toNat s) s1.rk (ivSeed s) s.cfg.pad
  complete r.1.length r.2 false false (storeOut r.1 s1)

/-- The end of DECRYPT on the result `r` of the message function, RK already written: invalid padding in strict mode raises
INVALID_PADDING and leaves OUT_BUF[0 .. m) unspecified; otherwise the output is stored (46_commands.md R261,
60_exceptions.md R307). -/
def finishDecrypt (r : List Byte × Bool × PadState) (s : State) : State :=
  if r.2.2 = .invalid ∧ s.cfg.strict = true then
    raiseError .invalidPadding (forgetOut (wholeBlocks s.inLen.toNat) s)
  else complete r.1.length r.2.1 (r.2.2 == .invalid) (r.2.2 == .valid) (storeOut r.1 s)

/-- DECRYPT: the message function of CFG.PAD on IN_BUF[0..IN_LEN) (46_commands.md R261). -/
def decryptBody (s : State) : State :=
  let s1 := loadRoundKeys s
  finishDecrypt (decryptMsg (inputBytes s.inLen.toNat s) s1.rk (ivSeed s) s.cfg.pad) s1

/-- NOP (46_commands.md R255). -/
def execNop (s : State) : Host.Outcome State Fault Refusal := runBody .nop nopBody s

/-- KEYSCHED (46_commands.md R256). -/
def execKeysched (s : State) : Host.Outcome State Fault Refusal := runBody .keysched keyschedBody s

/-- ENC_BLOCK (46_commands.md R257). -/
def execEncBlock (s : State) : Host.Outcome State Fault Refusal := runBody .encBlock encBlockBody s

/-- DEC_BLOCK (46_commands.md R258). -/
def execDecBlock (s : State) : Host.Outcome State Fault Refusal := runBody .decBlock decBlockBody s

/-- ENCRYPT (46_commands.md R260). -/
def execEncrypt (s : State) : Host.Outcome State Fault Refusal := runBody .encrypt encryptBody s

/-- DECRYPT (46_commands.md R261). -/
def execDecrypt (s : State) : Host.Outcome State Fault Refusal := runBody .decrypt decryptBody s

end Sys2Proof.Machine
end

