-- ==== Sys2Proof/Machine/Dispatch.lean ====
section
/-! DEFINITION. One arm per command. -/

namespace Sys2Proof.Machine

/-- The completion step of a command that decodes (46_commands.md R252). -/
def exec (i : Instr) (s : State) : Host.Outcome State Fault Refusal :=
  match i with
  | .nop => Sys2Proof.Machine.execNop s
  | .keysched => Sys2Proof.Machine.execKeysched s
  | .encBlock => Sys2Proof.Machine.execEncBlock s
  | .decBlock => Sys2Proof.Machine.execDecBlock s
  | .encrypt => Sys2Proof.Machine.execEncrypt s
  | .decrypt => Sys2Proof.Machine.execDecrypt s

end Sys2Proof.Machine
end

