-- ==== Sys2Proof/Machine/Bus.lean ====
section
/-! DEFINITION. The host bus transactions MemRead and MemWrite (20_memory.md R70–R92). -/

namespace Sys2Proof.Machine

/-- The read-only locations: ID, OUT_LEN, RK and OUT_BUF. STATUS is not among them as a whole: its bits 1 and 6 are
write-1-to-clear (20_memory.md R79). -/
def readOnly : Target → Bool
  | .reg .id => true
  | .reg .outLen => true
  | .reg (.rk _) => true
  | .outBuf _ => true
  | .reg .cmd => false
  | .reg .status => false
  | .reg .cfg => false
  | .reg .keylen => false
  | .reg .ivlen => false
  | .reg .inLen => false
  | .reg (.keyW _) => false
  | .reg (.ivW _) => false
  | .inBuf _ => false

/-- The effect of a write of `w.bytes` bytes that takes effect (20_memory.md R74 case 4): a register's, or the bytes of
IN_BUF, which become written (10_state.md R44). -/
def writeTarget (t : Target) (w : Width) (v : Word) (s : State) : State :=
  match t with
  | .reg r => writeReg r v s
  | .inBuf i => { s with inBuf := s.inBuf.writeBytes i (leBytes w.bytes v) }
  | .outBuf _ => s

/-- `MemWrite(a, n, v)`, the conditions in the order of 20_memory.md R74: bus error; read-only, no effect; busy and not
STATUS, ignored with WERR set (R83); otherwise the write takes effect. -/
def memWrite (a : Nat) (w : Width) (v : Word) (s : State) : Except Fault State :=
  match locate s.params a w with
  | none => .error (.busError a w.bytes)
  | some t =>
    if readOnly t then .ok s
    else if s.busy && t != .reg .status then .ok { s with status := s.status.lateWrite }
    else .ok (writeTarget t w v s)

/-- A known word as the lanes of a 32-bit read (20_memory.md R73). -/
def knownLanes (v : Word) : List (Option Byte) := (leBytes 4 v).map some

/-- The lanes of a register read. OUT_LEN and RK read while BUSY = 1 are unspecified (20_memory.md R84). -/
def regLanes (r : Reg) (s : State) : List (Option Byte) :=
  match r with
  | .outLen => if s.busy then List.replicate 4 none else knownLanes s.outLen
  | .rk n => if s.busy then List.replicate 4 none else knownLanes s.rk[n]
  | r => knownLanes (readReg r s)

/-- OUT_BUF[i] as the host reads it: unspecified while BUSY = 1 (20_memory.md R84), at OUT_LEN and above, when the last
completed command failed, and where no completion step has written it since reset (R86; log 8). -/
def outLane (i : Nat) (s : State) : Option Byte :=
  if s.busy || decide (s.outLen.toNat ≤ i) || s.status.err then none else s.outBuf.read i

/-- The lanes of a read, lane j the byte at offset a + j; none where the byte is unspecified (20_memory.md R73, R84–R86). -/
def readLanes (t : Target) (w : Width) (s : State) : List (Option Byte) :=
  match t with
  | .reg r => regLanes r s
  | .inBuf i => (List.range w.bytes).map fun j => s.inBuf.read (i + j)
  | .outBuf i => (List.range w.bytes).map fun j => outLane (i + j) s

/-- Each unspecified lane takes a free draw, lane j the draw `k + j` (20_memory.md R84–R86; log 6). -/
def fillLanes (k : Nat) : List (Option Byte) → List Byte
  | [] => []
  | some b :: ls => b :: fillLanes (k + 1) ls
  | none :: ls => Config.freeByte k :: fillLanes (k + 1) ls

/-- `MemRead(a, n)`: the data, lane j in bits 8j+7:8j, or the bus error; a read changes no state (20_memory.md R73, R75). -/
def memRead (a : Nat) (w : Width) (s : State) : Except Fault Word :=
  match locate s.params a w with
  | none => .error (.busError a w.bytes)
  | some t => .ok (le32 (fillLanes s.draws (readLanes t w s)) 0)

/-- A write that the host issues at an address of its own space; none where the address is not the core's (20_memory.md R70). -/
def memWriteAt (x : Nat) (w : Width) (v : Word) (s : State) : Option (Except Fault State) :=
  (windowOffset s.params x).map fun a => memWrite a w v s

/-- A read that the host issues at an address of its own space; none where the address is not the core's (20_memory.md R70). -/
def memReadAt (x : Nat) (w : Width) (s : State) : Option (Except Fault Word) :=
  (windowOffset s.params x).map fun a => memRead a w s

/-- A wholly free word, the draws `k` to `k + 3`. -/
def freeWord (k : Nat) : Word := le32 (fillLanes k (List.replicate 4 none)) 0

end Sys2Proof.Machine
end

