-- ==== Sys2Proof/Machine/HostTurn.lean ====
section
/-! DEFINITION. The host agent's turn: the next line of its script (30_encoding.md R115), each transaction one indivisible
step (20_memory.md R82). -/

namespace Sys2Proof.Machine

/-- The host goes on at line `n`. -/
def gotoLine (n : Nat) (s : State) : State := { s with host := { s.host with line := n } }

/-- The host records a response and goes on at its next line. -/
def respond (r : Response) (s : State) : State :=
  { s with host := { s.host with responses := r :: s.host.responses, line := s.host.line + 1 } }

/-- The host takes `v` as its implicit result `rd` (30_encoding.md R115). -/
def setRd (v : Word) (s : State) : State := { s with host := { s.host with rd := v } }

/-- The free draws move on by `n`, so that a later read draws afresh (20_memory.md R84; log 6). -/
def advanceDraws (n : Nat) (s : State) : State := { s with draws := s.draws + n }

/-- A write transaction of the host. A bus error changes no state of the core; it is reported to the host and recorded
(20_memory.md R74, R76; log 4). -/
def hostWrite (a : Nat) (w : Width) (v : Word) (s : State) : State :=
  match memWrite a w v s with
  | .ok s' => respond .writeOkay s'
  | .error f => respond (.raised f) s

/-- A read transaction of the host. The data of a bus-error read has no meaning: `rd` is then free (20_memory.md R75, R76;
93_implementation_defined.md U10; log 4). -/
def hostRead (a : Nat) (w : Width) (s : State) : State :=
  match memRead a w s with
  | .ok v => advanceDraws w.bytes (setRd v (respond (.readOkay v) s))
  | .error f => advanceDraws 4 (setRd (freeWord s.draws) (respond (.raised f) s))

/-- A branch of the script: to line `target`, or to the next line (30_encoding.md R115). -/
def branch (taken : Bool) (target : Nat) (s : State) : State :=
  gotoLine (if taken then target else s.host.line + 1) s

/-- One line of the script (30_encoding.md R115). -/
def runLine (i : ScriptInstr) (s : State) : State :=
  match i with
  | .wr32 a v => hostWrite a .w32 v s
  | .wr16 a v => hostWrite a .w16 (v.setWidth 32) s
  | .wr8 a v => hostWrite a .w8 (v.setWidth 32) s
  | .rd32 a => hostRead a .w32 s
  | .rd16 a => hostRead a .w16 s
  | .rd8 a => hostRead a .w8 s
  | .bnz m target => branch (s.host.rd &&& m != 0) target s
  | .bz m target => branch (s.host.rd &&& m == 0) target s
  | .expect v =>
    if s.host.rd = v then gotoLine (s.host.line + 1) s
    else { s with host := { s.host with failed := true } }

/-- The host's turn: nothing after a failed EXPECT or past the script's end, its next line otherwise. -/
def hostTurn (s : State) : State :=
  if s.host.failed then s
  else
    match s.host.script[s.host.line]? with
    | none => s
    | some i => runLine i s

end Sys2Proof.Machine
end

