-- ==== Sys2Proof/Machine/Sequencer.lean ====
section
/-! DEFINITION. The sequencer's completion step and the turns of the three agents (10_state.md R30, R50; 46_commands.md
R251–R253, R262). -/

namespace Sys2Proof.Machine

/-- The completion step of the accepted word `w`: decode (46_commands.md R251), then the command's body, or ILLEGAL_COMMAND
for a word that does not decode (R262, 60_exceptions.md R302). -/
def completionStep (w : Word) (s : State) : Host.Outcome State Fault Refusal :=
  match decode w with
  | .ok i => exec i s
  | .error _ => .next (raiseError .illegalCommand s)

/-- The sequencer's turn: the completion step while Busy; no step is enabled while Idle (46_commands.md R252,
60_exceptions.md R318). -/
def sequencerTurn (s : State) : Host.Outcome State Fault Refusal :=
  match s.seq with
  | .busy w => completionStep w s
  | .idle => .next s

/-- One turn of an agent. -/
def turn (g : Agent) (s : State) : Host.Outcome State Fault Refusal :=
  match g with
  | .host => .next (hostTurn s)
  | .sequencer => sequencerTurn s
  | .reset => .next (applyReset s)

/-- Who moves when the schedule is empty: the sequencer while it is Busy, so that a completion step is taken at last
(46_commands.md R253), and otherwise the host (log 1). -/
def defaultAgent (s : State) : Agent := if s.busy then .sequencer else .host

/-- The agent that moves next and the state it moves in, its turn taken off the schedule. -/
def nextTurn (s : State) : Agent × State :=
  match s.sched with
  | [] => (defaultAgent s, s)
  | g :: rest => (g, { s with sched := rest })

/-- The state in which the very next step is the completion step of `w`: accepted (46_commands.md R250), with the sequencer
next (log 2). -/
def placeWord (w : Word) (s : State) : State :=
  let s1 := accept w s
  match s.sched with
  | [] => s1
  | _ :: _ => { s1 with sched := .sequencer :: s1.sched }

end Sys2Proof.Machine
end

