-- ==== Sys2Proof/Machine/Step.lean ====
section
/-! DEFINITION. One step of the machine: one indivisible turn of one agent (10_state.md R30, 20_memory.md R82). -/

namespace Sys2Proof.Machine

/-- One step: the agent that the schedule names (or the default one) takes its turn. -/
def step (s : State) : Host.Outcome State Fault Refusal :=
  turn (nextTurn s).1 (nextTurn s).2

/-- `s` with the command word `w` just accepted, so that the very next step runs it: this core has no program counter and
fetches nothing; a command comes by a CMD write (10_state.md R49, 46_commands.md R250; log 2). -/
def State.withFetchWord (s : State) (nbits w : Nat) : State :=
  placeWord (BitVec.ofNat 32 (w % 2 ^ nbits)) s

end Sys2Proof.Machine
end

