-- ==== Sys2Proof/Safety.lean ====
section
/-! DEFINITION. What claims call a consistent state and a safe command (10_state.md R35, R45, R50; 46_commands.md R263). -/

namespace Sys2Proof.Machine

/-- "At most one of ERR, PADINV and PADOK is 1 at any time … ERR = 1 exactly when ERRCODE ≠ 0" (10_state.md R35), and a failed
command leaves TRUNC = 0 (60_exceptions.md R307). -/
structure Status.Consistent (st : Status) : Prop where
  err_iff : st.err = true ↔ st.errcode ≠ .noError
  err_padinv : ¬(st.err = true ∧ st.padinv = true)
  err_padok : ¬(st.err = true ∧ st.padok = true)
  padinv_padok : ¬(st.padinv = true ∧ st.padok = true)
  err_trunc : ¬(st.err = true ∧ st.trunc = true)

/-- A buffer of `size` bytes: canonical, and every listed index inside it. -/
structure Memory.Fits (m : Memory) (size : Nat) : Prop where
  wf : Memory.wf m
  bound : ∀ c ∈ m, c.1 < size

/-- The invariant of the machine. -/
structure State.Consistent (s : State) : Prop where
  /-- The flags obey 10_state.md R35. -/
  flags : s.status.Consistent
  /-- While Busy, LASTCMD is the accepted word and the flags acceptance clears are still clear (46_commands.md R250). -/
  busy : ∀ w, s.seq = .busy w → s.lastcmd = w ∧ s.status = s.status.accepted
  /-- IN_BUF is canonical and inside MAX_MSG bytes (10_state.md R44). -/
  inBuf : s.inBuf.Fits s.params.maxMsg
  /-- OUT_BUF is canonical and inside MAX_MSG + 16 bytes (10_state.md R45). -/
  outBuf : s.outBuf.Fits s.params.outBufBytes
  /-- The result fits OUT_BUF (10_state.md R45). -/
  outLen : s.outLen.toNat ≤ s.params.outBufBytes
  /-- Every byte of the result has a value: "OUT_BUF[0 .. OUT_LEN) holds the result" (10_state.md R45). -/
  result : ∀ i, i < s.outLen.toNat → (s.outBuf.read i).isSome = true
  /-- A failed command leaves OUT_LEN = 0 (60_exceptions.md R307). -/
  failed : s.status.err = true → s.outLen = 0
  /-- The parameters are legal (00_scope.md R8). -/
  params : paramsWf s.params = true

/-- The input bytes that the command reads have all been written since reset, or it fails before it reads any: the condition
under which its completion step does not fault (46_commands.md R263). -/
def inputReady (i : Instr) (s : State) : Bool :=
  (validate i s).isSome || inputWritten (bytesRead i s) s

/-! The terms the claims are written in. -/

/-- STATUS after a successful completion: DONE = 1, ERR and ERRCODE 0, WERR as it was (46_commands.md R252). -/
def successStatus (st : Status) (trunc padinv padok : Bool) : Status :=
  { done := true, err := false, trunc := trunc, padinv := padinv, padok := padok, werr := st.werr, errcode := .noError }

/-- STATUS after a failed completion: DONE = ERR = 1, ERRCODE the code, TRUNC = PADINV = PADOK = 0, WERR as it was
(60_exceptions.md R307). -/
def failureStatus (st : Status) (code : ErrorCode) : Status :=
  { done := true, err := true, trunc := false, padinv := false, padok := false, werr := st.werr, errcode := code }

/-- The state a check of Validate that fails leaves: OUT_LEN, STATUS and the sequencer, nothing else (60_exceptions.md R307,
R308). -/
def failedState (code : ErrorCode) (s : State) : State :=
  { s with outLen := 0, status := failureStatus s.status code, seq := .idle }

/-- IN_BUF[0 .. len(b)) is written and holds `b`. -/
def InputIs (b : List Byte) (s : State) : Prop :=
  ∀ j, j < b.length → s.inBuf.read j = some (b.getD j 0)

/-- `t` is `s` after a completion with the result `out`, the round keys `rk` and the status `st`: OUT_BUF[0 .. len(out)) holds
`out`, OUT_LEN is its length, the sequencer is Idle, every other byte of OUT_BUF and everything else is as in `s`. -/
def CompletesTo (s t : State) (rk : Vector Word 32) (out : List Byte) (st : Status) : Prop :=
  t = { s with rk := rk, outBuf := t.outBuf, outLen := BitVec.ofNat 32 out.length, status := st, seq := .idle } ∧
  (∀ j, j < out.length → t.outBuf.read j = some (out.getD j 0)) ∧
  (∀ j, out.length ≤ j → t.outBuf.read j = s.outBuf.read j)

/-- The mapped bytes of the window (20_memory.md R71). -/
def MappedByte (p : Params) (b : Nat) : Prop :=
  b < 0x40 ∨ (0x80 ≤ b ∧ b < 0x100) ∨ (0x10000 ≤ b ∧ b < 0x10000 + p.maxMsg) ∨
    (0x20000 ≤ b ∧ b < 0x20000 + p.maxMsg + 16)

/-- A, B, C, D after the rotations of the first `n` rounds of the key schedule (42_key_schedule.md R171, R177). -/
def keyWordsAfter (x : KeyWords) : Nat → KeyWords
  | 0 => x
  | n + 1 => if (n + 1) % 2 = 1 then rotateAB (keyWordsAfter x n) else rotateCD (keyWordsAfter x n)

/-- Block `j` of a byte sequence, `d[16j .. 16j+16)` (45_chaining_padding.md R222). -/
def blockOf (d : List Byte) (j : Nat) : List Byte := (d.drop (16 * j)).take 16

end Sys2Proof.Machine
end

