-- ==== Sys2Proof/Certificates/Slice0/Obligations.lean ====
section
/-! DEFINITION. The statements for the provers. -/

open Sys2Proof Sys2Proof.Machine

/-! ## Encoding and the step -/

/-- The words of 30_encoding.md R111, written out, decode to the commands they stand for, and 0x6 to 0xF are reserved. -/
def Obligations.SpecWordsDecode : Prop :=
  decode 0x00000000 = .ok .nop ∧ decode 0x00000001 = .ok .keysched ∧ decode 0x00000002 = .ok .encBlock ∧
  decode 0x00000003 = .ok .decBlock ∧ decode 0x00000004 = .ok .encrypt ∧ decode 0x00000005 = .ok .decrypt ∧
  ∀ op : Nat, 6 ≤ op → op ≤ 15 → decode (BitVec.ofNat 32 op) = .error .reservedOp

/-- Decoding is total and exact: a word decodes to a command exactly when RSV = 0 and OP ≤ 5, to the command of that OP, so that
each command has one word; every other word is accepted by an idle core's CMD write and its completion step fails with
ILLEGAL_COMMAND (30_encoding.md R112). -/
def Obligations.DecodeIsTotalAndExact : Prop :=
  ∀ w : Word,
    (∀ i, decode w = .ok i ↔ w = encode i) ∧
    ((∃ i, decode w = .ok i) ↔ w.extractLsb' 4 28 = 0 ∧ (w.extractLsb' 0 4).toNat ≤ 5) ∧
    (∀ i, decode w = .ok i → opNumber i = w.extractLsb' 0 4) ∧
    (w.extractLsb' 4 28 ≠ 0 ∨ 6 ≤ (w.extractLsb' 0 4).toNat → ∀ s : State,
      (s.busy = false → ∃ t, memWrite 0x004 .w32 w s = .ok t ∧ t.lastcmd = w ∧ t.seq = .busy w) ∧
      completionStep w s = .next (failedState .illegalCommand s))

/-- While the sequencer is Busy with a word, and it is the sequencer's turn (by an empty schedule or by its head), a step is the
completion step of that word: exec of the command it decodes to, and the failure with ILLEGAL_COMMAND where it decodes to none
(46_commands.md R251, R252, R262; the schedule is the model's, log 1). -/
def Obligations.StepRunsDecodedCommand : Prop :=
  ∀ (s : State) (w : Word), s.seq = .busy w →
    (s.sched = [] → step s = completionStep w s) ∧
    (∀ rest, s.sched = .sequencer :: rest → step s = completionStep w { s with sched := rest }) ∧
    (∀ i, decode w = .ok i →
      (s.sched = [] → step s = exec i s) ∧
      (∀ rest, s.sched = .sequencer :: rest → step s = exec i { s with sched := rest })) ∧
    (∀ e, decode w = .error e →
      (s.sched = [] → step s = .next (failedState .illegalCommand s)) ∧
      (∀ rest, s.sched = .sequencer :: rest → step s = .next (failedState .illegalCommand { s with sched := rest })))

/-- A word that does not decode is accepted by the CMD write and stored in LASTCMD, the core goes Busy, and the completion step
writes nothing but STATUS and OUT_LEN; with WERR = 0 STATUS then reads 0x00000706 (46_commands.md R262). -/
def Obligations.IllegalWordFails : Prop :=
  ∀ (s : State) (w : Word), w.extractLsb' 4 28 ≠ 0 ∨ 6 ≤ (w.extractLsb' 0 4).toNat → s.busy = false →
    ∃ t, memWrite 0x004 .w32 w s = .ok t ∧ t.lastcmd = w ∧ t.busy = true ∧
      completionStep w t =
        .next { t with outLen := 0, status := failureStatus s.status .illegalCommand, seq := .idle } ∧
      (s.status.werr = false → (failureStatus s.status .illegalCommand).word false = 0x00000706)

/-! ## Reset and the invariant -/

/-- Every value of the table of 70_reset_and_hazards.md R341. -/
def Obligations.ResetValues : Prop :=
  memRead 0x000 .w32 State.reset = .ok 0x5EED0128 ∧ State.reset.lastcmd = 0 ∧ State.reset.busy = false ∧
  State.reset.status.done = false ∧ State.reset.status.err = false ∧ State.reset.status.trunc = false ∧
  State.reset.status.padinv = false ∧ State.reset.status.padok = false ∧ State.reset.status.werr = false ∧
  State.reset.status.errcode = .noError ∧ memRead 0x008 .w32 State.reset = .ok 0x00000000 ∧
  State.reset.cfg = { pad := false, strict := false, ie := false } ∧ memRead 0x00C .w32 State.reset = .ok 0x00000000 ∧
  State.reset.keylen = 0 ∧ State.reset.ivlen = 0 ∧ State.reset.inLen = 0 ∧ State.reset.outLen = 0 ∧
  (∀ j : Fin 16, State.reset.key[j] = 0 ∧ State.reset.iv[j] = 0) ∧ (∀ n : Fin 32, State.reset.rk[n] = 0) ∧
  (∀ i, State.reset.inBuf.read i = none ∧ State.reset.outBuf.read i = none) ∧
  State.reset.seq = .idle ∧ State.reset.irq = false

/-- A turn of the reset input, in any state, a command in flight or not, sets every piece of the core's state to its reset value
in one step (70_reset_and_hazards.md R340). That the host agent, the schedule and the draw counter go on is the model's choice
(log 12); the parameters are no state (00_scope.md R8, log 7). -/
def Obligations.ResetTurnSetsEverything : Prop :=
  ∀ (s : State) (rest : List Agent), s.sched = .reset :: rest →
    step s = .next { State.reset with host := s.host, sched := rest, draws := s.draws, params := s.params }

/-- The invariant holds at reset, the parameters of this hardware being legal: MAX_MSG = 4096, so that OUT_BUF has 4112 bytes, and
ADDR_BITS = 18 (00_scope.md R8). -/
def Obligations.ResetIsConsistent : Prop :=
  State.reset.Consistent ∧ State.reset.params.maxMsg = 4096 ∧ State.reset.params.outBufBytes = 4112 ∧
  State.reset.params.addrBits = 18

/-- Every step keeps the invariant: flags as 10_state.md R35 says, LASTCMD and clear flags while Busy (R50, 46_commands.md R250),
canonical buffers inside their sizes, every byte of the result written (10_state.md R45), OUT_LEN = 0 after a failure
(60_exceptions.md R307), legal parameters (00_scope.md R8); and no step changes a parameter, for any value of each. -/
def Obligations.StepKeepsConsistency : Prop :=
  ∀ s t : State, step s = .next t → t.params = s.params ∧ (s.Consistent → t.Consistent)

/-! ## The commands complete -/

/-- NOP completes in every state: OUT_LEN = 0, DONE = 1, the other flags 0, and nothing else changes; OUT_BUF then reads
unspecified, STATUS reads 0x00000002 when WERR = 0, and DONE raises IRQ when IE = 1 (46_commands.md R255). -/
def Obligations.NopCompletes : Prop :=
  ∀ s : State, ∃ t, exec .nop s = .next t ∧
    t = { s with outLen := 0, status := successStatus s.status false false false, seq := .idle } ∧
    (∀ i, outLane i t = none) ∧ (s.status.werr = false → memRead 0x008 .w32 t = .ok 0x00000002) ∧ t.irq = s.cfg.ie

/-- KEYSCHED with KEYLEN = 16 writes RK = KeySchedule(KEY) and completes with OUT_LEN = 0, and running it again writes the same
RK; with any other KEYLEN it fails before RK is written (46_commands.md R256). -/
def Obligations.KeyschedCompletes : Prop :=
  ∀ s : State,
    (s.keylen = 16 → ∃ t, exec .keysched s = .next t ∧
      t = { s with rk := keySchedule s.key.toList, outLen := 0, status := successStatus s.status false false false,
                   seq := .idle } ∧
      exec .keysched t = .next t) ∧
    (s.keylen ≠ 16 → exec .keysched s = .next (failedState .invalidKeyLength s))

/-- ENC_BLOCK and DEC_BLOCK with KEYLEN = 16, IN_LEN = 16 and IN_BUF[0..16) holding `b` complete with the block function of `b`
under KeySchedule(KEY) in OUT_BUF[0..16), whatever CFG, IVLEN and IV are (46_commands.md R257, R258). -/
def Obligations.BlockCommandsComplete : Prop :=
  ∀ (s : State) (b : List Byte), paramsWf s.params = true → s.keylen = 16 → s.inLen = 16 → b.length = 16 → InputIs b s →
    (∃ t, exec .encBlock s = .next t ∧
      CompletesTo s t (keySchedule s.key.toList) (encryptBlock b (keySchedule s.key.toList))
        (successStatus s.status false false false)) ∧
    (∃ t, exec .decBlock s = .next t ∧
      CompletesTo s t (keySchedule s.key.toList) (decryptBlock b (keySchedule s.key.toList))
        (successStatus s.status false false false))

/-- ENCRYPT with PAD = 1 completes with the CBC encryption of the padded input, chained from IV (IVLEN = 16) or from sixteen zero
bytes (IVLEN = 0), in strict mode or not (46_commands.md R260, 45_chaining_padding.md R224, R226). -/
def Obligations.PaddedEncryptCompletes : Prop :=
  ∀ (s : State) (p : List Byte), s.cfg.pad = true → s.keylen = 16 → p.length = s.inLen.toNat →
    p.length ≤ s.params.maxMsg → InputIs p s →
    (s.ivlen = 16 → ∃ t, exec .encrypt s = .next t ∧
      CompletesTo s t (keySchedule s.key.toList) (cbcEncrypt (pad p) s.iv.toList (keySchedule s.key.toList))
        (successStatus s.status false false false)) ∧
    (s.ivlen = 0 → ∃ t, exec .encrypt s = .next t ∧
      CompletesTo s t (keySchedule s.key.toList)
        (cbcEncrypt (pad p) (List.replicate 16 0) (keySchedule s.key.toList)) (successStatus s.status false false false))

/-- ENCRYPT with PAD = 0 completes with the ECB encryption of the whole blocks `p` of the input, TRUNC telling whether bytes were
dropped, whatever IVLEN is; only the whole blocks need be written (46_commands.md R260, R263; 45_chaining_padding.md R226, R228). -/
def Obligations.UnpaddedEncryptCompletes : Prop :=
  ∀ (s : State) (p : List Byte), s.cfg.pad = false → s.keylen = 16 → s.inLen.toNat ≤ s.params.maxMsg →
    (s.cfg.strict = true → s.inLen.toNat % 16 = 0) → p.length = s.inLen.toNat - s.inLen.toNat % 16 → InputIs p s →
    ∃ t, exec .encrypt s = .next t ∧
      CompletesTo s t (keySchedule s.key.toList) (ecbEncrypt p (keySchedule s.key.toList))
        (successStatus s.status (decide (s.inLen.toNat % 16 ≠ 0)) false false)

/-- DECRYPT with PAD = 1 completes with the unpadded CBC decryption of the whole blocks `c` of the input, PADOK or PADINV telling
whether the padding was valid, TRUNC whether bytes were dropped; in strict mode this holds when IN_LEN is a multiple of 16 and the
padding is valid (46_commands.md R261, 45_chaining_padding.md R227, R233). -/
def Obligations.PaddedDecryptCompletes : Prop :=
  ∀ (s : State) (c iv : List Byte), s.cfg.pad = true → s.keylen = 16 → s.inLen.toNat ≤ s.params.maxMsg →
    ((s.ivlen = 16 ∧ iv = s.iv.toList) ∨ (s.ivlen = 0 ∧ iv = List.replicate 16 0)) →
    c.length = s.inLen.toNat - s.inLen.toNat % 16 → InputIs c s →
    (s.cfg.strict = true → s.inLen.toNat % 16 = 0 ∧ (unpad (cbcDecrypt c iv (keySchedule s.key.toList))).2 = true) →
    ∃ t, exec .decrypt s = .next t ∧
      CompletesTo s t (keySchedule s.key.toList) (unpad (cbcDecrypt c iv (keySchedule s.key.toList))).1
        (successStatus s.status (decide (s.inLen.toNat % 16 ≠ 0))
          (!(unpad (cbcDecrypt c iv (keySchedule s.key.toList))).2)
          (unpad (cbcDecrypt c iv (keySchedule s.key.toList))).2)

/-- DECRYPT with PAD = 0 completes with the ECB decryption of the whole blocks `c` of the input, never setting PADOK or PADINV
(46_commands.md R261, 45_chaining_padding.md R227). -/
def Obligations.UnpaddedDecryptCompletes : Prop :=
  ∀ (s : State) (c : List Byte), s.cfg.pad = false → s.keylen = 16 → s.inLen.toNat ≤ s.params.maxMsg →
    (s.cfg.strict = true → s.inLen.toNat % 16 = 0) → c.length = s.inLen.toNat - s.inLen.toNat % 16 → InputIs c s →
    ∃ t, exec .decrypt s = .next t ∧
      CompletesTo s t (keySchedule s.key.toList) (ecbDecrypt c (keySchedule s.key.toList))
        (successStatus s.status (decide (s.inLen.toNat % 16 ≠ 0)) false false)

/-! ## Errors -/

/-- DECRYPT with PAD = 1 and STRICT = 1 whose decryption is not validly padded fails with INVALID_PADDING: RK holds the new
schedule, OUT_BUF[0 .. IN_LEN) has no specified value, the other bytes are not written, OUT_LEN = 0, every OUT_BUF byte reads
unspecified (46_commands.md R261, 60_exceptions.md R307). -/
def Obligations.StrictInvalidPaddingFails : Prop :=
  ∀ (s : State) (c iv : List Byte), s.cfg.pad = true → s.cfg.strict = true → s.keylen = 16 →
    s.inLen.toNat ≤ s.params.maxMsg → s.inLen.toNat % 16 = 0 →
    ((s.ivlen = 16 ∧ iv = s.iv.toList) ∨ (s.ivlen = 0 ∧ iv = List.replicate 16 0)) →
    c.length = s.inLen.toNat → InputIs c s →
    (unpad (cbcDecrypt c iv (keySchedule s.key.toList))).2 = false →
    ∃ t, exec .decrypt s = .next t ∧
      t = { s with rk := keySchedule s.key.toList, outBuf := t.outBuf, outLen := 0,
                   status := failureStatus s.status .invalidPadding, seq := .idle } ∧
      (∀ j, j < s.inLen.toNat → t.outBuf.read j = none) ∧
      (∀ j, s.inLen.toNat ≤ j → t.outBuf.read j = s.outBuf.read j) ∧
      (∀ j, outLane j t = none)

/-- The checks of Validate, in order: the first that fails is the one reported, and a command that fails one does nothing else;
when none fails, the only error left is INVALID_PADDING of a padded DECRYPT in strict mode, raised after decryption
(60_exceptions.md R302). -/
def Obligations.FirstFailingCheckIsReported : Prop :=
  (∀ (w : Word) (e : DecodeReject) (s : State), decode w = .error e →
    completionStep w s = .next (failedState .illegalCommand s)) ∧
  (∀ (i : Instr) (s : State),
    let tooLong := (i = .encBlock ∨ i = .decBlock ∨ i = .encrypt ∨ i = .decrypt) ∧ s.params.maxMsg < s.inLen.toNat
    let badKey := s.keylen ≠ 16
    let badIv := (i = .encrypt ∨ i = .decrypt) ∧ s.cfg.pad = true ∧ s.ivlen ≠ 0 ∧ s.ivlen ≠ 16
    let badBlock := (i = .encBlock ∨ i = .decBlock) ∧ s.inLen ≠ 16
    let truncated := s.cfg.strict = true ∧ s.inLen.toNat % 16 ≠ 0 ∧
      (i = .decrypt ∨ (i = .encrypt ∧ s.cfg.pad = false))
    i ≠ .nop →
      (tooLong → exec i s = .next (failedState .invalidLength s)) ∧
      (¬tooLong → badKey → exec i s = .next (failedState .invalidKeyLength s)) ∧
      (¬tooLong → ¬badKey → badIv → exec i s = .next (failedState .invalidIvLength s)) ∧
      (¬tooLong → ¬badKey → ¬badIv → badBlock → exec i s = .next (failedState .invalidBlockSize s)) ∧
      (¬tooLong → ¬badKey → ¬badIv → ¬badBlock → truncated → exec i s = .next (failedState .truncatedInput s)) ∧
      (¬tooLong → ¬badKey → ¬badIv → ¬badBlock → ¬truncated → ∀ t, exec i s = .next t → t.status.err = true →
        i = .decrypt ∧ s.cfg.pad = true ∧ s.cfg.strict = true ∧ t.status.errcode = .invalidPadding)) ∧
  (∀ s t : State, exec .nop s = .next t → t.status.err = false)

/-- A command whose checks pass faults with UninitRead exactly when one of the bytes it reads was never written since reset, and
goes on otherwise; the bytes read are IN_BUF[0..16) for the block commands, IN_BUF[0..IN_LEN) for a padded ENCRYPT and the whole
blocks of IN_BUF[0..IN_LEN) for an unpadded ENCRYPT and for DECRYPT; a command that fails in Validate reads none
(46_commands.md R263). -/
def Obligations.UnwrittenInputFaults : Prop :=
  ∀ (i : Instr) (s : State),
    let n := if i = .encBlock ∨ i = .decBlock then 16
      else if i = .encrypt ∧ s.cfg.pad = true then s.inLen.toNat
      else if i = .encrypt ∨ i = .decrypt then s.inLen.toNat - s.inLen.toNat % 16
      else 0
    (∀ c, validate i s = some c → ∃ t, exec i s = .next t) ∧
    (validate i s = none → (∃ k, k < n ∧ s.inBuf.read k = none) → exec i s = .fault .uninitRead) ∧
    (validate i s = none → (∀ k, k < n → s.inBuf.read k ≠ none) → ∃ t, exec i s = .next t)

/-- After reset, every command but NOP fails with INVALID_KEY_LENGTH, in any state that still has KEYLEN ≠ 16 and an IN_LEN that
fits; NOP succeeds (70_reset_and_hazards.md R342). -/
def Obligations.OnlyNopSucceedsBeforeKeylen : Prop :=
  State.reset.keylen ≠ 16 ∧ State.reset.inLen.toNat ≤ State.reset.params.maxMsg ∧
  ∀ (i : Instr) (s : State), s.keylen ≠ 16 → s.inLen.toNat ≤ s.params.maxMsg →
    ∃ t, exec i s = .next t ∧
      (i ≠ .nop → t = failedState .invalidKeyLength s) ∧ (i = .nop → t.status.err = false ∧ t.status.done = true)

/-! ## What a command leaves alone -/

/-- Frame of every command: a completion step changes nothing but RK, OUT_BUF, OUT_LEN, STATUS and the sequencer, so never KEY,
IV, IN_BUF, CFG, KEYLEN, IVLEN, IN_LEN or LASTCMD; it keeps WERR and sets DONE (20_memory.md R87, 60_exceptions.md R305). -/
def Obligations.CommandsNeverWriteInputs : Prop :=
  ∀ (i : Instr) (s t : State), exec i s = .next t →
    t = { s with rk := t.rk, outBuf := t.outBuf, outLen := t.outLen, status := t.status, seq := .idle } ∧
    t.status.werr = s.status.werr ∧ t.status.done = true

/-- RK is either kept or rewritten whole: a command that runs the key schedule leaves RK = KeySchedule(KEY), also when it fails
with INVALID_PADDING; NOP and a command that fails in Validate leave RK unchanged (10_state.md R43). -/
def Obligations.RoundKeysKeptOrRecomputed : Prop :=
  ∀ (i : Instr) (s t : State), exec i s = .next t →
    (i = .nop ∨ validate i s ≠ none → t.rk = s.rk) ∧
    (i ≠ .nop → validate i s = none → t.rk = keySchedule s.key.toList)

/-- Frame of OUT_BUF: NOP, KEYSCHED and a command that fails in Validate change no byte of it; a command that succeeds changes no
byte at OUT_LEN and above; one that fails with INVALID_PADDING none at IN_LEN and above (46_commands.md R252,
60_exceptions.md R307). -/
def Obligations.OutputBytesOutsideResultKept : Prop :=
  ∀ (i : Instr) (s t : State), paramsWf s.params = true → exec i s = .next t →
    (i = .nop ∨ i = .keysched ∨ validate i s ≠ none → ∀ a, t.outBuf.read a = s.outBuf.read a) ∧
    (t.status.err = false → ∀ a, t.outLen.toNat ≤ a → t.outBuf.read a = s.outBuf.read a) ∧
    (t.status.err = true → ∀ a, s.inLen.toNat - s.inLen.toNat % 16 ≤ a → t.outBuf.read a = s.outBuf.read a)

/-- No command reads the round keys an earlier command left: with any other RK before it, a command that runs the key schedule
does exactly the same, and any other command the same but for the RK it keeps (42_key_schedule.md R178). -/
def Obligations.OldRoundKeysNeverMatter : Prop :=
  ∀ (i : Instr) (s : State) (r : Vector Word 32),
    (i ≠ .nop → validate i s = none → exec i { s with rk := r } = exec i s) ∧
    (i = .nop ∨ validate i s ≠ none → ∀ t, exec i s = .next t → exec i { s with rk := r } = .next { t with rk := r })

/-- What a command does not read never matters: CFG, IVLEN and IV for the block commands, these and IN_LEN and IN_BUF for
KEYSCHED, IVLEN and IV for the message commands with PAD = 0 (30_encoding.md R113, 46_commands.md R256, R257). Nor do BASE,
BUS_PROTOCOL and ADDR_BITS matter to any step, whatever their values: of the parameters of 00_scope.md R8 only MAX_MSG does
(92_eei_decisions.md D2, D4). -/
def Obligations.UnreadOperandsNeverMatter : Prop :=
  ∀ (s : State) (v : Vector Byte 16) (l : BitVec 8) (c : Cfg) (n : Word) (m : Memory),
    (∀ t, exec .keysched s = .next t →
      exec .keysched { s with iv := v, ivlen := l, cfg := c, inLen := n, inBuf := m } =
        .next { t with iv := v, ivlen := l, cfg := c, inLen := n, inBuf := m }) ∧
    (∀ i, i = .encBlock ∨ i = .decBlock →
      (∀ t, exec i s = .next t → exec i { s with iv := v, ivlen := l, cfg := c } =
        .next { t with iv := v, ivlen := l, cfg := c }) ∧
      (exec i s = .fault .uninitRead → exec i { s with iv := v, ivlen := l, cfg := c } = .fault .uninitRead)) ∧
    (∀ i, i = .encrypt ∨ i = .decrypt → s.cfg.pad = false →
      (∀ t, exec i s = .next t → exec i { s with iv := v, ivlen := l } = .next { t with iv := v, ivlen := l }) ∧
      (exec i s = .fault .uninitRead → exec i { s with iv := v, ivlen := l } = .fault .uninitRead)) ∧
    (∀ p : Params, p.maxMsg = s.params.maxMsg →
      (∀ t, step s = .next t → step { s with params := p } = .next { t with params := p }) ∧
      (∀ f, step s = .fault f → step { s with params := p } = .fault f))

/-- The bytes that truncation drops never matter: with any other IN_BUF that agrees on the whole blocks of the input, an unpadded
ENCRYPT and a DECRYPT do the same (45_chaining_padding.md R228). -/
def Obligations.DroppedBytesNeverMatter : Prop :=
  ∀ (i : Instr) (s : State) (m : Memory), (i = .encrypt ∧ s.cfg.pad = false) ∨ i = .decrypt →
    (∀ k, k < s.inLen.toNat - s.inLen.toNat % 16 → m.read k = s.inBuf.read k) →
    (∀ t, exec i s = .next t → exec i { s with inBuf := m } = .next { t with inBuf := m }) ∧
    (exec i s = .fault .uninitRead → exec i { s with inBuf := m } = .fault .uninitRead)

/-! ## The bus -/

/-- A transaction of 1, 2 or 4 bytes gets the bus error exactly when it is misaligned, a narrow access to the register region, or
touches an unmapped byte; the fault names the offset and the number of bytes (20_memory.md R72, R77, R78). For every legal
MAX_MSG, on which the map depends (00_scope.md R8). -/
def Obligations.BusErrorsExactlyWhere : Prop :=
  ∀ (a : Nat) (w : Width) (v : Word) (s : State), paramsWf s.params = true →
    (w.bytes = 1 ∨ w.bytes = 2 ∨ w.bytes = 4) ∧
    let bad := a % w.bytes ≠ 0 ∨ (a < 0x100 ∧ w.bytes ≠ 4) ∨ ∃ j, j < w.bytes ∧ ¬ MappedByte s.params (a + j)
    (bad → memRead a w s = .error (.busError a w.bytes) ∧ memWrite a w v s = .error (.busError a w.bytes)) ∧
    (¬bad → (∃ d, memRead a w s = .ok d) ∧ (∃ t, memWrite a w v s = .ok t))

/-- A bus error changes no state of the core, WERR included: the host records it, and a read's `rd` is unspecified
(20_memory.md R76, 60_exceptions.md R304). That the host then goes on with its next line, and that the draw counter moves by 4, is
the model's choice (logs 4, 6). -/
def Obligations.BusErrorChangesNoCoreState : Prop :=
  ∀ (a : Nat) (w : Width) (v : Word) (s : State) (f : Fault),
    (memWrite a w v s = .error f →
      f = .busError a w.bytes ∧
      hostWrite a w v s = { s with host := { s.host with responses := .raised f :: s.host.responses,
                                                         line := s.host.line + 1 } }) ∧
    (memRead a w s = .error f →
      f = .busError a w.bytes ∧
      ∃ d, hostRead a w s = { s with host := { s.host with responses := .raised f :: s.host.responses,
                                                           line := s.host.line + 1, rd := d },
                                     draws := s.draws + 4 })

/-- What a 32-bit read of each register gives, at the offsets of the register map: LASTCMD at CMD, reserved bits 0, KEY and IV in
little-endian lanes; OUT_LEN and RK when the core is not busy (20_memory.md R71, R73, R75). The offsets count from BASE: the host
reaches each at the address BASE + offset of its own space, wherever BASE is, and an address outside the window of 2^ADDR_BITS
bytes is no transaction of the core (20_memory.md R70, 00_scope.md R8). -/
def Obligations.RegisterReads : Prop :=
  ∀ s : State,
    memRead 0x000 .w32 s = .ok 0x5EED0128 ∧ memRead 0x004 .w32 s = .ok s.lastcmd ∧
    memRead 0x008 .w32 s = .ok (s.status.word s.busy) ∧ memRead 0x00C .w32 s = .ok s.cfg.word ∧
    memRead 0x010 .w32 s = .ok (s.keylen.setWidth 32) ∧ memRead 0x014 .w32 s = .ok (s.ivlen.setWidth 32) ∧
    memRead 0x018 .w32 s = .ok s.inLen ∧ (s.busy = false → memRead 0x01C .w32 s = .ok s.outLen) ∧
    (∀ n : Fin 4, memRead (0x020 + 4 * n.val) .w32 s =
      .ok ((s.key[4 * n.val]).setWidth 32 ||| (s.key[4 * n.val + 1]).setWidth 32 <<< 8 |||
        (s.key[4 * n.val + 2]).setWidth 32 <<< 16 ||| (s.key[4 * n.val + 3]).setWidth 32 <<< 24)) ∧
    (∀ n : Fin 4, memRead (0x030 + 4 * n.val) .w32 s =
      .ok ((s.iv[4 * n.val]).setWidth 32 ||| (s.iv[4 * n.val + 1]).setWidth 32 <<< 8 |||
        (s.iv[4 * n.val + 2]).setWidth 32 <<< 16 ||| (s.iv[4 * n.val + 3]).setWidth 32 <<< 24)) ∧
    (s.busy = false → ∀ n : Fin 32, memRead (0x080 + 4 * n.val) .w32 s = .ok s.rk[n]) ∧
    (∀ (a : Nat) (w : Width) (v : Word), a < 2 ^ s.params.addrBits →
      memReadAt (s.params.base + a) w s = some (memRead a w s) ∧
      memWriteAt (s.params.base + a) w v s = some (memWrite a w v s)) ∧
    (∀ (x : Nat) (w : Width) (v : Word), x < s.params.base ∨ s.params.base + 2 ^ s.params.addrBits ≤ x →
      memReadAt x w s = none ∧ memWriteAt x w v s = none)

/-- The fields of the STATUS and CFG words: each flag in its bit, ERRCODE in bits 11:8, the reserved bits 0
(10_state.md R33, R36; 20_memory.md R80); and the number of each of the eight error codes (60_exceptions.md R301). -/
def Obligations.StatusAndCfgWordLayout : Prop :=
  (ErrorCode.noError.number = 0 ∧ ErrorCode.invalidKeyLength.number = 1 ∧ ErrorCode.invalidBlockSize.number = 2 ∧
    ErrorCode.truncatedInput.number = 3 ∧ ErrorCode.invalidPadding.number = 4 ∧ ErrorCode.invalidIvLength.number = 5 ∧
    ErrorCode.invalidLength.number = 6 ∧ ErrorCode.illegalCommand.number = 7) ∧
  (∀ (st : Status) (busy : Bool),
    (st.word busy).getLsbD 0 = busy ∧ (st.word busy).getLsbD 1 = st.done ∧ (st.word busy).getLsbD 2 = st.err ∧
    (st.word busy).getLsbD 3 = st.trunc ∧ (st.word busy).getLsbD 4 = st.padinv ∧ (st.word busy).getLsbD 5 = st.padok ∧
    (st.word busy).getLsbD 6 = st.werr ∧ (st.word busy).getLsbD 7 = false ∧
    (st.word busy).extractLsb' 8 4 = st.errcode.number ∧ (st.word busy).extractLsb' 12 20 = 0) ∧
  (∀ c : Cfg, c.word.getLsbD 0 = c.pad ∧ c.word.getLsbD 1 = c.strict ∧ c.word.getLsbD 2 = c.ie ∧
    c.word.extractLsb' 3 29 = 0)

/-- Writes to the read-only locations have no effect and the "okay" response, busy or not, and set no WERR: ID, OUT_LEN, every RK
register, every byte of OUT_BUF, and the bits of STATUS but 1 and 6 (20_memory.md R79). -/
def Obligations.ReadOnlyWritesHaveNoEffect : Prop :=
  ∀ (s : State) (v : Word), paramsWf s.params = true →
    memWrite 0x000 .w32 v s = .ok s ∧ memWrite 0x01C .w32 v s = .ok s ∧
    (∀ n : Fin 32, memWrite (0x080 + 4 * n.val) .w32 v s = .ok s) ∧
    (∀ (k : Nat) (w : Width), k % w.bytes = 0 → k + w.bytes ≤ s.params.maxMsg + 16 →
      memWrite (0x20000 + k) w v s = .ok s) ∧
    (∃ t, memWrite 0x008 .w32 v s = .ok t ∧
      t = { s with status := { s.status with done := t.status.done, werr := t.status.werr } } ∧
      (t.status.werr = true → s.status.werr = true) ∧ (t.status.done = true → s.status.done = true))

/-- A write to STATUS is always performed, busy or not: 1 in bit 1 clears DONE, 1 in bit 6 clears WERR, all other bits are ignored
(10_state.md R34). -/
def Obligations.StatusWriteOneToClears : Prop :=
  ∀ (s : State) (v : Word),
    memWrite 0x008 .w32 v s =
      .ok { s with status := { s.status with done := if v.getLsbD 1 then false else s.status.done
                                             werr := if v.getLsbD 6 then false else s.status.werr } }

/-- While BUSY = 1 a write to CMD, CFG, KEYLEN, IVLEN, IN_LEN, KEY, IV or IN_BUF is ignored and sets WERR, and changes nothing
else: a CMD write is not queued; writes to STATUS are performed and writes to read-only locations have no effect
(20_memory.md R83). -/
def Obligations.BusyWritesAreIgnored : Prop :=
  ∀ (s : State) (v : Word), paramsWf s.params = true → s.busy = true →
    let ignored : Except Fault State := .ok { s with status := { s.status with werr := true } }
    memWrite 0x004 .w32 v s = ignored ∧ memWrite 0x00C .w32 v s = ignored ∧ memWrite 0x010 .w32 v s = ignored ∧
    memWrite 0x014 .w32 v s = ignored ∧ memWrite 0x018 .w32 v s = ignored ∧
    (∀ n : Fin 8, memWrite (0x020 + 4 * n.val) .w32 v s = ignored) ∧
    (∀ (k : Nat) (w : Width), k % w.bytes = 0 → k + w.bytes ≤ s.params.maxMsg →
      memWrite (0x10000 + k) w v s = ignored) ∧
    (∃ t, memWrite 0x008 .w32 v s = .ok t ∧ t.status.werr = (s.status.werr && !v.getLsbD 6) ∧
      t.status.done = (s.status.done && !v.getLsbD 1)) ∧
    memWrite 0x000 .w32 v s = .ok s ∧ memWrite 0x01C .w32 v s = .ok s ∧
    (∀ n : Fin 32, memWrite (0x080 + 4 * n.val) .w32 v s = .ok s) ∧
    (∀ (k : Nat) (w : Width), k % w.bytes = 0 → k + w.bytes ≤ s.params.maxMsg + 16 →
      memWrite (0x20000 + k) w v s = .ok s)

/-- Acceptance: a CMD write of any word while Idle stores LASTCMD, makes the sequencer Busy with the word, clears DONE, ERR,
ERRCODE, TRUNC, PADINV and PADOK and leaves WERR; while Busy it is ignored and sets WERR (46_commands.md R250). -/
def Obligations.CommandWriteIsAccepted : Prop :=
  ∀ (s : State) (w : Word),
    (s.seq = .idle → memWrite 0x004 .w32 w s =
      .ok { s with lastcmd := w, seq := .busy w,
                   status := { done := false, err := false, trunc := false, padinv := false, padok := false,
                               werr := s.status.werr, errcode := .noError } }) ∧
    (∀ w', s.seq = .busy w' → memWrite 0x004 .w32 w s = .ok { s with status := { s.status with werr := true } })

/-- Writes to CFG, KEYLEN, IVLEN and IN_LEN while not busy store their fields, drop the reserved bits and change nothing else
(10_state.md R36–R39, 20_memory.md R80). -/
def Obligations.LengthAndConfigWrites : Prop :=
  ∀ (s : State) (v : Word), s.busy = false →
    memWrite 0x00C .w32 v s =
      .ok { s with cfg := { pad := v.getLsbD 0, strict := v.getLsbD 1, ie := v.getLsbD 2 } } ∧
    memWrite 0x010 .w32 v s = .ok { s with keylen := v.extractLsb' 0 8 } ∧
    memWrite 0x014 .w32 v s = .ok { s with ivlen := v.extractLsb' 0 8 } ∧
    memWrite 0x018 .w32 v s = .ok { s with inLen := v }

/-- A write to KEY_Wn or IV_Wn while not busy stores byte 4n+j from bits 8j+7:8j, leaves the other twelve bytes and everything else
alone, and reads back as written (10_state.md R41, R42; 20_memory.md R73). -/
def Obligations.KeyAndIvWrites : Prop :=
  ∀ (s : State) (v : Word) (n : Fin 4), s.busy = false →
    (∃ t, memWrite (0x020 + 4 * n.val) .w32 v s = .ok t ∧ t = { s with key := t.key } ∧
      (∀ j : Fin 16, t.key[j] = if j.val / 4 = n.val then v.extractLsb' (8 * (j.val % 4)) 8 else s.key[j]) ∧
      memRead (0x020 + 4 * n.val) .w32 t = .ok v) ∧
    (∃ t, memWrite (0x030 + 4 * n.val) .w32 v s = .ok t ∧ t = { s with iv := t.iv } ∧
      (∀ j : Fin 16, t.iv[j] = if j.val / 4 = n.val then v.extractLsb' (8 * (j.val % 4)) 8 else s.iv[j]) ∧
      memRead (0x030 + 4 * n.val) .w32 t = .ok v)

/-- A write to IN_BUF while not busy, of any width, stores byte k+j from bits 8j+7:8j, which becomes written, leaves every other
byte and everything else alone, and each byte reads back alone whatever width wrote it (10_state.md R44, 20_memory.md R89). -/
def Obligations.InputBufferWrites : Prop :=
  ∀ (s : State) (v : Word) (k : Nat) (w : Width), s.busy = false → k % w.bytes = 0 → k + w.bytes ≤ s.params.maxMsg →
    ∃ t, memWrite (0x10000 + k) w v s = .ok t ∧ t = { s with inBuf := t.inBuf } ∧
      (∀ j, j < w.bytes → t.inBuf.read (k + j) = some (v.extractLsb' (8 * j) 8) ∧
        memRead (0x10000 + (k + j)) .w8 t = .ok ((v.extractLsb' (8 * j) 8).setWidth 32)) ∧
      (∀ x, x < k ∨ k + w.bytes ≤ x → t.inBuf.read x = s.inBuf.read x)

/-- A read of IN_BUF, busy or not: each lane is the byte the host wrote there, or a free draw where it wrote none since reset; the
lanes above the width are 0 (20_memory.md R73, R85). -/
def Obligations.InputBufferReads : Prop :=
  ∀ (s : State) (k : Nat) (w : Width), k % w.bytes = 0 → k + w.bytes ≤ s.params.maxMsg →
    ∃ d, memRead (0x10000 + k) w s = .ok d ∧
      (∀ j b, j < w.bytes → s.inBuf.read (k + j) = some b → d.extractLsb' (8 * j) 8 = b) ∧
      (∀ j, j < w.bytes → s.inBuf.read (k + j) = none → d.extractLsb' (8 * j) 8 = Config.freeByte (s.draws + j)) ∧
      (∀ j, w.bytes ≤ j → j < 4 → d.extractLsb' (8 * j) 8 = 0)

/-- While BUSY = 1, a read of OUT_LEN, of any RK register or of any OUT_BUF byte gives free draws, and reads of every other location
give its current value (20_memory.md R84). -/
def Obligations.ReadsWhileBusyAreFree : Prop :=
  ∀ s : State, paramsWf s.params = true → s.busy = true →
    (∃ d, memRead 0x01C .w32 s = .ok d ∧ ∀ j, j < 4 → d.extractLsb' (8 * j) 8 = Config.freeByte (s.draws + j)) ∧
    (∀ n : Fin 32, ∃ d, memRead (0x080 + 4 * n.val) .w32 s = .ok d ∧
      ∀ j, j < 4 → d.extractLsb' (8 * j) 8 = Config.freeByte (s.draws + j)) ∧
    (∀ (k : Nat) (w : Width), k % w.bytes = 0 → k + w.bytes ≤ s.params.maxMsg + 16 →
      ∃ d, memRead (0x20000 + k) w s = .ok d ∧
        ∀ j, j < w.bytes → d.extractLsb' (8 * j) 8 = Config.freeByte (s.draws + j)) ∧
    (∀ r : Reg, r ≠ .outLen → (∀ n, r ≠ .rk n) → memRead (offsetOf r) .w32 s = .ok (readReg r s)) ∧
    (∀ (k : Nat) (b : Byte), k < s.params.maxMsg → s.inBuf.read k = some b →
      memRead (0x10000 + k) .w8 s = .ok (b.setWidth 32))

/-- A read of OUT_BUF while not busy, in a consistent state: a free draw at OUT_LEN and above, when the last completed command
failed, and, in the state after reset, everywhere; otherwise the byte the last completion step wrote (20_memory.md R86). -/
def Obligations.OutputBufferReads : Prop :=
  ∀ (s : State) (k : Nat) (w : Width), s.Consistent → s.busy = false → k % w.bytes = 0 →
    k + w.bytes ≤ s.params.maxMsg + 16 →
    ∃ d, memRead (0x20000 + k) w s = .ok d ∧
      (∀ j, j < w.bytes → s.outLen.toNat ≤ k + j ∨ s.status.err = true ∨ s.outBuf = [] →
        d.extractLsb' (8 * j) 8 = Config.freeByte (s.draws + j)) ∧
      (∀ j, j < w.bytes → k + j < s.outLen.toNat →
        ∃ b, s.outBuf.read (k + j) = some b ∧ d.extractLsb' (8 * j) 8 = b)

/-- A read changes no state of the core: only the host's record of it and the model's draw counter move (20_memory.md R75, R81). The
counter moves past every draw the read can have taken, by its width after an okay read and by 4 after a bus error, so that each
unspecified read draws afresh (20_memory.md R84; the counter is the model's, logs 4 and 6). That the host goes on with its next
line, after a bus error too, is the model's choice (log 4). -/
def Obligations.ReadsChangeNoCoreState : Prop :=
  ∀ (a : Nat) (w : Width) (s : State), ∃ h,
    ((∃ d, memRead a w s = .ok d) → hostRead a w s = { s with host := h, draws := s.draws + w.bytes }) ∧
    ((∃ f, memRead a w s = .error f) → hostRead a w s = { s with host := h, draws := s.draws + 4 }) ∧
    h.script = s.host.script ∧ h.failed = s.host.failed ∧ h.line = s.host.line + 1

/-! ## The agents -/

/-- A turn of the host never writes RK, OUT_BUF or OUT_LEN, and while Busy it writes nothing of the core but DONE and WERR, so that a
command's inputs cannot change between acceptance and completion (20_memory.md R79, R82, R83). -/
def Obligations.HostTurnKeepsOutputsAndBusyInputs : Prop :=
  ∀ s : State,
    (hostTurn s).rk = s.rk ∧ (hostTurn s).outBuf = s.outBuf ∧ (hostTurn s).outLen = s.outLen ∧
    (s.busy = true → ∃ dn we h d,
      hostTurn s = { s with status := { s.status with done := dn, werr := we }, host := h, draws := d })

/-- WERR is sticky: a step clears it only if it is a reset or a host write of 1 to bit 6 of STATUS
(10_state.md R33, 60_exceptions.md R305). -/
def Obligations.WerrIsSticky : Prop :=
  ∀ s t : State, step s = .next t → s.status.werr = true → t.status.werr = false →
    (nextTurn s).1 = .reset ∨
    ((nextTurn s).1 = .host ∧ ∃ v : Word, s.host.script[s.host.line]? = some (.wr32 0x008 v) ∧ v.getLsbD 6 = true)

/-- The interrupt output: IRQ = IE and DONE; cleared by writing 1 to DONE and by the acceptance of a command, masked without
clearing DONE by clearing IE, and raised by every completion when IE = 1, failed or not, that of an illegal word too
(60_exceptions.md R310, 10_state.md R47). -/
def Obligations.InterruptOutput : Prop :=
  (∀ s : State, s.irq = (s.cfg.ie && s.status.done)) ∧
  (∀ (s t : State) (v : Word), v.getLsbD 1 = true → memWrite 0x008 .w32 v s = .ok t → t.irq = false) ∧
  (∀ (s t : State) (w : Word), s.busy = false → memWrite 0x004 .w32 w s = .ok t → t.irq = false) ∧
  (∀ (s t : State) (v : Word), s.busy = false → v.getLsbD 2 = false → memWrite 0x00C .w32 v s = .ok t →
    t.irq = false ∧ t.status.done = s.status.done) ∧
  (∀ (w : Word) (s t : State), completionStep w s = .next t → t.irq = s.cfg.ie)

/-- The lines of a host script: a write is one MemWrite, a read one MemRead whose data becomes `rd`, BNZ and BZ branch on `rd & m`,
EXPECT stops the script with failure when `rd` differs; a host that has failed, or is past its script, does nothing
(30_encoding.md R115). R115 says of RD32 alone that its data goes to `rd`; that RD16 and RD8 put theirs there too, zero-extended, is
the model's choice (log 3). -/
def Obligations.ScriptLines : Prop :=
  (∀ (s s' : State) (a : Nat) (w : Width) (v : Word), memWrite a w v s = .ok s' →
    ∃ h, hostWrite a w v s = { s' with host := h } ∧ h.line = s'.host.line + 1 ∧ h.rd = s'.host.rd) ∧
  (∀ (s : State) (a : Nat) (w : Width) (d : Word), memRead a w s = .ok d →
    (hostRead a w s).host.rd = d ∧ (hostRead a w s).host.line = s.host.line + 1) ∧
  (∀ (s : State) (i : ScriptInstr), s.host.failed = false → s.host.script[s.host.line]? = some i →
    hostTurn s =
      match i with
      | .wr32 a v => hostWrite a .w32 v s
      | .wr16 a v => hostWrite a .w16 (v.setWidth 32) s
      | .wr8 a v => hostWrite a .w8 (v.setWidth 32) s
      | .rd32 a => hostRead a .w32 s
      | .rd16 a => hostRead a .w16 s
      | .rd8 a => hostRead a .w8 s
      | .bnz m n => { s with host := { s.host with line := if s.host.rd &&& m = 0 then s.host.line + 1 else n } }
      | .bz m n => { s with host := { s.host with line := if s.host.rd &&& m = 0 then n else s.host.line + 1 } }
      | .expect v => if s.host.rd = v then { s with host := { s.host with line := s.host.line + 1 } }
          else { s with host := { s.host with failed := true } }) ∧
  (∀ s : State, s.host.failed = true ∨ s.host.script[s.host.line]? = none → hostTurn s = s)

/-- LDKEY k and LDIV v, expanded anywhere in a script, load KEY and KEYLEN = 16, or IV and IVLEN = 16, in five steps of an idle core,
and change nothing else of the core (30_encoding.md R117). That an empty schedule gives every one of these steps to the host is the
model's choice (log 1). -/
def Obligations.LoadKeyScript : Prop :=
  ∀ (s : State) (k : Vector Byte 16) (before after : List ScriptInstr),
    s.seq = .idle → s.sched = [] → s.host.failed = false → s.host.line = before.length →
    (s.host.script = before ++ expand before.length (.ldkey k) ++ after →
      ∃ h, core.run 5 s = .next { s with key := k, keylen := 16, host := h } ∧ h.line = before.length + 5 ∧
        h.script = s.host.script ∧ h.failed = false) ∧
    (s.host.script = before ++ expand before.length (.ldiv k) ++ after →
      ∃ h, core.run 5 s = .next { s with iv := k, ivlen := 16, host := h } ∧ h.line = before.length + 5 ∧
        h.script = s.host.script ∧ h.failed = false)

/-- LDIN d, expanded anywhere in a script, loads the bytes of `d` into IN_BUF and its length into IN_LEN on an idle core, writes up
to three zero bytes after `d`, and changes nothing else of the core (30_encoding.md R117). That an empty schedule gives every one of
these steps to the host, so that there are as many as lines, is the model's choice (log 1). -/
def Obligations.LoadInputScript : Prop :=
  ∀ (s : State) (d : List Byte) (before after : List ScriptInstr), paramsWf s.params = true →
    d.length ≤ s.params.maxMsg → s.seq = .idle → s.sched = [] → s.host.failed = false → s.host.line = before.length →
    s.host.script = before ++ expand before.length (.ldin d) ++ after →
    ∃ m h, core.run ((d.length + 3) / 4 + 1) s =
        .next { s with inBuf := m, inLen := BitVec.ofNat 32 d.length, host := h } ∧
      (∀ j, j < d.length → m.read j = some (d.getD j 0)) ∧
      (∀ j, d.length ≤ j → j < 4 * ((d.length + 3) / 4) → m.read j = some 0) ∧
      (∀ j, 4 * ((d.length + 3) / 4) ≤ j → m.read j = s.inBuf.read j)

/-- A command in flight completes as soon as the schedule lets it: after any number of host turns and one more step, the core is
idle with DONE = 1. An illegal word always does, with ILLEGAL_COMMAND; a command does when it fails in Validate or every byte it
reads was written when the host's turns began, and faults with UninitRead when neither holds
(46_commands.md R253, R262, R263; the schedule is the model's, log 1). -/
def Obligations.CommandCompletesOnceScheduled : Prop :=
  ∀ (s : State) (w : Word) (k : Nat), s.seq = .busy w → s.sched = List.replicate k .host →
    (∀ e, decode w = .error e → ∃ t, core.run (k + 1) s = .next t ∧ t.seq = .idle ∧ t.status.done = true ∧
      t.status.err = true ∧ t.status.errcode = .illegalCommand) ∧
    (∀ i, decode w = .ok i →
      (inputReady i s = true → ∃ t, core.run (k + 1) s = .next t ∧ t.seq = .idle ∧ t.status.done = true) ∧
      (inputReady i s = false → core.run (k + 1) s = .fault .uninitRead))

/-! ## The cipher -/

/-- The word and block views: byte_at, swap_endian (byte reversal, its own inverse), le32, be32 and be32bytes, and xor16 as the
exclusive-or of the words (40_word_utilities.md R140, R141, R142, R146). -/
def Obligations.WordAndBlockViews : Prop :=
  (∀ (w : Word) (n : Nat), n < 4 → (byteAt w n).setWidth 32 = (w >>> (8 * n)) &&& 0xFF) ∧
  (∀ w : Word, (∀ n, n < 4 → byteAt (swapEndian w) n = byteAt w (3 - n)) ∧ swapEndian (swapEndian w) = w) ∧
  (∀ b : Byte, swapEndian (wordOf b b b b) = wordOf b b b b) ∧ swapEndian 0x03020100 = 0x00010203 ∧
  (∀ (s : List Byte) (o : Nat), be32 s o = swapEndian (le32 s o) ∧
    be32 s o = (s.getD o 0).setWidth 32 <<< 24 ||| (s.getD (o + 1) 0).setWidth 32 <<< 16 |||
      (s.getD (o + 2) 0).setWidth 32 <<< 8 ||| (s.getD (o + 3) 0).setWidth 32 ∧
    le32 s o = (s.getD o 0).setWidth 32 ||| (s.getD (o + 1) 0).setWidth 32 <<< 8 |||
      (s.getD (o + 2) 0).setWidth 32 <<< 16 ||| (s.getD (o + 3) 0).setWidth 32 <<< 24) ∧
  (∀ w : Word, be32 (be32bytes w) 0 = w ∧ be32bytes w = [byteAt w 3, byteAt w 2, byteAt w 1, byteAt w 0]) ∧
  (∀ x y : List Byte, x.length = 16 → y.length = 16 → (xor16 x y).length = 16 ∧
    (∀ i, i < 16 → (xor16 x y).getD i 0 = x.getD i 0 ^^^ y.getD i 0) ∧
    (∀ k, k < 4 → be32 (xor16 x y) (4 * k) = be32 x (4 * k) ^^^ be32 y (4 * k)))

/-- The rotations of the key schedule: type 0, after an odd round, rotates the 64-bit A || B right by 8 and leaves C and D; type 1,
after an even round before the last, rotates C || D left by 8 and leaves A and B (42_key_schedule.md R175, R176). -/
def Obligations.KeyRotations : Prop :=
  (∀ x : KeyWords, ((rotateAB x).a ++ (rotateAB x).b : BitVec 64) = (x.a ++ x.b : BitVec 64).rotateRight 8 ∧
    (rotateAB x).a = (x.a >>> 8) ^^^ (x.b <<< 24) ∧ (rotateAB x).b = (x.b >>> 8) ^^^ (x.a <<< 24) ∧
    (rotateAB x).c = x.c ∧ (rotateAB x).d = x.d) ∧
  (∀ x : KeyWords, ((rotateCD x).c ++ (rotateCD x).d : BitVec 64) = (x.c ++ x.d : BitVec 64).rotateLeft 8 ∧
    (rotateCD x).c = (x.c <<< 8) ^^^ (x.d >>> 24) ∧ (rotateCD x).d = (x.d <<< 8) ^^^ (x.c >>> 24) ∧
    (rotateCD x).a = x.a ∧ (rotateCD x).b = x.b) ∧
  (∀ (i : Nat) (x : KeyWords), i < 16 → rotateAfter i x = if i % 2 = 1 then rotateAB x else rotateCD x) ∧
  rotateAB { a := 0x00010203, b := 0x04050607, c := 0, d := 0 } = { a := 0x07000102, b := 0x03040506, c := 0, d := 0 } ∧
  rotateCD { a := 0, b := 0, c := 0x08090A0B, d := 0x0C0D0E0F } = { a := 0, b := 0, c := 0x090A0B0C, d := 0x0D0E0F08 }

/-- Every key's schedule, word by word: round r + 1 emits G(A + C - KC[r]) and G(B + KC[r] - D) for the words that the rotations of
the first r rounds left; in round 16 A and B are the key's own and C || D has been rotated left by 56 bits
(42_key_schedule.md R172–R177). -/
def Obligations.KeyScheduleWords : Prop :=
  ∀ k : List Byte,
    (∀ r, r < 16 →
      rkWord (keySchedule k) (2 * r) =
        gFun ((keyWordsAfter (keyView k) r).a + (keyWordsAfter (keyView k) r).c - kc r) ∧
      rkWord (keySchedule k) (2 * r + 1) =
        gFun ((keyWordsAfter (keyView k) r).b + kc r - (keyWordsAfter (keyView k) r).d)) ∧
    (keyWordsAfter (keyView k) 15).a = (keyView k).a ∧ (keyWordsAfter (keyView k) 15).b = (keyView k).b ∧
    ((keyWordsAfter (keyView k) 15).c ++ (keyWordsAfter (keyView k) 15).d : BitVec 64) =
      ((keyView k).c ++ (keyView k).d : BitVec 64).rotateLeft 56

/-- The schedules of the all-zero key and of the keys of one repeated byte: no rotation changes them; the all-zero key gives
G(-KC[r]) and G(KC[r]), the all-0xFF key the same odd words and other even words; and no key is rejected
(42_key_schedule.md R179). -/
def Obligations.RepeatedByteKeys : Prop :=
  (∀ b : Byte, rotateAB (keyView (List.replicate 16 b)) = keyView (List.replicate 16 b) ∧
    rotateCD (keyView (List.replicate 16 b)) = keyView (List.replicate 16 b)) ∧
  (∀ r, r < 16 → rkWord (keySchedule (List.replicate 16 0)) (2 * r) = gFun (0 - kc r) ∧
    rkWord (keySchedule (List.replicate 16 0)) (2 * r + 1) = gFun (kc r) ∧
    rkWord (keySchedule (List.replicate 16 0xFF)) (2 * r) = gFun (0xFFFFFFFE - kc r) ∧
    rkWord (keySchedule (List.replicate 16 0xFF)) (2 * r + 1) = rkWord (keySchedule (List.replicate 16 0)) (2 * r + 1) ∧
    rkWord (keySchedule (List.replicate 16 0xFF)) (2 * r) ≠ rkWord (keySchedule (List.replicate 16 0)) (2 * r)) ∧
  (∀ s : State, s.keylen = 16 → ∃ t, exec .keysched s = .next t ∧ t.status.err = false)

/-- F reads R and K only through R0 ^ K0 and R1 ^ K1, with the worked values of 43_round_function.md R190 and R193. -/
def Obligations.FeistelReadsOnlyXor : Prop :=
  (∀ r0 r1 k0 k1 d0 d1 : Word, feistel (r0 ^^^ d0) (r1 ^^^ d1) (k0 ^^^ d0) (k1 ^^^ d1) = feistel r0 r1 k0 k1) ∧
  feistel 0 0 0 0 = (0xAB30A730, 0xF456F057) ∧
  feistel 0xFFFFFFFF 0xFFFFFFFF 0xFFFFFFFF 0xFFFFFFFF = (0xAB30A730, 0xF456F057) ∧
  feistel 0 0 0xC119F584 0x5AE033A0 = (0x9D8DB62C, 0x911F0C19)

/-- The inverse law: for every 16-byte block and every 32 round-key words, whether or not they come from a key, decryption undoes
encryption and encryption undoes decryption (44_block_cipher.md R203). -/
def Obligations.BlockInverseLaw : Prop :=
  ∀ (b : List Byte) (rk : Vector Word 32), b.length = 16 →
    decryptBlock (encryptBlock b rk) rk = b ∧ encryptBlock (decryptBlock b rk) rk = b

/-- The reference vectors and the checks of the tables: RFC 4269's four vectors, both ways; S1 and S2 are permutations of the
bytes; the sums of the four word tables (95_test_vectors.md L1.2, L2.2). -/
def Obligations.ReferenceVectorsAndTables : Prop :=
  (let rk := keySchedule (List.replicate 16 0)
   let p : List Byte := [0x00, 0x01, 0x02, 0x03, 0x04, 0x05, 0x06, 0x07, 0x08, 0x09, 0x0A, 0x0B, 0x0C, 0x0D, 0x0E, 0x0F]
   let c : List Byte := [0x5E, 0xBA, 0xC6, 0xE0, 0x05, 0x4E, 0x16, 0x68, 0x19, 0xAF, 0xF1, 0xCC, 0x6D, 0x34, 0x6C, 0xDB]
   encryptBlock p rk = c ∧ decryptBlock c rk = p) ∧
  (let rk := keySchedule [0x00, 0x01, 0x02, 0x03, 0x04, 0x05, 0x06, 0x07, 0x08, 0x09, 0x0A, 0x0B, 0x0C, 0x0D, 0x0E, 0x0F]
   let p : List Byte := List.replicate 16 0
   let c : List Byte := [0xC1, 0x1F, 0x22, 0xF2, 0x01, 0x40, 0x50, 0x50, 0x84, 0x48, 0x35, 0x97, 0xE4, 0x37, 0x0F, 0x43]
   encryptBlock p rk = c ∧ decryptBlock c rk = p) ∧
  (let rk := keySchedule [0x47, 0x06, 0x48, 0x08, 0x51, 0xE6, 0x1B, 0xE8, 0x5D, 0x74, 0xBF, 0xB3, 0xFD, 0x95, 0x61, 0x85]
   let p : List Byte := [0x83, 0xA2, 0xF8, 0xA2, 0x88, 0x64, 0x1F, 0xB9, 0xA4, 0xE9, 0xA5, 0xCC, 0x2F, 0x13, 0x1C, 0x7D]
   let c : List Byte := [0xEE, 0x54, 0xD1, 0x3E, 0xBC, 0xAE, 0x70, 0x6D, 0x22, 0x6B, 0xC3, 0x14, 0x2C, 0xD4, 0x0D, 0x4A]
   encryptBlock p rk = c ∧ decryptBlock c rk = p) ∧
  (let rk := keySchedule [0x28, 0xDB, 0xC3, 0xBC, 0x49, 0xFF, 0xD8, 0x7D, 0xCF, 0xA5, 0x09, 0xB1, 0x1D, 0x42, 0x2B, 0xE7]
   let p : List Byte := [0xB4, 0x1E, 0x6B, 0xE2, 0xEB, 0xA8, 0x4A, 0x14, 0x8E, 0x2E, 0xED, 0x84, 0x59, 0x3C, 0x5E, 0xC7]
   let c : List Byte := [0x9B, 0x9B, 0x7B, 0xFC, 0xD1, 0x81, 0x3C, 0xB9, 0x5D, 0x0B, 0x36, 0x18, 0xF4, 0x0F, 0x51, 0x22]
   encryptBlock p rk = c ∧ decryptBlock c rk = p) ∧
  (∀ y : Byte, (∃ x, s1 x = y) ∧ ∃ x, s2 x = y) ∧
  (let bytes : List Byte := (List.range 256).map (BitVec.ofNat 8)
   ((bytes.map ss0).foldl (· + ·) 0, (bytes.map ss1).foldl (· + ·) 0, (bytes.map ss2).foldl (· + ·) 0,
     (bytes.map ss3).foldl (· + ·) 0) = ((0xE7F9FE00 : Word), (0x1FE7F980 : Word), (0xFE1FE780 : Word), (0xF9FE1F80 : Word)))

/-! ## The message layer -/

/-- Pad appends k = 16 - (n mod 16) copies of the byte k, 1 ≤ k ≤ 16, to a length that is a multiple of 16 and exceeds n
(45_chaining_padding.md R220). -/
def Obligations.PadShape : Prop :=
  ∀ p : List Byte, ∃ k, 1 ≤ k ∧ k ≤ 16 ∧ k = 16 - p.length % 16 ∧ pad p = p ++ List.replicate k (BitVec.ofNat 8 k) ∧
    (pad p).length = 16 * (p.length / 16 + 1) ∧ (pad p).length % 16 = 0 ∧ p.length < (pad p).length

/-- Unpad strips exactly the valid paddings: it answers (r, true) just when the sequence is r followed by c copies of a byte c in 1 to
16, and gives every other sequence, the empty one too, back unmodified with false (45_chaining_padding.md R221). -/
def Obligations.UnpadStripsExactlyPaddings : Prop :=
  ∀ q : List Byte,
    (∀ r, unpad q = (r, true) ↔ ∃ c, 1 ≤ c ∧ c ≤ 16 ∧ q = r ++ List.replicate c (BitVec.ofNat 8 c)) ∧
    ((unpad q).2 = false → unpad q = (q, false)) ∧ unpad [] = ([], false)

/-- The output lengths of the message functions for an input of length n (45_chaining_padding.md R230). -/
def Obligations.MessageLengths : Prop :=
  ∀ (d iv : List Byte) (rk : Vector Word 32), iv.length = 16 →
    let n := d.length
    let m := n - n % 16
    let q := cbcDecrypt (d.take m) iv rk
    (encryptMsg d rk iv true).1.length = 16 * (n / 16 + 1) ∧
    (encryptMsg d rk iv true).1.length = n + 16 - n % 16 ∧
    (encryptMsg d rk iv false).1.length = m ∧
    (∀ padded, (encryptMsg d rk iv padded).1.length % 16 = 0) ∧
    ((decryptMsg d rk iv true).2.2 = .valid →
      (decryptMsg d rk iv true).1.length = m - (q.getD (q.length - 1) 0).toNat) ∧
    ((decryptMsg d rk iv true).2.2 = .invalid → (decryptMsg d rk iv true).1.length = m) ∧
    (decryptMsg d rk iv false).1.length = m

/-- Block by block: CBC encryption chains from the previous ciphertext block it gave, CBC decryption from the previous ciphertext
block of its input, the first block from the IV; ECB processes each block on its own
(45_chaining_padding.md R222, R223, R225). -/
def Obligations.ChainingBlocks : Prop :=
  ∀ (d iv : List Byte) (rk : Vector Word 32) (j : Nat), d.length % 16 = 0 → iv.length = 16 → j < d.length / 16 →
    blockOf (cbcEncrypt d iv rk) j =
      encryptBlock (xor16 (blockOf d j) (if j = 0 then iv else blockOf (cbcEncrypt d iv rk) (j - 1))) rk ∧
    blockOf (cbcDecrypt d iv rk) j =
      xor16 (decryptBlock (blockOf d j) rk) (if j = 0 then iv else blockOf d (j - 1)) ∧
    blockOf (ecbEncrypt d rk) j = encryptBlock (blockOf d j) rk ∧
    blockOf (ecbDecrypt d rk) j = decryptBlock (blockOf d j) rk ∧
    (cbcEncrypt d iv rk).length = d.length ∧ (cbcDecrypt d iv rk).length = d.length ∧
    (ecbEncrypt d rk).length = d.length ∧ (ecbDecrypt d rk).length = d.length

/-- Round trips of the message functions, for every message, IV and round keys: padded and chained for any length, unpadded for a
length that is a multiple of 16 (45_chaining_padding.md R231). -/
def Obligations.MessageRoundTrip : Prop :=
  ∀ (p iv : List Byte) (rk : Vector Word 32), iv.length = 16 →
    decryptMsg (encryptMsg p rk iv true).1 rk iv true = (p, false, .valid) ∧
    (p.length % 16 = 0 → decryptMsg (encryptMsg p rk iv false).1 rk iv false = (p, false, .none))

/-- The round trip on the machine: a padded ENCRYPT of any written message completes, and a padded DECRYPT of its output, by any core
with the same key and IV whose IN_BUF that output fits (its MAX_MSG is above the message's length), strict or not, completes with
the message back in OUT_BUF, its length in OUT_LEN, PADOK = 1, PADINV = TRUNC = ERR = 0 (46_commands.md R260, R261;
45_chaining_padding.md R231). -/
def Obligations.MachineRoundTrip : Prop :=
  ∀ (s : State) (p : List Byte), paramsWf s.params = true → s.cfg.pad = true → s.keylen = 16 →
    (s.ivlen = 16 ∨ s.ivlen = 0) → p.length = s.inLen.toNat → p.length ≤ s.params.maxMsg → InputIs p s →
    ∃ t, exec .encrypt s = .next t ∧
      ∀ u : State, paramsWf u.params = true → p.length < u.params.maxMsg → u.key = s.key → u.keylen = s.keylen →
        u.iv = s.iv → u.ivlen = s.ivlen → u.cfg.pad = true → u.inLen = t.outLen →
        (∀ j, j < t.outLen.toNat → u.inBuf.read j = t.outBuf.read j) →
        ∃ v, exec .decrypt u = .next v ∧ v.outLen = s.inLen ∧
          (∀ j, j < s.inLen.toNat → v.outBuf.read j = s.inBuf.read j) ∧
          v.status.padok = true ∧ v.status.padinv = false ∧ v.status.trunc = false ∧ v.status.err = false
end

