-- ==== Sys2Proof/Laws/Memory.lean ====
section
/-! SUPPORT. The laws of the buffers: reads after writes, the canonical form, bounds. -/

namespace Sys2Proof.Machine

/-- A read after a write gives the value written. -/
@[simp] theorem read_write_same (m : Memory) (a : Nat) (b : Byte) : (m.write a b).read a = some b := by
  induction m with
  | nil => simp [Memory.write, Memory.read]
  | cons c m ih =>
    obtain ⟨k, d⟩ := c
    simp only [Memory.write]
    split
    · simp [Memory.read]
    · split
      · simp [Memory.read]
      · rename_i h1 h2
        have : k ≠ a := by omega
        simp [Memory.read, this, ih]

/-- A write leaves every other index alone. -/
theorem read_write_other (m : Memory) (a x : Nat) (b : Byte) (h : x ≠ a) : (m.write a b).read x = m.read x := by
  have hax : a ≠ x := fun e => h e.symm
  induction m with
  | nil => simp [Memory.write, Memory.read, hax]
  | cons c m ih =>
    obtain ⟨k, d⟩ := c
    simp only [Memory.write]
    split
    · simp [Memory.read, hax]
    · split
      · rename_i h1 h2
        subst h2
        simp [Memory.read, hax]
      · simp [Memory.read, ih]

/-- An index below every listed one has no value. -/
theorem read_eq_none_of_lt (m : Memory) (a : Nat) (h : ∀ c ∈ m, a < c.1) : m.read a = none := by
  induction m with
  | nil => rfl
  | cons c m ih =>
    obtain ⟨k, d⟩ := c
    have h1 : a < k := h (k, d) (by simp)
    have : k ≠ a := by omega
    simp [Memory.read, this, ih (fun c hc => h c (by simp [hc]))]

/-- A readable index is listed. -/
theorem mem_of_read (m : Memory) (a : Nat) (b : Byte) (h : m.read a = some b) : (a, b) ∈ m := by
  induction m with
  | nil => simp [Memory.read] at h
  | cons c m ih =>
    obtain ⟨k, d⟩ := c
    simp only [Memory.read] at h
    split at h
    · simp_all
    · simp [ih h]

/-- What a write lists: the written cell or an old one. -/
theorem mem_write (m : Memory) (a : Nat) (b : Byte) (c : Host.Cell) (h : c ∈ m.write a b) : c = (a, b) ∨ c ∈ m := by
  induction m with
  | nil => simpa [Memory.write] using h
  | cons x m ih =>
    obtain ⟨k, d⟩ := x
    simp only [Memory.write] at h
    split at h
    · simpa using h
    · split at h
      · simp only [List.mem_cons] at h ⊢; tauto
      · simp only [List.mem_cons] at h ⊢
        rcases h with h | h
        · tauto
        · rcases ih h with h | h <;> tauto

/-- A write keeps the canonical form. -/
theorem wf_write (m : Memory) (a : Nat) (b : Byte) (h : Memory.wf m) : Memory.wf (m.write a b) := by
  induction m with
  | nil => simp [Memory.write, Memory.wf]
  | cons c m ih =>
    obtain ⟨k, d⟩ := c
    simp only [Memory.wf, List.pairwise_cons] at h
    obtain ⟨hk, hm⟩ := h
    simp only [Memory.write]
    split
    · rename_i hlt
      simp only [Memory.wf, List.pairwise_cons]
      refine ⟨?_, hk, hm⟩
      intro c hc
      simp only [List.mem_cons] at hc
      rcases hc with rfl | hc
      · exact hlt
      · have : k < c.1 := hk c hc
        show a < c.1
        omega
    · split
      · rename_i h1 h2
        subst h2
        simp only [Memory.wf, List.pairwise_cons]
        exact ⟨hk, hm⟩
      · simp only [Memory.wf, List.pairwise_cons]
        refine ⟨?_, ih hm⟩
        intro c hc
        rcases mem_write m a b c hc with rfl | hc
        · simp only; omega
        · exact hk c hc

/-- A write of a byte sequence keeps the canonical form. -/
theorem wf_writeBytes (m : Memory) (a : Nat) (bs : List Byte) (h : Memory.wf m) : Memory.wf (m.writeBytes a bs) := by
  induction bs generalizing m a with
  | nil => exact h
  | cons b bs ih => exact ih _ _ (wf_write m a b h)

/-- Forgetting bytes keeps the canonical form. -/
theorem wf_dropBelow (m : Memory) (n : Nat) (h : Memory.wf m) : Memory.wf (m.dropBelow n) :=
  List.Pairwise.filter _ h

/-- A byte sequence written from `a` on leaves every index outside it alone. -/
theorem read_writeBytes_outside (m : Memory) (a x : Nat) (bs : List Byte) (h : x < a ∨ a + bs.length ≤ x) :
    (m.writeBytes a bs).read x = m.read x := by
  induction bs generalizing m a with
  | nil => rfl
  | cons b bs ih =>
    simp only [List.length_cons] at h
    simp only [Memory.writeBytes]
    rw [ih _ _ (by omega), read_write_other _ _ _ _ (by omega)]

/-- A byte sequence written from `a` on is what a read gives. -/
theorem read_writeBytes_inside (m : Memory) (a j : Nat) (bs : List Byte) (h : j < bs.length) :
    (m.writeBytes a bs).read (a + j) = some (bs.getD j 0) := by
  induction bs generalizing m a j with
  | nil => simp at h
  | cons b bs ih =>
    simp only [Memory.writeBytes]
    cases j with
    | zero =>
      rw [read_writeBytes_outside _ _ _ _ (by omega)]
      simp
    | succ j =>
      simp only [List.length_cons] at h
      have := ih (m.write a b) (a + 1) j (by omega)
      rw [show a + (j + 1) = a + 1 + j by omega, this]
      simp

/-- Forgotten bytes have no value. -/
theorem read_dropBelow_lt (m : Memory) (n a : Nat) (h : a < n) : (m.dropBelow n).read a = none := by
  apply read_eq_none_of_lt
  intro c hc
  simp only [Memory.dropBelow, List.mem_filter, decide_eq_true_eq] at hc
  omega

/-- Bytes at `n` and above are not forgotten. -/
theorem read_dropBelow_ge (m : Memory) (n a : Nat) (h : n ≤ a) : (m.dropBelow n).read a = m.read a := by
  induction m with
  | nil => rfl
  | cons c m ih =>
    obtain ⟨k, d⟩ := c
    simp only [Memory.dropBelow, List.filter_cons] at ih ⊢
    by_cases hk : n ≤ k
    · simp only [hk, decide_true, if_true, Memory.read, ih]
    · have : k ≠ a := by omega
      simp only [hk, decide_false, Memory.read, this, if_false]
      exact ih

/-- A write inside the buffer keeps it inside. -/
theorem fits_write (m : Memory) (size a : Nat) (b : Byte) (h : m.Fits size) (ha : a < size) :
    Memory.Fits (m.write a b) size := by
  refine ⟨wf_write m a b h.wf, ?_⟩
  intro c hc
  rcases mem_write m a b c hc with rfl | hc
  · exact ha
  · exact h.bound c hc

/-- A byte sequence written inside the buffer keeps it inside. -/
theorem fits_writeBytes (m : Memory) (size a : Nat) (bs : List Byte) (h : m.Fits size) (ha : a + bs.length ≤ size) :
    Memory.Fits (m.writeBytes a bs) size := by
  induction bs generalizing m a with
  | nil => exact h
  | cons b bs ih =>
    simp only [List.length_cons] at ha
    exact ih _ _ (fits_write m size a b h (by omega)) (by omega)

/-- Forgetting bytes keeps the buffer inside its size. -/
theorem fits_dropBelow (m : Memory) (size n : Nat) (h : m.Fits size) : Memory.Fits (m.dropBelow n) size :=
  ⟨wf_dropBelow m n h.wf, fun c hc => h.bound c (List.mem_of_mem_filter hc)⟩

end Sys2Proof.Machine
end

