-- ==== Sys2Proof/Laws/State.lean ====
section
/-! SUPPORT. What each named update of State does to each field, so that no proof unfolds a record update. -/

namespace Sys2Proof.Machine

/-! The parameters. -/

/-- What legal parameters are: the bounds of MAX_MSG, the least ADDR_BITS, the alignment of BASE (00_scope.md R8). -/
theorem legal_of_paramsWf (p : Params) (h : paramsWf p = true) :
    p.maxMsg % 16 = 0 ∧ 16 ≤ p.maxMsg ∧ p.maxMsg ≤ 65520 ∧ 18 ≤ p.addrBits ∧ p.base % 2 ^ 18 = 0 := by
  simp only [paramsWf, maxMsgWf, Bool.and_eq_true, beq_iff_eq, decide_eq_true_eq] at h
  exact ⟨h.1.1.1.1.1, h.1.1.1.1.2, h.1.1.1.2, h.1.2, h.2⟩

/-- The parameters of this hardware are legal, wherever its window lies (00_scope.md R8). -/
theorem paramsWf_config : paramsWf Config.params = true := by
  simp [paramsWf, maxMsgWf, busProtocolWf, Config.params, Config.busProtocol]

/-- OUT_BUF_BYTES in terms of MAX_MSG (00_scope.md R8). -/
theorem outBufBytes_eq (p : Params) : p.outBufBytes = p.maxMsg + 16 := rfl

/-! Acceptance: `accept`. -/

@[simp] theorem accept_lastcmd (w : Word) (s : State) : (accept w s).lastcmd = w := rfl
@[simp] theorem accept_status (w : Word) (s : State) : (accept w s).status = s.status.accepted := rfl
@[simp] theorem accept_cfg (w : Word) (s : State) : (accept w s).cfg = s.cfg := rfl
@[simp] theorem accept_keylen (w : Word) (s : State) : (accept w s).keylen = s.keylen := rfl
@[simp] theorem accept_ivlen (w : Word) (s : State) : (accept w s).ivlen = s.ivlen := rfl
@[simp] theorem accept_inLen (w : Word) (s : State) : (accept w s).inLen = s.inLen := rfl
@[simp] theorem accept_outLen (w : Word) (s : State) : (accept w s).outLen = s.outLen := rfl
@[simp] theorem accept_key (w : Word) (s : State) : (accept w s).key = s.key := rfl
@[simp] theorem accept_iv (w : Word) (s : State) : (accept w s).iv = s.iv := rfl
@[simp] theorem accept_rk (w : Word) (s : State) : (accept w s).rk = s.rk := rfl
@[simp] theorem accept_inBuf (w : Word) (s : State) : (accept w s).inBuf = s.inBuf := rfl
@[simp] theorem accept_outBuf (w : Word) (s : State) : (accept w s).outBuf = s.outBuf := rfl
@[simp] theorem accept_seq (w : Word) (s : State) : (accept w s).seq = .busy w := rfl
@[simp] theorem accept_host (w : Word) (s : State) : (accept w s).host = s.host := rfl
@[simp] theorem accept_sched (w : Word) (s : State) : (accept w s).sched = s.sched := rfl
@[simp] theorem accept_draws (w : Word) (s : State) : (accept w s).draws = s.draws := rfl
@[simp] theorem accept_params (w : Word) (s : State) : (accept w s).params = s.params := rfl

/-! The key schedule: `loadRoundKeys`. -/

@[simp] theorem loadRoundKeys_lastcmd (s : State) : (loadRoundKeys s).lastcmd = s.lastcmd := rfl
@[simp] theorem loadRoundKeys_status (s : State) : (loadRoundKeys s).status = s.status := rfl
@[simp] theorem loadRoundKeys_cfg (s : State) : (loadRoundKeys s).cfg = s.cfg := rfl
@[simp] theorem loadRoundKeys_keylen (s : State) : (loadRoundKeys s).keylen = s.keylen := rfl
@[simp] theorem loadRoundKeys_ivlen (s : State) : (loadRoundKeys s).ivlen = s.ivlen := rfl
@[simp] theorem loadRoundKeys_inLen (s : State) : (loadRoundKeys s).inLen = s.inLen := rfl
@[simp] theorem loadRoundKeys_outLen (s : State) : (loadRoundKeys s).outLen = s.outLen := rfl
@[simp] theorem loadRoundKeys_key (s : State) : (loadRoundKeys s).key = s.key := rfl
@[simp] theorem loadRoundKeys_iv (s : State) : (loadRoundKeys s).iv = s.iv := rfl
@[simp] theorem loadRoundKeys_rk (s : State) : (loadRoundKeys s).rk = keySchedule s.key.toList := rfl
@[simp] theorem loadRoundKeys_inBuf (s : State) : (loadRoundKeys s).inBuf = s.inBuf := rfl
@[simp] theorem loadRoundKeys_outBuf (s : State) : (loadRoundKeys s).outBuf = s.outBuf := rfl
@[simp] theorem loadRoundKeys_seq (s : State) : (loadRoundKeys s).seq = s.seq := rfl
@[simp] theorem loadRoundKeys_host (s : State) : (loadRoundKeys s).host = s.host := rfl
@[simp] theorem loadRoundKeys_sched (s : State) : (loadRoundKeys s).sched = s.sched := rfl
@[simp] theorem loadRoundKeys_draws (s : State) : (loadRoundKeys s).draws = s.draws := rfl
@[simp] theorem loadRoundKeys_params (s : State) : (loadRoundKeys s).params = s.params := rfl

/-! Storing a result: `storeOut`. -/

@[simp] theorem storeOut_lastcmd (out : List Byte) (s : State) : (storeOut out s).lastcmd = s.lastcmd := rfl
@[simp] theorem storeOut_status (out : List Byte) (s : State) : (storeOut out s).status = s.status := rfl
@[simp] theorem storeOut_cfg (out : List Byte) (s : State) : (storeOut out s).cfg = s.cfg := rfl
@[simp] theorem storeOut_keylen (out : List Byte) (s : State) : (storeOut out s).keylen = s.keylen := rfl
@[simp] theorem storeOut_ivlen (out : List Byte) (s : State) : (storeOut out s).ivlen = s.ivlen := rfl
@[simp] theorem storeOut_inLen (out : List Byte) (s : State) : (storeOut out s).inLen = s.inLen := rfl
@[simp] theorem storeOut_outLen (out : List Byte) (s : State) : (storeOut out s).outLen = s.outLen := rfl
@[simp] theorem storeOut_key (out : List Byte) (s : State) : (storeOut out s).key = s.key := rfl
@[simp] theorem storeOut_iv (out : List Byte) (s : State) : (storeOut out s).iv = s.iv := rfl
@[simp] theorem storeOut_rk (out : List Byte) (s : State) : (storeOut out s).rk = s.rk := rfl
@[simp] theorem storeOut_inBuf (out : List Byte) (s : State) : (storeOut out s).inBuf = s.inBuf := rfl
@[simp] theorem storeOut_outBuf (out : List Byte) (s : State) : (storeOut out s).outBuf = s.outBuf.writeBytes 0 out := rfl
@[simp] theorem storeOut_seq (out : List Byte) (s : State) : (storeOut out s).seq = s.seq := rfl
@[simp] theorem storeOut_host (out : List Byte) (s : State) : (storeOut out s).host = s.host := rfl
@[simp] theorem storeOut_sched (out : List Byte) (s : State) : (storeOut out s).sched = s.sched := rfl
@[simp] theorem storeOut_draws (out : List Byte) (s : State) : (storeOut out s).draws = s.draws := rfl
@[simp] theorem storeOut_params (out : List Byte) (s : State) : (storeOut out s).params = s.params := rfl

/-! Forgetting output bytes: `forgetOut`. -/

@[simp] theorem forgetOut_lastcmd (m : Nat) (s : State) : (forgetOut m s).lastcmd = s.lastcmd := rfl
@[simp] theorem forgetOut_status (m : Nat) (s : State) : (forgetOut m s).status = s.status := rfl
@[simp] theorem forgetOut_cfg (m : Nat) (s : State) : (forgetOut m s).cfg = s.cfg := rfl
@[simp] theorem forgetOut_keylen (m : Nat) (s : State) : (forgetOut m s).keylen = s.keylen := rfl
@[simp] theorem forgetOut_ivlen (m : Nat) (s : State) : (forgetOut m s).ivlen = s.ivlen := rfl
@[simp] theorem forgetOut_inLen (m : Nat) (s : State) : (forgetOut m s).inLen = s.inLen := rfl
@[simp] theorem forgetOut_outLen (m : Nat) (s : State) : (forgetOut m s).outLen = s.outLen := rfl
@[simp] theorem forgetOut_key (m : Nat) (s : State) : (forgetOut m s).key = s.key := rfl
@[simp] theorem forgetOut_iv (m : Nat) (s : State) : (forgetOut m s).iv = s.iv := rfl
@[simp] theorem forgetOut_rk (m : Nat) (s : State) : (forgetOut m s).rk = s.rk := rfl
@[simp] theorem forgetOut_inBuf (m : Nat) (s : State) : (forgetOut m s).inBuf = s.inBuf := rfl
@[simp] theorem forgetOut_outBuf (m : Nat) (s : State) : (forgetOut m s).outBuf = s.outBuf.dropBelow m := rfl
@[simp] theorem forgetOut_seq (m : Nat) (s : State) : (forgetOut m s).seq = s.seq := rfl
@[simp] theorem forgetOut_host (m : Nat) (s : State) : (forgetOut m s).host = s.host := rfl
@[simp] theorem forgetOut_sched (m : Nat) (s : State) : (forgetOut m s).sched = s.sched := rfl
@[simp] theorem forgetOut_draws (m : Nat) (s : State) : (forgetOut m s).draws = s.draws := rfl
@[simp] theorem forgetOut_params (m : Nat) (s : State) : (forgetOut m s).params = s.params := rfl

/-! A successful completion: `complete`. -/

@[simp] theorem complete_lastcmd (n : Nat) (tr pi po : Bool) (s : State) : (complete n tr pi po s).lastcmd = s.lastcmd := rfl
@[simp] theorem complete_status (n : Nat) (tr pi po : Bool) (s : State) : (complete n tr pi po s).status = s.status.completed tr pi po := rfl
@[simp] theorem complete_cfg (n : Nat) (tr pi po : Bool) (s : State) : (complete n tr pi po s).cfg = s.cfg := rfl
@[simp] theorem complete_keylen (n : Nat) (tr pi po : Bool) (s : State) : (complete n tr pi po s).keylen = s.keylen := rfl
@[simp] theorem complete_ivlen (n : Nat) (tr pi po : Bool) (s : State) : (complete n tr pi po s).ivlen = s.ivlen := rfl
@[simp] theorem complete_inLen (n : Nat) (tr pi po : Bool) (s : State) : (complete n tr pi po s).inLen = s.inLen := rfl
@[simp] theorem complete_outLen (n : Nat) (tr pi po : Bool) (s : State) : (complete n tr pi po s).outLen = BitVec.ofNat 32 n := rfl
@[simp] theorem complete_key (n : Nat) (tr pi po : Bool) (s : State) : (complete n tr pi po s).key = s.key := rfl
@[simp] theorem complete_iv (n : Nat) (tr pi po : Bool) (s : State) : (complete n tr pi po s).iv = s.iv := rfl
@[simp] theorem complete_rk (n : Nat) (tr pi po : Bool) (s : State) : (complete n tr pi po s).rk = s.rk := rfl
@[simp] theorem complete_inBuf (n : Nat) (tr pi po : Bool) (s : State) : (complete n tr pi po s).inBuf = s.inBuf := rfl
@[simp] theorem complete_outBuf (n : Nat) (tr pi po : Bool) (s : State) : (complete n tr pi po s).outBuf = s.outBuf := rfl
@[simp] theorem complete_seq (n : Nat) (tr pi po : Bool) (s : State) : (complete n tr pi po s).seq = .idle := rfl
@[simp] theorem complete_host (n : Nat) (tr pi po : Bool) (s : State) : (complete n tr pi po s).host = s.host := rfl
@[simp] theorem complete_sched (n : Nat) (tr pi po : Bool) (s : State) : (complete n tr pi po s).sched = s.sched := rfl
@[simp] theorem complete_draws (n : Nat) (tr pi po : Bool) (s : State) : (complete n tr pi po s).draws = s.draws := rfl
@[simp] theorem complete_params (n : Nat) (tr pi po : Bool) (s : State) : (complete n tr pi po s).params = s.params := rfl

/-! A failed completion: `raiseError`. -/

@[simp] theorem raiseError_lastcmd (code : ErrorCode) (s : State) : (raiseError code s).lastcmd = s.lastcmd := rfl
@[simp] theorem raiseError_status (code : ErrorCode) (s : State) : (raiseError code s).status = s.status.failedWith code := rfl
@[simp] theorem raiseError_cfg (code : ErrorCode) (s : State) : (raiseError code s).cfg = s.cfg := rfl
@[simp] theorem raiseError_keylen (code : ErrorCode) (s : State) : (raiseError code s).keylen = s.keylen := rfl
@[simp] theorem raiseError_ivlen (code : ErrorCode) (s : State) : (raiseError code s).ivlen = s.ivlen := rfl
@[simp] theorem raiseError_inLen (code : ErrorCode) (s : State) : (raiseError code s).inLen = s.inLen := rfl
@[simp] theorem raiseError_outLen (code : ErrorCode) (s : State) : (raiseError code s).outLen = 0 := rfl
@[simp] theorem raiseError_key (code : ErrorCode) (s : State) : (raiseError code s).key = s.key := rfl
@[simp] theorem raiseError_iv (code : ErrorCode) (s : State) : (raiseError code s).iv = s.iv := rfl
@[simp] theorem raiseError_rk (code : ErrorCode) (s : State) : (raiseError code s).rk = s.rk := rfl
@[simp] theorem raiseError_inBuf (code : ErrorCode) (s : State) : (raiseError code s).inBuf = s.inBuf := rfl
@[simp] theorem raiseError_outBuf (code : ErrorCode) (s : State) : (raiseError code s).outBuf = s.outBuf := rfl
@[simp] theorem raiseError_seq (code : ErrorCode) (s : State) : (raiseError code s).seq = .idle := rfl
@[simp] theorem raiseError_host (code : ErrorCode) (s : State) : (raiseError code s).host = s.host := rfl
@[simp] theorem raiseError_sched (code : ErrorCode) (s : State) : (raiseError code s).sched = s.sched := rfl
@[simp] theorem raiseError_draws (code : ErrorCode) (s : State) : (raiseError code s).draws = s.draws := rfl
@[simp] theorem raiseError_params (code : ErrorCode) (s : State) : (raiseError code s).params = s.params := rfl

/-! The host's move to a line: `gotoLine`. -/

@[simp] theorem gotoLine_lastcmd (n : Nat) (s : State) : (gotoLine n s).lastcmd = s.lastcmd := rfl
@[simp] theorem gotoLine_status (n : Nat) (s : State) : (gotoLine n s).status = s.status := rfl
@[simp] theorem gotoLine_cfg (n : Nat) (s : State) : (gotoLine n s).cfg = s.cfg := rfl
@[simp] theorem gotoLine_keylen (n : Nat) (s : State) : (gotoLine n s).keylen = s.keylen := rfl
@[simp] theorem gotoLine_ivlen (n : Nat) (s : State) : (gotoLine n s).ivlen = s.ivlen := rfl
@[simp] theorem gotoLine_inLen (n : Nat) (s : State) : (gotoLine n s).inLen = s.inLen := rfl
@[simp] theorem gotoLine_outLen (n : Nat) (s : State) : (gotoLine n s).outLen = s.outLen := rfl
@[simp] theorem gotoLine_key (n : Nat) (s : State) : (gotoLine n s).key = s.key := rfl
@[simp] theorem gotoLine_iv (n : Nat) (s : State) : (gotoLine n s).iv = s.iv := rfl
@[simp] theorem gotoLine_rk (n : Nat) (s : State) : (gotoLine n s).rk = s.rk := rfl
@[simp] theorem gotoLine_inBuf (n : Nat) (s : State) : (gotoLine n s).inBuf = s.inBuf := rfl
@[simp] theorem gotoLine_outBuf (n : Nat) (s : State) : (gotoLine n s).outBuf = s.outBuf := rfl
@[simp] theorem gotoLine_seq (n : Nat) (s : State) : (gotoLine n s).seq = s.seq := rfl
@[simp] theorem gotoLine_host (n : Nat) (s : State) : (gotoLine n s).host = { s.host with line := n } := rfl
@[simp] theorem gotoLine_sched (n : Nat) (s : State) : (gotoLine n s).sched = s.sched := rfl
@[simp] theorem gotoLine_draws (n : Nat) (s : State) : (gotoLine n s).draws = s.draws := rfl
@[simp] theorem gotoLine_params (n : Nat) (s : State) : (gotoLine n s).params = s.params := rfl

/-! A recorded response: `respond`. -/

@[simp] theorem respond_lastcmd (r : Response) (s : State) : (respond r s).lastcmd = s.lastcmd := rfl
@[simp] theorem respond_status (r : Response) (s : State) : (respond r s).status = s.status := rfl
@[simp] theorem respond_cfg (r : Response) (s : State) : (respond r s).cfg = s.cfg := rfl
@[simp] theorem respond_keylen (r : Response) (s : State) : (respond r s).keylen = s.keylen := rfl
@[simp] theorem respond_ivlen (r : Response) (s : State) : (respond r s).ivlen = s.ivlen := rfl
@[simp] theorem respond_inLen (r : Response) (s : State) : (respond r s).inLen = s.inLen := rfl
@[simp] theorem respond_outLen (r : Response) (s : State) : (respond r s).outLen = s.outLen := rfl
@[simp] theorem respond_key (r : Response) (s : State) : (respond r s).key = s.key := rfl
@[simp] theorem respond_iv (r : Response) (s : State) : (respond r s).iv = s.iv := rfl
@[simp] theorem respond_rk (r : Response) (s : State) : (respond r s).rk = s.rk := rfl
@[simp] theorem respond_inBuf (r : Response) (s : State) : (respond r s).inBuf = s.inBuf := rfl
@[simp] theorem respond_outBuf (r : Response) (s : State) : (respond r s).outBuf = s.outBuf := rfl
@[simp] theorem respond_seq (r : Response) (s : State) : (respond r s).seq = s.seq := rfl
@[simp] theorem respond_host (r : Response) (s : State) : (respond r s).host = { s.host with responses := r :: s.host.responses, line := s.host.line + 1 } := rfl
@[simp] theorem respond_sched (r : Response) (s : State) : (respond r s).sched = s.sched := rfl
@[simp] theorem respond_draws (r : Response) (s : State) : (respond r s).draws = s.draws := rfl
@[simp] theorem respond_params (r : Response) (s : State) : (respond r s).params = s.params := rfl

/-! The host's implicit result: `setRd`. -/

@[simp] theorem setRd_lastcmd (v : Word) (s : State) : (setRd v s).lastcmd = s.lastcmd := rfl
@[simp] theorem setRd_status (v : Word) (s : State) : (setRd v s).status = s.status := rfl
@[simp] theorem setRd_cfg (v : Word) (s : State) : (setRd v s).cfg = s.cfg := rfl
@[simp] theorem setRd_keylen (v : Word) (s : State) : (setRd v s).keylen = s.keylen := rfl
@[simp] theorem setRd_ivlen (v : Word) (s : State) : (setRd v s).ivlen = s.ivlen := rfl
@[simp] theorem setRd_inLen (v : Word) (s : State) : (setRd v s).inLen = s.inLen := rfl
@[simp] theorem setRd_outLen (v : Word) (s : State) : (setRd v s).outLen = s.outLen := rfl
@[simp] theorem setRd_key (v : Word) (s : State) : (setRd v s).key = s.key := rfl
@[simp] theorem setRd_iv (v : Word) (s : State) : (setRd v s).iv = s.iv := rfl
@[simp] theorem setRd_rk (v : Word) (s : State) : (setRd v s).rk = s.rk := rfl
@[simp] theorem setRd_inBuf (v : Word) (s : State) : (setRd v s).inBuf = s.inBuf := rfl
@[simp] theorem setRd_outBuf (v : Word) (s : State) : (setRd v s).outBuf = s.outBuf := rfl
@[simp] theorem setRd_seq (v : Word) (s : State) : (setRd v s).seq = s.seq := rfl
@[simp] theorem setRd_host (v : Word) (s : State) : (setRd v s).host = { s.host with rd := v } := rfl
@[simp] theorem setRd_sched (v : Word) (s : State) : (setRd v s).sched = s.sched := rfl
@[simp] theorem setRd_draws (v : Word) (s : State) : (setRd v s).draws = s.draws := rfl
@[simp] theorem setRd_params (v : Word) (s : State) : (setRd v s).params = s.params := rfl

/-! The draw counter: `advanceDraws`. -/

@[simp] theorem advanceDraws_lastcmd (n : Nat) (s : State) : (advanceDraws n s).lastcmd = s.lastcmd := rfl
@[simp] theorem advanceDraws_status (n : Nat) (s : State) : (advanceDraws n s).status = s.status := rfl
@[simp] theorem advanceDraws_cfg (n : Nat) (s : State) : (advanceDraws n s).cfg = s.cfg := rfl
@[simp] theorem advanceDraws_keylen (n : Nat) (s : State) : (advanceDraws n s).keylen = s.keylen := rfl
@[simp] theorem advanceDraws_ivlen (n : Nat) (s : State) : (advanceDraws n s).ivlen = s.ivlen := rfl
@[simp] theorem advanceDraws_inLen (n : Nat) (s : State) : (advanceDraws n s).inLen = s.inLen := rfl
@[simp] theorem advanceDraws_outLen (n : Nat) (s : State) : (advanceDraws n s).outLen = s.outLen := rfl
@[simp] theorem advanceDraws_key (n : Nat) (s : State) : (advanceDraws n s).key = s.key := rfl
@[simp] theorem advanceDraws_iv (n : Nat) (s : State) : (advanceDraws n s).iv = s.iv := rfl
@[simp] theorem advanceDraws_rk (n : Nat) (s : State) : (advanceDraws n s).rk = s.rk := rfl
@[simp] theorem advanceDraws_inBuf (n : Nat) (s : State) : (advanceDraws n s).inBuf = s.inBuf := rfl
@[simp] theorem advanceDraws_outBuf (n : Nat) (s : State) : (advanceDraws n s).outBuf = s.outBuf := rfl
@[simp] theorem advanceDraws_seq (n : Nat) (s : State) : (advanceDraws n s).seq = s.seq := rfl
@[simp] theorem advanceDraws_host (n : Nat) (s : State) : (advanceDraws n s).host = s.host := rfl
@[simp] theorem advanceDraws_sched (n : Nat) (s : State) : (advanceDraws n s).sched = s.sched := rfl
@[simp] theorem advanceDraws_draws (n : Nat) (s : State) : (advanceDraws n s).draws = s.draws + n := rfl
@[simp] theorem advanceDraws_params (n : Nat) (s : State) : (advanceDraws n s).params = s.params := rfl

/-! The reset input: `applyReset`. -/

@[simp] theorem applyReset_lastcmd (s : State) : (applyReset s).lastcmd = State.reset.lastcmd := rfl
@[simp] theorem applyReset_status (s : State) : (applyReset s).status = State.reset.status := rfl
@[simp] theorem applyReset_cfg (s : State) : (applyReset s).cfg = State.reset.cfg := rfl
@[simp] theorem applyReset_keylen (s : State) : (applyReset s).keylen = State.reset.keylen := rfl
@[simp] theorem applyReset_ivlen (s : State) : (applyReset s).ivlen = State.reset.ivlen := rfl
@[simp] theorem applyReset_inLen (s : State) : (applyReset s).inLen = State.reset.inLen := rfl
@[simp] theorem applyReset_outLen (s : State) : (applyReset s).outLen = State.reset.outLen := rfl
@[simp] theorem applyReset_key (s : State) : (applyReset s).key = State.reset.key := rfl
@[simp] theorem applyReset_iv (s : State) : (applyReset s).iv = State.reset.iv := rfl
@[simp] theorem applyReset_rk (s : State) : (applyReset s).rk = State.reset.rk := rfl
@[simp] theorem applyReset_inBuf (s : State) : (applyReset s).inBuf = State.reset.inBuf := rfl
@[simp] theorem applyReset_outBuf (s : State) : (applyReset s).outBuf = State.reset.outBuf := rfl
@[simp] theorem applyReset_seq (s : State) : (applyReset s).seq = State.reset.seq := rfl
@[simp] theorem applyReset_host (s : State) : (applyReset s).host = s.host := rfl
@[simp] theorem applyReset_sched (s : State) : (applyReset s).sched = s.sched := rfl
@[simp] theorem applyReset_draws (s : State) : (applyReset s).draws = s.draws := rfl
@[simp] theorem applyReset_params (s : State) : (applyReset s).params = s.params := rfl

/-! The updates of STATUS. -/

@[simp] theorem Status.accepted_done (st : Status) : (st.accepted).done = false := rfl
@[simp] theorem Status.accepted_err (st : Status) : (st.accepted).err = false := rfl
@[simp] theorem Status.accepted_trunc (st : Status) : (st.accepted).trunc = false := rfl
@[simp] theorem Status.accepted_padinv (st : Status) : (st.accepted).padinv = false := rfl
@[simp] theorem Status.accepted_padok (st : Status) : (st.accepted).padok = false := rfl
@[simp] theorem Status.accepted_werr (st : Status) : (st.accepted).werr = st.werr := rfl
@[simp] theorem Status.accepted_errcode (st : Status) : (st.accepted).errcode = .noError := rfl

@[simp] theorem Status.completed_done (st : Status) (tr pi po : Bool) : (st.completed tr pi po).done = true := rfl
@[simp] theorem Status.completed_err (st : Status) (tr pi po : Bool) : (st.completed tr pi po).err = false := rfl
@[simp] theorem Status.completed_trunc (st : Status) (tr pi po : Bool) : (st.completed tr pi po).trunc = tr := rfl
@[simp] theorem Status.completed_padinv (st : Status) (tr pi po : Bool) : (st.completed tr pi po).padinv = pi := rfl
@[simp] theorem Status.completed_padok (st : Status) (tr pi po : Bool) : (st.completed tr pi po).padok = po := rfl
@[simp] theorem Status.completed_werr (st : Status) (tr pi po : Bool) : (st.completed tr pi po).werr = st.werr := rfl
@[simp] theorem Status.completed_errcode (st : Status) (tr pi po : Bool) : (st.completed tr pi po).errcode = .noError := rfl

@[simp] theorem Status.failedWith_done (st : Status) (code : ErrorCode) : (st.failedWith code).done = true := rfl
@[simp] theorem Status.failedWith_err (st : Status) (code : ErrorCode) : (st.failedWith code).err = true := rfl
@[simp] theorem Status.failedWith_trunc (st : Status) (code : ErrorCode) : (st.failedWith code).trunc = false := rfl
@[simp] theorem Status.failedWith_padinv (st : Status) (code : ErrorCode) : (st.failedWith code).padinv = false := rfl
@[simp] theorem Status.failedWith_padok (st : Status) (code : ErrorCode) : (st.failedWith code).padok = false := rfl
@[simp] theorem Status.failedWith_werr (st : Status) (code : ErrorCode) : (st.failedWith code).werr = st.werr := rfl
@[simp] theorem Status.failedWith_errcode (st : Status) (code : ErrorCode) : (st.failedWith code).errcode = code := rfl

@[simp] theorem Status.writeOneToClear_done (st : Status) (v : Word) : (st.writeOneToClear v).done = (st.done && !v.getLsbD 1) := rfl
@[simp] theorem Status.writeOneToClear_err (st : Status) (v : Word) : (st.writeOneToClear v).err = st.err := rfl
@[simp] theorem Status.writeOneToClear_trunc (st : Status) (v : Word) : (st.writeOneToClear v).trunc = st.trunc := rfl
@[simp] theorem Status.writeOneToClear_padinv (st : Status) (v : Word) : (st.writeOneToClear v).padinv = st.padinv := rfl
@[simp] theorem Status.writeOneToClear_padok (st : Status) (v : Word) : (st.writeOneToClear v).padok = st.padok := rfl
@[simp] theorem Status.writeOneToClear_werr (st : Status) (v : Word) : (st.writeOneToClear v).werr = (st.werr && !v.getLsbD 6) := rfl
@[simp] theorem Status.writeOneToClear_errcode (st : Status) (v : Word) : (st.writeOneToClear v).errcode = st.errcode := rfl

@[simp] theorem Status.lateWrite_done (st : Status) : (st.lateWrite).done = st.done := rfl
@[simp] theorem Status.lateWrite_err (st : Status) : (st.lateWrite).err = st.err := rfl
@[simp] theorem Status.lateWrite_trunc (st : Status) : (st.lateWrite).trunc = st.trunc := rfl
@[simp] theorem Status.lateWrite_padinv (st : Status) : (st.lateWrite).padinv = st.padinv := rfl
@[simp] theorem Status.lateWrite_padok (st : Status) : (st.lateWrite).padok = st.padok := rfl
@[simp] theorem Status.lateWrite_werr (st : Status) : (st.lateWrite).werr = true := rfl
@[simp] theorem Status.lateWrite_errcode (st : Status) : (st.lateWrite).errcode = st.errcode := rfl

/-! The sequencer's state as BUSY (10_state.md R50). -/

@[simp] theorem busy_accept (w : Word) (s : State) : (accept w s).busy = true := rfl
@[simp] theorem busy_complete (n : Nat) (tr pi po : Bool) (s : State) : (complete n tr pi po s).busy = false := rfl
@[simp] theorem busy_raiseError (code : ErrorCode) (s : State) : (raiseError code s).busy = false := rfl

/-- BUSY is 1 exactly when the sequencer holds a word. -/
theorem busy_iff (s : State) : s.busy = true ↔ ∃ w, s.seq = .busy w := by
  unfold State.busy; cases s.seq <;> simp

/-- BUSY is 0 exactly when the sequencer is Idle. -/
theorem not_busy_iff (s : State) : s.busy = false ↔ s.seq = .idle := by
  unfold State.busy; cases s.seq <;> simp

end Sys2Proof.Machine
end

