-- ==== Sys2Proof/Laws/WordUtil.lean ====
section
/-! SUPPORT. The laws of the word and endian utilities (40_word_utilities.md R140–R146). -/

namespace Sys2Proof.Machine

/-- The bits of a word made of four bytes. -/
theorem getLsbD_wordOf (b3 b2 b1 b0 : Byte) (i : Nat) :
    (wordOf b3 b2 b1 b0).getLsbD i =
      if i < 8 then b0.getLsbD i else if i < 16 then b1.getLsbD (i - 8)
      else if i < 24 then b2.getLsbD (i - 16) else if i < 32 then b3.getLsbD (i - 24) else false := by
  simp only [wordOf, BitVec.getLsbD_or, BitVec.getLsbD_shiftLeft, BitVec.getLsbD_setWidth]
  have big : ∀ (b : Byte) (k : Nat), 8 ≤ k → b.getLsbD k = false := fun b k h => BitVec.getLsbD_of_ge b k h
  split
  · rename_i h
    simp [h, show i < 16 by omega, show i < 24 by omega, show i < 32 by omega]
  · split
    · rename_i h8 h
      simp [h8, h, show i < 24 by omega, show i < 32 by omega, big b0 i (by omega), show i - 8 < 32 by omega]
    · split
      · rename_i h8 h16 h
        simp [h8, h16, h, show i < 32 by omega, big b0 i (by omega), big b1 (i - 8) (by omega),
          show i - 8 < 32 by omega, show i - 16 < 32 by omega]
      · split
        · rename_i h8 h16 h24 h
          simp [h8, h16, h24, h, big b0 i (by omega), big b1 (i - 8) (by omega), big b2 (i - 16) (by omega),
            show i - 8 < 32 by omega, show i - 16 < 32 by omega, show i - 24 < 32 by omega]
        · rename_i h
          simp [h]

/-- The bits of byte `n` of a word. -/
theorem getLsbD_byteAt (w : Word) (n i : Nat) (h : i < 8) : (byteAt w n).getLsbD i = w.getLsbD (8 * n + i) := by
  simp [byteAt, h]

@[simp] theorem byteAt_wordOf_0 (b3 b2 b1 b0 : Byte) : byteAt (wordOf b3 b2 b1 b0) 0 = b0 := by
  apply BitVec.eq_of_getLsbD_eq
  intro i hi
  rw [getLsbD_byteAt _ _ _ hi, getLsbD_wordOf, if_pos (by omega)]
  simp

@[simp] theorem byteAt_wordOf_1 (b3 b2 b1 b0 : Byte) : byteAt (wordOf b3 b2 b1 b0) 1 = b1 := by
  apply BitVec.eq_of_getLsbD_eq
  intro i hi
  rw [getLsbD_byteAt _ _ _ hi, getLsbD_wordOf, if_neg (by omega), if_pos (by omega)]
  simp

@[simp] theorem byteAt_wordOf_2 (b3 b2 b1 b0 : Byte) : byteAt (wordOf b3 b2 b1 b0) 2 = b2 := by
  apply BitVec.eq_of_getLsbD_eq
  intro i hi
  rw [getLsbD_byteAt _ _ _ hi, getLsbD_wordOf, if_neg (by omega), if_neg (by omega), if_pos (by omega)]
  congr 1
  omega

@[simp] theorem byteAt_wordOf_3 (b3 b2 b1 b0 : Byte) : byteAt (wordOf b3 b2 b1 b0) 3 = b3 := by
  apply BitVec.eq_of_getLsbD_eq
  intro i hi
  rw [getLsbD_byteAt _ _ _ hi, getLsbD_wordOf, if_neg (by omega), if_neg (by omega), if_neg (by omega), if_pos (by omega)]
  congr 1
  omega

/-- A word is its four bytes. -/
@[simp] theorem wordOf_byteAt (w : Word) : wordOf (byteAt w 3) (byteAt w 2) (byteAt w 1) (byteAt w 0) = w := by
  apply BitVec.eq_of_getLsbD_eq
  intro i hi
  rw [getLsbD_wordOf]
  split
  · rw [getLsbD_byteAt _ _ _ (by omega)]; congr 1; omega
  · split
    · rw [getLsbD_byteAt _ _ _ (by omega)]; congr 1; omega
    · split
      · rw [getLsbD_byteAt _ _ _ (by omega)]; congr 1; omega
      · rw [getLsbD_byteAt _ _ _ (by omega)]; congr 1; omega

/-- Exclusive-or of words is bytewise. -/
theorem wordOf_xor (a3 a2 a1 a0 b3 b2 b1 b0 : Byte) :
    wordOf (a3 ^^^ b3) (a2 ^^^ b2) (a1 ^^^ b1) (a0 ^^^ b0) = wordOf a3 a2 a1 a0 ^^^ wordOf b3 b2 b1 b0 := by
  apply BitVec.eq_of_getLsbD_eq
  intro i hi
  simp only [getLsbD_wordOf, BitVec.getLsbD_xor]
  repeat' split
  all_goals rfl

@[simp] theorem be32bytes_length (w : Word) : (be32bytes w).length = 4 := rfl

/-- The bus's lanes of a word give the word back. -/
@[simp] theorem le32_leBytes_four (w : Word) : le32 (leBytes 4 w) 0 = w := wordOf_byteAt w

/-- Bytewise exclusive-or of two blocks has the length of the shorter. -/
@[simp] theorem xor16_length (x y : List Byte) : (xor16 x y).length = min x.length y.length := by
  simp [xor16]

/-- Exclusive-or twice with the same block gives the first back. -/
theorem xor16_cancel (x y : List Byte) (h : x.length = y.length) : xor16 (xor16 x y) y = x := by
  induction x generalizing y with
  | nil => simp [xor16]
  | cons a x ih =>
    cases y with
    | nil => simp at h
    | cons b y =>
      simp only [List.length_cons, Nat.add_right_cancel_iff] at h
      have := ih y h
      simp only [xor16, List.zipWith_cons_cons, List.cons.injEq] at this ⊢
      refine ⟨?_, this⟩
      rw [BitVec.xor_assoc, BitVec.xor_self, BitVec.xor_zero]

@[simp] theorem leBytes_length (n : Nat) (w : Word) : (leBytes n w).length = n := by simp [leBytes]

end Sys2Proof.Machine
end

