-- ==== Sys2Proof/Laws/Bus.lean ====
section
/-! SUPPORT. What a transaction can reach and what a write can do (20_memory.md R71–R83). -/

namespace Sys2Proof.Machine

/-- A transaction that reaches IN_BUF stays inside it. -/
theorem locate_inBuf (p : Params) (a : Nat) (w : Width) (i : Nat) (h : locate p a w = some (.inBuf i)) :
    i + w.bytes ≤ p.maxMsg := by
  simp only [locate] at h
  split at h
  · simp at h
  · split at h
    · split at h
      · simp only [Option.map_eq_some_iff] at h
        obtain ⟨_, _, h⟩ := h
        simp at h
      · simp at h
    · split at h
      · simp only [Option.some.injEq, Target.inBuf.injEq] at h
        omega
      · split at h <;> simp at h

/-- The register page is reached by aligned 32-bit transactions (20_memory.md R71, R77). -/
theorem locate_registerPage (p : Params) (a : Nat) (h4 : a % 4 = 0) (h : a < 0x100) :
    locate p a .w32 = (regAt a).map .reg := by
  simp [locate, Width.bytes, h4, h]

/-- The register at each register's offset is that register (20_memory.md R71). -/
theorem regAt_regOffset (r : Reg) : regAt (regOffset r) = some r ∧ regOffset r % 4 = 0 ∧ regOffset r < 0x100 := by
  cases r with
  | keyW n => revert n; decide
  | ivW n => revert n; decide
  | rk n => revert n; decide
  | id => decide
  | cmd => decide
  | status => decide
  | cfg => decide
  | keylen => decide
  | ivlen => decide
  | inLen => decide
  | outLen => decide

/-- Each register is reached at its own offset, whatever the parameters (20_memory.md R71). -/
theorem locate_register (p : Params) (r : Reg) : locate p (offsetOf r) .w32 = some (.reg r) := by
  obtain ⟨h, h4, hl⟩ := regAt_regOffset r
  rw [offsetOf, locate_registerPage p _ h4 hl, h]
  rfl

/-- A word-aligned offset that holds a register is that register's offset. -/
theorem regOffset_of_regAt (o : Nat) (r : Reg) (h4 : o % 4 = 0) (h : regAt o = some r) : regOffset r = o := by
  unfold regAt at h
  by_cases h0 : o = 0x0
  · rw [if_pos h0] at h; cases h; exact h0.symm
  rw [if_neg h0] at h
  by_cases h1 : o = 0x4
  · rw [if_pos h1] at h; cases h; exact h1.symm
  rw [if_neg h1] at h
  by_cases h2 : o = 0x8
  · rw [if_pos h2] at h; cases h; exact h2.symm
  rw [if_neg h2] at h
  by_cases h3 : o = 0xc
  · rw [if_pos h3] at h; cases h; exact h3.symm
  rw [if_neg h3] at h
  by_cases h4 : o = 0x10
  · rw [if_pos h4] at h; cases h; exact h4.symm
  rw [if_neg h4] at h
  by_cases h5 : o = 0x14
  · rw [if_pos h5] at h; cases h; exact h5.symm
  rw [if_neg h5] at h
  by_cases h6 : o = 0x18
  · rw [if_pos h6] at h; cases h; exact h6.symm
  rw [if_neg h6] at h
  by_cases h7 : o = 0x1c
  · rw [if_pos h7] at h; cases h; exact h7.symm
  rw [if_neg h7] at h
  by_cases k0 : o < 0x030
  · rw [if_pos k0] at h; cases h; simp only [regOffset, Fin.ofNat]; omega
  rw [if_neg k0] at h
  by_cases k1 : o < 0x040
  · rw [if_pos k1] at h; cases h; simp only [regOffset, Fin.ofNat]; omega
  rw [if_neg k1] at h
  by_cases k2 : o < 0x080
  · rw [if_pos k2] at h; cases h
  rw [if_neg k2] at h
  by_cases k3 : o < 0x100
  · rw [if_pos k3] at h; cases h; simp only [regOffset, Fin.ofNat]; omega
  rw [if_neg k3] at h; cases h

/-- A transaction that reaches a register is a 32-bit one at its offset (20_memory.md R71, R77). -/
theorem locate_reg (p : Params) (a : Nat) (w : Width) (r : Reg) (h : locate p a w = some (.reg r)) :
    a = offsetOf r ∧ w = .w32 := by
  simp only [locate] at h
  split at h
  · simp at h
  · rename_i hal
    split at h
    · split at h
      · rename_i hw
        subst hw
        simp only [Option.map_eq_some_iff, Target.reg.injEq, exists_eq_right] at h
        exact ⟨(regOffset_of_regAt _ _ (by simpa [Width.bytes] using hal) h).symm, rfl⟩
      · simp at h
    · split at h
      · simp at h
      · split at h <;> simp at h

/-- IN_BUF+k is reached by a naturally aligned transaction inside the buffer (20_memory.md R71, R77, R78). -/
theorem locate_inBufAt (p : Params) (k : Nat) (w : Width) (ha : k % w.bytes = 0) (hk : k + w.bytes ≤ p.maxMsg) :
    locate p (inBufAt k) w = some (.inBuf k) := by
  have hal : (0x10000 + k) % w.bytes = 0 := by
    cases w <;> simp only [Width.bytes] at ha ⊢ <;> omega
  have hi : inBufBase = 0x10000 := rfl
  unfold locate inBufAt
  rw [if_neg (by simp [hi, hal]), if_neg (by omega), if_pos (by omega), Nat.add_sub_cancel_left]

/-- OUT_BUF+k is reached by a naturally aligned transaction inside the buffer, for every legal MAX_MSG
(20_memory.md R71, R77, R78; 00_scope.md R8). -/
theorem locate_outBufAt (p : Params) (hp : paramsWf p = true) (k : Nat) (w : Width) (ha : k % w.bytes = 0)
    (hk : k + w.bytes ≤ p.outBufBytes) : locate p (outBufAt k) w = some (.outBuf k) := by
  have hm := (legal_of_paramsWf p hp).2.2.1
  have hb : 1 ≤ w.bytes := by cases w <;> simp [Width.bytes]
  have hal : (0x20000 + k) % w.bytes = 0 := by
    cases w <;> simp only [Width.bytes] at ha ⊢ <;> omega
  have hi : inBufBase = 0x10000 := rfl
  have ho : outBufBase = 0x20000 := rfl
  rw [outBufBytes_eq] at hk
  unfold locate outBufAt
  rw [if_neg (by simp [ho, hal]), if_neg (by omega), if_neg (by omega), if_pos (by rw [outBufBytes_eq]; omega),
    Nat.add_sub_cancel_left]

/-- What an address of the host's space names: the offset from BASE, inside the window only (20_memory.md R70). -/
theorem windowOffset_hostAddress (p : Params) (a : Nat) (h : a < 2 ^ p.addrBits) :
    windowOffset p (hostAddress p a) = some a := by
  unfold windowOffset hostAddress
  rw [if_pos (by omega), Nat.add_sub_cancel_left]

/-- An address outside the window names no offset (20_memory.md R70). -/
theorem windowOffset_outside (p : Params) (x : Nat) (h : x < p.base ∨ p.base + 2 ^ p.addrBits ≤ x) :
    windowOffset p x = none := if_neg (by omega)

/-- All that a write with an "okay" response can have done (20_memory.md R74). -/
theorem memWrite_cases (a : Nat) (w : Width) (v : Word) (s t : State) (h : memWrite a w v s = .ok t) :
    ∃ g, locate s.params a w = some g ∧
      ((readOnly g = true ∧ t = s) ∨
       (readOnly g = false ∧ s.busy = true ∧ g ≠ .reg .status ∧ t = { s with status := s.status.lateWrite }) ∨
       (readOnly g = false ∧ (s.busy = false ∨ g = .reg .status) ∧ t = writeTarget g w v s)) := by
  unfold memWrite at h
  split at h
  · simp at h
  · rename_i g hg
    refine ⟨g, hg, ?_⟩
    split at h
    · rename_i hr
      exact .inl ⟨hr, by simpa using h.symm⟩
    · rename_i hr
      split at h
      · rename_i hb
        simp only [Bool.and_eq_true, bne_iff_ne, ne_eq] at hb
        exact .inr (.inl ⟨by simpa using hr, hb.1, hb.2, by simpa using h.symm⟩)
      · rename_i hb
        refine .inr (.inr ⟨by simpa using hr, ?_, by simpa using h.symm⟩)
        simp only [Bool.and_eq_true, bne_iff_ne, ne_eq, not_and, not_not] at hb
        cases hbs : s.busy with
        | false => exact .inl rfl
        | true => exact .inr (hb hbs)

/-- A write that reaches `g`, in the order of 20_memory.md R74. -/
theorem memWrite_of_locate (a : Nat) (w : Width) (v : Word) (s : State) (g : Target) (h : locate s.params a w = some g) :
    memWrite a w v s =
      if readOnly g then .ok s
      else if s.busy && g != .reg .status then .ok { s with status := s.status.lateWrite }
      else .ok (writeTarget g w v s) := by
  simp only [memWrite, h]

/-- A write to a read-only location has no effect (20_memory.md R79). -/
theorem memWrite_readOnly (a : Nat) (w : Width) (v : Word) (s : State) (g : Target) (h : locate s.params a w = some g)
    (hr : readOnly g = true) : memWrite a w v s = .ok s := by
  rw [memWrite_of_locate a w v s g h, if_pos hr]

/-- A write that is ignored because the core is busy sets WERR (20_memory.md R83). -/
theorem memWrite_late (a : Nat) (w : Width) (v : Word) (s : State) (g : Target) (h : locate s.params a w = some g)
    (hr : readOnly g = false) (hb : s.busy = true) (hg : g ≠ .reg .status) :
    memWrite a w v s = .ok { s with status := s.status.lateWrite } := by
  rw [memWrite_of_locate a w v s g h]
  simp [hr, hb, hg]

/-- A write that takes effect (20_memory.md R74 case 4). -/
theorem memWrite_effect (a : Nat) (w : Width) (v : Word) (s : State) (g : Target) (h : locate s.params a w = some g)
    (hr : readOnly g = false) (hb : s.busy = false ∨ g = .reg .status) :
    memWrite a w v s = .ok (writeTarget g w v s) := by
  rw [memWrite_of_locate a w v s g h]
  rcases hb with hb | rfl
  · simp [hr, hb]
  · simp [readOnly]

/-- No write changes a parameter (10_state.md R52). -/
@[simp] theorem writeTarget_params (g : Target) (w : Width) (v : Word) (s : State) :
    (writeTarget g w v s).params = s.params := by
  cases g with
  | reg r => cases r <;> rfl
  | inBuf i => rfl
  | outBuf i => rfl

/-- A write with an "okay" response keeps the parameters. -/
theorem memWrite_params (a : Nat) (w : Width) (v : Word) (s t : State) (h : memWrite a w v s = .ok t) :
    t.params = s.params := by
  obtain ⟨g, -, ⟨-, rfl⟩ | ⟨-, -, -, rfl⟩ | ⟨-, -, rfl⟩⟩ := memWrite_cases a w v s t h
  · rfl
  · rfl
  · exact writeTarget_params g w v s

/-- A read that reaches `g` (20_memory.md R75). -/
theorem memRead_of_locate (a : Nat) (w : Width) (s : State) (g : Target) (h : locate s.params a w = some g) :
    memRead a w s = .ok (le32 (fillLanes s.draws (readLanes g w s)) 0) := by
  simp only [memRead, h]

/-- Reading known lanes gives the word. -/
theorem fillLanes_known (k : Nat) (v : Word) : fillLanes k (knownLanes v) = leBytes 4 v := rfl

/-- A register that is read while it has a definite value gives it (20_memory.md R75). -/
theorem regLanes_idle (r : Reg) (s : State) (h : s.busy = false) : regLanes r s = knownLanes (readReg r s) := by
  cases r <;> simp [regLanes, h, readReg]

/-- A 32-bit read of a register that has a definite value gives it (20_memory.md R75). -/
theorem memRead_register (r : Reg) (s : State) (h : regLanes r s = knownLanes (readReg r s)) :
    memRead (offsetOf r) .w32 s = .ok (readReg r s) := by
  rw [memRead_of_locate _ _ _ _ (locate_register s.params r)]
  simp [readLanes, h, fillLanes_known]

/-- The lanes above those given read 0, and each given lane is its byte or the free draw of its index. -/
theorem getD_fillLanes (k j : Nat) (ls : List (Option Byte)) :
    (fillLanes k ls).getD j 0 =
      if h : j < ls.length then (match ls[j] with | some b => b | none => Config.freeByte (k + j)) else 0 := by
  induction ls generalizing k j with
  | nil => rfl
  | cons l ls ih =>
    cases j with
    | zero => cases l <;> rfl
    | succ j =>
      have := ih (k + 1) j
      rw [show k + 1 + j = k + (j + 1) by omega] at this
      cases l <;> simpa [fillLanes] using this

/-- Lane `j` of the data of a read. -/
theorem extract_le32 (l : List Byte) (j : Nat) (h : j < 4) : (le32 l 0).extractLsb' (8 * j) 8 = l.getD j 0 := by
  have hcase : j = 0 ∨ j = 1 ∨ j = 2 ∨ j = 3 := by omega
  rcases hcase with rfl | rfl | rfl | rfl
  · exact byteAt_wordOf_0 _ _ _ _
  · exact byteAt_wordOf_1 _ _ _ _
  · exact byteAt_wordOf_2 _ _ _ _
  · exact byteAt_wordOf_3 _ _ _ _

/-- The word of a register file that was just written (20_memory.md R73). -/
theorem fileWord_setFileWord_same (f : Vector Byte 16) (n : Fin 4) (v : Word) : fileWord (setFileWord f n v) n = v := by
  have h := wordOf_byteAt v
  obtain ⟨n, hn⟩ := n
  have hcase : n = 0 ∨ n = 1 ∨ n = 2 ∨ n = 3 := by omega
  rcases hcase with rfl | rfl | rfl | rfl <;>
    simp [fileWord, setFileWord, le32, byteIn, h]

end Sys2Proof.Machine
end

