-- ==== Sys2Proof/Laws/Cipher.lean ====
section
/-! SUPPORT. The laws of the Feistel rounds and of the block and message layers: lengths, the undoing of a round, chunking
(44_block_cipher.md R203, 45_chaining_padding.md R220–R230). -/

namespace Sys2Proof.Machine

/-- The halves exchanged: what writing the R half first does to the words that are read back. -/
def swapHalves (x : BlockWords) : BlockWords := { l0 := x.r0, l1 := x.r1, r0 := x.l0, r1 := x.l1 }

@[simp] theorem swapHalves_swapHalves (x : BlockWords) : swapHalves (swapHalves x) = x := rfl

@[simp] theorem outputView_length (x : BlockWords) : (outputView x).length = 16 := rfl

@[simp] theorem encryptBlock_length (b : List Byte) (rk : Vector Word 32) : (encryptBlock b rk).length = 16 := rfl

@[simp] theorem decryptBlock_length (b : List Byte) (rk : Vector Word 32) : (decryptBlock b rk).length = 16 := rfl

/-- The words read back from an output block are its words, the halves exchanged. -/
theorem blockView_outputView (x : BlockWords) : blockView (outputView x) = swapHalves x := by
  have h (w : Word) : wordOf (byteAt w 3) (byteAt w 2) (byteAt w 1) (byteAt w 0) = w := wordOf_byteAt w
  simp [blockView, outputView, be32, be32bytes, byteIn, swapHalves, h]

/-- The output view of exchanged words writes a 16-byte block back. -/
theorem outputView_swap_blockView (b : List Byte) (h : b.length = 16) : outputView (swapHalves (blockView b)) = b := by
  match b, h with
  | [b0, b1, b2, b3, b4, b5, b6, b7, b8, b9, b10, b11, b12, b13, b14, b15], _ =>
    simp [blockView, outputView, be32, be32bytes, byteIn, swapHalves]

/-- A round applied twice with the same key pair undoes itself (44_block_cipher.md R203). -/
@[simp] theorem blockRound_blockRound (rk : Vector Word 32) (r o : Nat) (x : BlockWords) :
    blockRound rk r o (blockRound rk r o x) = x := by
  unfold blockRound
  split <;> simp

/-- A round on exchanged halves is the round of the other parity. -/
theorem blockRound_swap (rk : Vector Word 32) (r o : Nat) (x : BlockWords) :
    blockRound rk r o (swapHalves x) = swapHalves (blockRound rk (r + 1) o x) := by
  unfold blockRound
  rcases Nat.mod_two_eq_zero_or_one r with h | h
  · simp [h, show (r + 1) % 2 = 1 by omega, swapHalves]
  · simp [h, show (r + 1) % 2 = 0 by omega, swapHalves]

/-- A round depends on its number only through its parity. -/
theorem blockRound_parity (rk : Vector Word 32) (r r' o : Nat) (x : BlockWords) (h : r % 2 = r' % 2) :
    blockRound rk r o x = blockRound rk r' o x := by
  unfold blockRound
  rw [h]

/-- `n` rounds from round `r` on, round `k` with the key pair at offset `off k`. -/
def roundsFrom (rk : Vector Word 32) (off : Nat → Nat) : Nat → Nat → BlockWords → BlockWords
  | 0, _, x => x
  | n + 1, r, x => roundsFrom rk off n (r + 1) (blockRound rk r (off r) x)

/-- The sixteen rounds as a recursion. -/
theorem blockRounds_eq (rk : Vector Word 32) (off : Nat → Nat) (x : BlockWords) :
    blockRounds rk off x = roundsFrom rk off 16 0 x := rfl

/-- The last of `n + 1` rounds, taken off. -/
theorem roundsFrom_last (rk : Vector Word 32) (off : Nat → Nat) (n r : Nat) (x : BlockWords) :
    roundsFrom rk off (n + 1) r x = blockRound rk (r + n) (off (r + n)) (roundsFrom rk off n r x) := by
  induction n generalizing r x with
  | zero => rfl
  | succ n ih =>
    rw [roundsFrom, ih, roundsFrom, show r + 1 + n = r + (n + 1) by omega]

/-- Rounds in the reverse order of their key pairs, on exchanged halves, undo the rounds. -/
theorem roundsFrom_reverse (rk : Vector Word 32) (off off' : Nat → Nat) (n r r' : Nat) (x : BlockWords)
    (hpar : (r + r' + n) % 2 = 0) (hoff : ∀ k, k < n → off' (r' + k) = off (r + (n - 1 - k))) :
    roundsFrom rk off' n r' (swapHalves (roundsFrom rk off n r x)) = swapHalves x := by
  induction n generalizing r' with
  | zero => rfl
  | succ n ih =>
    rw [roundsFrom_last rk off n r x, roundsFrom, blockRound_swap]
    have h0 := hoff 0 (by omega)
    simp only [Nat.add_zero, Nat.add_sub_cancel, Nat.sub_zero] at h0
    rw [h0, blockRound_parity rk (r' + 1) (r + n) _ _ (by omega), blockRound_blockRound]
    apply ih
    · omega
    · intro k hk
      have := hoff (k + 1) (by omega)
      rw [show r' + (k + 1) = r' + 1 + k by omega] at this
      rw [this]
      congr 1
      omega

/-! Chunking: the block recursions of the chaining layer. -/

@[simp] theorem cbcEncryptBlocks_length (rk : Vector Word 32) (n : Nat) (d prev : List Byte) :
    (cbcEncryptBlocks rk n d prev).length = 16 * n := by
  induction n generalizing d prev with
  | zero => rfl
  | succ n ih => simp [cbcEncryptBlocks, ih]; omega

theorem cbcDecryptBlocks_length_le (rk : Vector Word 32) (n : Nat) (e prev : List Byte) :
    (cbcDecryptBlocks rk n e prev).length ≤ 16 * n := by
  induction n generalizing e prev with
  | zero => simp [cbcDecryptBlocks]
  | succ n ih =>
    have := ih (e.drop 16) (e.take 16)
    simp only [cbcDecryptBlocks, List.length_append, xor16_length, decryptBlock_length]
    omega

/-- CBC decryption of whole blocks gives as many bytes. -/
theorem cbcDecryptBlocks_length (rk : Vector Word 32) (n : Nat) (e prev : List Byte) (he : 16 * n ≤ e.length)
    (hp : prev.length = 16) : (cbcDecryptBlocks rk n e prev).length = 16 * n := by
  induction n generalizing e prev with
  | zero => rfl
  | succ n ih =>
    have := ih (e.drop 16) (e.take 16) (by simp only [List.length_drop]; omega) (by simp only [List.length_take]; omega)
    simp only [cbcDecryptBlocks, List.length_append, xor16_length, decryptBlock_length, this, hp]
    omega

theorem ecbBlocks_length (f : List Byte → List Byte) (hf : ∀ b, (f b).length = 16) (n : Nat) (d : List Byte) :
    (ecbBlocks f n d).length = 16 * n := by
  induction n generalizing d with
  | zero => rfl
  | succ n ih => simp [ecbBlocks, ih, hf]; omega

/-- `Pad` appends between 1 and 16 bytes, up to a multiple of 16 (45_chaining_padding.md R220). -/
theorem pad_length (p : List Byte) : (pad p).length = 16 * (p.length / 16 + 1) := by
  simp only [pad, List.length_append, List.length_replicate]
  omega

theorem unpad_length_le (q : List Byte) : (unpad q).1.length ≤ q.length := by
  unfold unpad
  split
  · simp
  · split <;> simp

/-- A padded encryption's length (45_chaining_padding.md R230). -/
theorem encryptMsg_length_padded (p : List Byte) (rk : Vector Word 32) (iv : List Byte) :
    (encryptMsg p rk iv true).1.length = 16 * (p.length / 16 + 1) := by
  have h := pad_length p
  simp only [encryptMsg, if_true, cbcEncrypt, cbcEncryptBlocks_length, h]
  omega

/-- An unpadded encryption's length (45_chaining_padding.md R230). -/
theorem encryptMsg_length_unpadded (p : List Byte) (rk : Vector Word 32) (iv : List Byte) :
    (encryptMsg p rk iv false).1.length = wholeBlocks p.length := by
  simp only [encryptMsg, ecbEncrypt, wholeBlocks]
  rw [if_neg (by simp), ecbBlocks_length _ (fun b => encryptBlock_length b rk)]
  simp only [List.length_take]
  omega

/-- A decryption gives at most as many bytes as the whole blocks of its input (45_chaining_padding.md R230). -/
theorem decryptMsg_length_le (c : List Byte) (rk : Vector Word 32) (iv : List Byte) (padded : Bool) :
    (decryptMsg c rk iv padded).1.length ≤ wholeBlocks c.length := by
  have hm : (c.take (wholeBlocks c.length)).length / 16 * 16 = wholeBlocks c.length := by
    simp only [List.length_take, wholeBlocks]; omega
  cases padded with
  | true =>
    have h1 := unpad_length_le (cbcDecrypt (c.take (wholeBlocks c.length)) iv rk)
    have h2 := cbcDecryptBlocks_length_le rk ((c.take (wholeBlocks c.length)).length / 16)
      (c.take (wholeBlocks c.length)) iv
    simp only [decryptMsg, if_true]
    simp only [cbcDecrypt] at h1 ⊢
    omega
  | false =>
    have h2 := ecbBlocks_length (fun b => decryptBlock b rk) (fun b => decryptBlock_length b rk)
      ((c.take (wholeBlocks c.length)).length / 16) (c.take (wholeBlocks c.length))
    simp only [decryptMsg, ecbDecrypt, if_neg Bool.false_ne_true]
    omega

end Sys2Proof.Machine
end

