-- ==== Sys2Proof/Laws/Exec.lean ====
section
/-! SUPPORT. What the completion step of a command can do: one inversion lemma, and what each body writes
(46_commands.md R252–R263). -/

namespace Sys2Proof.Machine

/-- The body of each command. -/
def bodyOf : Instr → State → State
  | .nop => nopBody
  | .keysched => keyschedBody
  | .encBlock => encBlockBody
  | .decBlock => decBlockBody
  | .encrypt => encryptBody
  | .decrypt => decryptBody

/-- Every command is Validate, then its body. -/
theorem exec_eq_runBody (i : Instr) (s : State) : exec i s = runBody i (bodyOf i) s := by
  cases i <;> rfl

/-- A command that fails in Validate ends with its error. -/
theorem runBody_of_error (op : Instr) (body : State → State) (s : State) (c : ErrorCode) (h : validate op s = some c) :
    runBody op body s = .next (raiseError c s) := by
  simp [runBody, h]

/-- A command whose checks pass and whose input is written runs its body. -/
theorem runBody_of_ok (op : Instr) (body : State → State) (s : State) (h : validate op s = none)
    (hw : inputWritten (bytesRead op s) s = true) : runBody op body s = .next (body s) := by
  simp [runBody, h, hw]

/-- A command whose checks pass and whose input is not all written faults (46_commands.md R263). -/
theorem runBody_of_unwritten (op : Instr) (body : State → State) (s : State) (h : validate op s = none)
    (hw : inputWritten (bytesRead op s) s = false) : runBody op body s = .fault .uninitRead := by
  simp [runBody, h, hw]

/-- A command whose checks pass and whose input is written completes with its body. -/
theorem exec_of_ok (i : Instr) (s : State) (hv : validate i s = none) (hw : inputWritten (bytesRead i s) s = true) :
    exec i s = .next (bodyOf i s) := by
  rw [exec_eq_runBody, runBody_of_ok _ _ _ hv hw]

/-! What the input is, where the host has written it. -/

/-- When IN_BUF[0 .. n) is written. -/
theorem inputWritten_iff (n : Nat) (s : State) : inputWritten n s = true ↔ ∀ k, k < n → s.inBuf.read k ≠ none := by
  simp [inputWritten, Option.isSome_iff_ne_none]

/-- Written input is written. -/
theorem inputWritten_of_inputIs (b : List Byte) (s : State) (h : InputIs b s) : inputWritten b.length s = true := by
  rw [inputWritten_iff]
  intro k hk
  simp [h k hk]

/-- Written input is what a body reads. -/
theorem inputBytes_of_inputIs (b : List Byte) (s : State) (h : InputIs b s) : inputBytes b.length s = b := by
  apply List.ext_getElem
  · simp [inputBytes]
  · intro i h1 h2
    have := h i h2
    simp only [inputBytes, List.getElem_map, List.getElem_range, inputByte, this]
    simp [h2]

@[simp] theorem inputBytes_length (n : Nat) (s : State) : (inputBytes n s).length = n := by simp [inputBytes]

/-- The first `m` bytes of a longer input. -/
theorem inputBytes_take (n m : Nat) (s : State) (h : m ≤ n) : (inputBytes n s).take m = inputBytes m s := by
  simp [inputBytes, ← List.map_take, List.take_range, h]

/-- The chaining seed with an IV (45_chaining_padding.md R224). -/
theorem ivSeed_of_iv (s : State) (h : s.ivlen = 16) : ivSeed s = s.iv.toList := by simp [ivSeed, h]

/-- The chaining seed without an IV (45_chaining_padding.md R224). -/
theorem ivSeed_of_noiv (s : State) (h : s.ivlen = 0) : ivSeed s = List.replicate 16 0 := by simp [ivSeed, h]

/-- Bytes are dropped exactly when the length is no multiple of 16 (45_chaining_padding.md R228). -/
theorem wholeBlocks_ne (n : Nat) : (wholeBlocks n != n) = decide (n % 16 ≠ 0) := by
  simp only [wholeBlocks]
  by_cases h : n % 16 = 0
  · simp [h]
  · have : n - n % 16 ≠ n := by have := Nat.mod_le n 16; omega
    simp [this, h]

@[simp] theorem none_beq_invalid : (PadState.none == PadState.invalid) = false := rfl
@[simp] theorem none_beq_valid : (PadState.none == PadState.valid) = false := rfl
@[simp] theorem valid_beq_invalid : (PadState.valid == PadState.invalid) = false := rfl
@[simp] theorem invalid_beq_valid : (PadState.invalid == PadState.valid) = false := rfl

/-- The body of ENCRYPT with PAD = 0, in terms of the whole blocks of its input (46_commands.md R260, R263). -/
theorem encryptBody_unpadded (s : State) (hp : s.cfg.pad = false) :
    encryptBody s =
      let out := ecbEncrypt (inputBytes (wholeBlocks s.inLen.toNat) s) (keySchedule s.key.toList)
      complete out.length (wholeBlocks s.inLen.toNat != s.inLen.toNat) false false (storeOut out (loadRoundKeys s)) := by
  have ht := inputBytes_take s.inLen.toNat (wholeBlocks s.inLen.toNat) s (by simp [wholeBlocks])
  simp only [encryptBody, encryptMsg, hp, inputBytes_length, ht, loadRoundKeys_rk]
  simp

/-- The message function of DECRYPT, in terms of the whole blocks of its input (46_commands.md R261, R263). -/
theorem decryptMsg_inputBytes (n : Nat) (s : State) (rk : Vector Word 32) (iv : List Byte) (padded : Bool) :
    decryptMsg (inputBytes n s) rk iv padded =
      if padded then
        ((unpad (cbcDecrypt (inputBytes (wholeBlocks n) s) iv rk)).1, wholeBlocks n != n,
          if (unpad (cbcDecrypt (inputBytes (wholeBlocks n) s) iv rk)).2 then .valid else .invalid)
      else (ecbDecrypt (inputBytes (wholeBlocks n) s) rk, wholeBlocks n != n, .none) := by
  have ht := inputBytes_take n (wholeBlocks n) s (by simp [wholeBlocks])
  simp only [decryptMsg, inputBytes_length, ht]

/-- A completion after the key schedule, in the terms of the claims. -/
theorem completesTo_complete (s : State) (out : List Byte) (tr pi po : Bool) :
    CompletesTo s (complete out.length tr pi po (storeOut out (loadRoundKeys s))) (keySchedule s.key.toList) out
      (successStatus s.status tr pi po) := by
  refine ⟨rfl, ?_, ?_⟩
  · intro j hj
    have := read_writeBytes_inside s.outBuf 0 j out hj
    simpa using this
  · intro j hj
    have := read_writeBytes_outside s.outBuf 0 j out (by omega)
    simpa using this

/-- All that a completion step which goes on can have done: raised an error of Validate, or run its body on written input. -/
theorem exec_cases (i : Instr) (s t : State) (h : exec i s = .next t) :
    (∃ c, validate i s = some c ∧ t = raiseError c s) ∨
    (validate i s = none ∧ inputWritten (bytesRead i s) s = true ∧ t = bodyOf i s) := by
  rw [exec_eq_runBody] at h
  cases hv : validate i s with
  | some c =>
    rw [runBody_of_error _ _ _ _ hv] at h
    exact .inl ⟨c, rfl, by simpa using h.symm⟩
  | none =>
    cases hw : inputWritten (bytesRead i s) s with
    | true =>
      rw [runBody_of_ok _ _ _ hv hw] at h
      exact .inr ⟨rfl, rfl, by simpa using h.symm⟩
    | false =>
      rw [runBody_of_unwritten _ _ _ hv hw] at h
      simp at h

/-- A command whose input is ready goes on (46_commands.md R263). -/
theorem exec_of_ready (i : Instr) (s : State) (h : inputReady i s = true) : ∃ t, exec i s = .next t := by
  cases hv : validate i s with
  | some c => exact ⟨_, (exec_eq_runBody i s).trans (runBody_of_error _ _ _ c hv)⟩
  | none => exact ⟨_, exec_of_ok i s hv (by simpa [inputReady, hv] using h)⟩

/-- A command whose input is not ready faults (46_commands.md R263). -/
theorem exec_of_not_ready (i : Instr) (s : State) (h : inputReady i s = false) : exec i s = .fault .uninitRead := by
  simp only [inputReady, Bool.or_eq_false_iff] at h
  exact (exec_eq_runBody i s).trans (runBody_of_unwritten _ _ _ (by simpa using h.1) h.2)

/-- A completion step never refuses. -/
theorem exec_ne_refused (i : Instr) (s : State) (r : Refusal) : exec i s ≠ .refused r := by
  rw [exec_eq_runBody]
  unfold runBody
  split
  · simp
  · split <;> simp

/-- A command that reads IN_BUF and passes Validate has IN_LEN within MAX_MSG (60_exceptions.md R302). -/
theorem inLen_le_of_validate (i : Instr) (s : State) (h : validate i s = none) (hr : readsInput i = true) :
    s.inLen.toNat ≤ s.params.maxMsg := by
  by_contra hc
  have hlt : s.params.maxMsg < s.inLen.toNat := by omega
  cases i <;> simp [readsInput] at hr <;> simp [validate, readsInput, hlt] at h

/-- DECRYPT ends in INVALID_PADDING on an invalid padding in strict mode (46_commands.md R261). -/
theorem finishDecrypt_of_invalid (r : List Byte × Bool × PadState) (s : State)
    (h : r.2.2 = .invalid ∧ s.cfg.strict = true) :
    finishDecrypt r s = raiseError .invalidPadding (forgetOut (wholeBlocks s.inLen.toNat) s) := if_pos h

/-- DECRYPT completes otherwise (46_commands.md R261). -/
theorem finishDecrypt_of_ok (r : List Byte × Bool × PadState) (s : State)
    (h : ¬(r.2.2 = .invalid ∧ s.cfg.strict = true)) :
    finishDecrypt r s = complete r.1.length r.2.1 (r.2.2 == .invalid) (r.2.2 == .valid) (storeOut r.1 s) := if_neg h

/-- What the end of DECRYPT is: INVALID_PADDING, or a completion with its output. -/
theorem finishDecrypt_cases (r : List Byte × Bool × PadState) (s : State) :
    (r.2.2 = .invalid ∧ s.cfg.strict = true ∧
      finishDecrypt r s = raiseError .invalidPadding (forgetOut (wholeBlocks s.inLen.toNat) s)) ∨
    (¬(r.2.2 = .invalid ∧ s.cfg.strict = true) ∧
      finishDecrypt r s = complete r.1.length r.2.1 (r.2.2 == .invalid) (r.2.2 == .valid) (storeOut r.1 s)) := by
  by_cases h : r.2.2 = .invalid ∧ s.cfg.strict = true
  · exact .inl ⟨h.1, h.2, finishDecrypt_of_invalid r s h⟩
  · exact .inr ⟨h, finishDecrypt_of_ok r s h⟩

/-- What DECRYPT ends in: INVALID_PADDING, or a completion with its output. -/
theorem decryptBody_cases (s : State) :
    (∃ m, decryptBody s = raiseError .invalidPadding (forgetOut m (loadRoundKeys s))) ∨
    (∃ out tr pi po, decryptBody s = complete out.length tr pi po (storeOut out (loadRoundKeys s)) ∧
      out.length ≤ wholeBlocks s.inLen.toNat ∧ ¬(pi = true ∧ po = true)) := by
  have hl := decryptMsg_length_le (inputBytes s.inLen.toNat s) (keySchedule s.key.toList) (ivSeed s) s.cfg.pad
  rcases finishDecrypt_cases (decryptMsg (inputBytes s.inLen.toNat s) (keySchedule s.key.toList) (ivSeed s) s.cfg.pad)
    (loadRoundKeys s) with ⟨_, _, h⟩ | ⟨_, h⟩
  · exact .inl ⟨_, h⟩
  · refine .inr ⟨_, _, _, _, h, ?_, ?_⟩
    · simpa [inputBytes] using hl
    · simp only [beq_iff_eq]
      rintro ⟨h1, h2⟩
      rw [h1] at h2
      cases h2

/-- What ENCRYPT ends in: a completion with its output, which fits OUT_BUF when IN_LEN fits IN_BUF. -/
theorem encryptBody_cases (s : State) :
    ∃ out tr, encryptBody s = complete out.length tr false false (storeOut out (loadRoundKeys s)) ∧
      out.length ≤ s.inLen.toNat + 16 := by
  refine ⟨(encryptMsg (inputBytes s.inLen.toNat s) (keySchedule s.key.toList) (ivSeed s) s.cfg.pad).1, _, rfl, ?_⟩
  cases hp : s.cfg.pad with
  | true =>
    rw [encryptMsg_length_padded]
    simp only [inputBytes, List.length_map, List.length_range]
    omega
  | false =>
    rw [encryptMsg_length_unpadded]
    simp only [inputBytes, List.length_map, List.length_range, wholeBlocks]
    omega

/-- The four shapes of a body: a completion with no result, RK kept; a completion with no result after the key schedule; a
completion with a result that fits OUT_BUF; the INVALID_PADDING of DECRYPT. -/
theorem body_cases (i : Instr) (s : State) (hv : validate i s = none) :
    bodyOf i s = complete 0 false false false s ∨
    bodyOf i s = complete 0 false false false (loadRoundKeys s) ∨
    (∃ out tr pi po, bodyOf i s = complete out.length tr pi po (storeOut out (loadRoundKeys s)) ∧
      out.length ≤ s.params.outBufBytes ∧ ¬(pi = true ∧ po = true)) ∨
    (∃ m, bodyOf i s = raiseError .invalidPadding (forgetOut m (loadRoundKeys s))) := by
  cases i with
  | nop => exact .inl rfl
  | keysched => exact .inr (.inl rfl)
  | encBlock => exact .inr (.inr (.inl ⟨_, false, false, false, rfl, by simp [Params.outBufBytes], by simp⟩))
  | decBlock => exact .inr (.inr (.inl ⟨_, false, false, false, rfl, by simp [Params.outBufBytes], by simp⟩))
  | encrypt =>
    obtain ⟨out, tr, h, hl⟩ := encryptBody_cases s
    have := inLen_le_of_validate .encrypt s hv rfl
    exact .inr (.inr (.inl ⟨out, tr, false, false, h, by simp only [Params.outBufBytes]; omega, by simp⟩))
  | decrypt =>
    rcases decryptBody_cases s with ⟨m, h⟩ | ⟨out, tr, pi, po, h, hl, hp⟩
    · exact .inr (.inr (.inr ⟨m, h⟩))
    · have := inLen_le_of_validate .decrypt s hv rfl
      refine .inr (.inr (.inl ⟨out, tr, pi, po, h, ?_, hp⟩))
      simp only [Params.outBufBytes, wholeBlocks] at hl ⊢
      omega

end Sys2Proof.Machine
end

