-- ==== Sys2Proof/Laws/PerInstr.lean ====
section
/-! SUPPORT. What holds of every command as syntax, one lemma per constructor (30_encoding.md R110–R118). -/

namespace Sys2Proof.Laws.TableWord

/-- A command is well formed, its word has OP ≤ 5 and RSV = 0, decodes to it from the opcode table's bits, and prints as its
mnemonic. -/
def Statement (i : Instr) : Prop :=
  i.wf = true ∧ (encode i).toNat ≤ 5 ∧ decode (encode i) = .ok i ∧ decodeTableWord 32 (encode i).toNat = some i ∧
    disassemble (encode i) = mnemonic i

theorem nop : Statement .nop := ⟨rfl, by decide, rfl, rfl, rfl⟩

theorem keysched : Statement .keysched := ⟨rfl, by decide, rfl, rfl, rfl⟩

theorem encBlock : Statement .encBlock := ⟨rfl, by decide, rfl, rfl, rfl⟩

theorem decBlock : Statement .decBlock := ⟨rfl, by decide, rfl, rfl, rfl⟩

theorem encrypt : Statement .encrypt := ⟨rfl, by decide, rfl, rfl, rfl⟩

theorem decrypt : Statement .decrypt := ⟨rfl, by decide, rfl, rfl, rfl⟩

end Sys2Proof.Laws.TableWord
end

