-- ==== Sys2Proof/Laws/Step.lean ====
section
/-! SUPPORT. What a step can do: one inversion lemma over the agents, and the consistency each move keeps. -/

namespace Sys2Proof.Machine

/-- The state an agent moves in differs from the state of the step in its schedule only. -/
theorem nextTurn_state (s : State) : (nextTurn s).2 = { s with sched := (nextTurn s).2.sched } := by
  unfold nextTurn
  split <;> rfl

/-- All that a step which goes on can have been: the host's turn, a reset, an idle turn of the sequencer, the completion of an
illegal word, the completion of a command. -/
theorem step_cases (s t : State) (h : step s = .next t) :
    ((nextTurn s).1 = .host ∧ t = hostTurn (nextTurn s).2) ∨
    ((nextTurn s).1 = .reset ∧ t = applyReset (nextTurn s).2) ∨
    ((nextTurn s).1 = .sequencer ∧
      ((s.seq = .idle ∧ t = (nextTurn s).2) ∨
       (∃ w e, s.seq = .busy w ∧ decode w = .error e ∧ t = raiseError .illegalCommand (nextTurn s).2) ∨
       (∃ w i, s.seq = .busy w ∧ decode w = .ok i ∧ exec i (nextTurn s).2 = .next t))) := by
  have hseq : (nextTurn s).2.seq = s.seq := by rw [nextTurn_state]
  unfold step at h
  cases hg : (nextTurn s).1 with
  | host =>
    rw [hg] at h
    exact .inl ⟨rfl, by simpa [turn] using h.symm⟩
  | reset =>
    rw [hg] at h
    exact .inr (.inl ⟨rfl, by simpa [turn] using h.symm⟩)
  | sequencer =>
    rw [hg] at h
    refine .inr (.inr ⟨rfl, ?_⟩)
    simp only [turn, sequencerTurn] at h
    rw [hseq] at h
    cases hs : s.seq with
    | idle =>
      rw [hs] at h
      exact .inl ⟨rfl, by simpa using h.symm⟩
    | busy w =>
      rw [hs] at h
      simp only [completionStep] at h
      cases hd : decode w with
      | error e =>
        rw [hd] at h
        exact .inr (.inl ⟨w, e, rfl, hd, by simpa using h.symm⟩)
      | ok i =>
        rw [hd] at h
        exact .inr (.inr ⟨w, i, rfl, hd, h⟩)

/-- A step never refuses. -/
theorem step_ne_refused (s : State) (r : Refusal) : step s ≠ .refused r := by
  unfold step turn
  split
  · simp
  · unfold sequencerTurn
    split
    · unfold completionStep
      split
      · exact exec_ne_refused _ _ _
      · simp
    · simp
  · simp

/-- A run whose first step goes on is the run of the rest. -/
theorem run_succ_of_next (k : Nat) (s t : State) (h : step s = .next t) : core.run (k + 1) s = core.run k t := by
  have e : core.step s = .next t := h
  simp only [Host.Core.run, e]

/-- A run whose first step faults faults. -/
theorem run_succ_of_fault (k : Nat) (s : State) (f : Fault) (h : step s = .fault f) : core.run (k + 1) s = .fault f := by
  have e : core.step s = .fault f := h
  simp only [Host.Core.run, e]

/-- Two runs, one after the other. -/
theorem run_add (j k : Nat) (s t : State) (h : core.run j s = .next t) : core.run (j + k) s = core.run k t := by
  induction j generalizing s with
  | zero =>
    have e : s = t := Host.Outcome.next.inj h
    rw [e, Nat.zero_add]
  | succ j ih =>
    have e : j + 1 + k = j + k + 1 := by omega
    cases hs : step s with
    | next u =>
      rw [run_succ_of_next j s u hs] at h
      rw [e, run_succ_of_next (j + k) s u hs]
      exact ih u h
    | fault f =>
      rw [run_succ_of_fault j s f hs] at h
      cases h
    | refused r => exact absurd hs (step_ne_refused s r)

/-- With an empty schedule and an idle core, a step is the host's turn (log 1). -/
theorem step_of_host (s : State) (hs : s.seq = .idle) (hq : s.sched = []) : step s = .next (hostTurn s) := by
  simp [step, nextTurn, hq, defaultAgent, State.busy, hs, turn]

/-- The host's turn at a line of its script. -/
theorem hostTurn_of_line (s : State) (i : ScriptInstr) (hf : s.host.failed = false)
    (hi : s.host.script[s.host.line]? = some i) : hostTurn s = runLine i s := by
  simp [hostTurn, hf, hi]

/-- STATUS as acceptance leaves it is consistent. -/
theorem Status.accepted_consistent (st : Status) : st.accepted.Consistent := by
  constructor <;> simp

/-- STATUS as a failure leaves it is consistent. -/
theorem Status.failedWith_consistent (st : Status) (c : ErrorCode) (h : c ≠ .noError) : (st.failedWith c).Consistent := by
  constructor <;> simp [h]

/-- STATUS as a success leaves it is consistent. -/
theorem Status.completed_consistent (st : Status) (tr pi po : Bool) (h : ¬(pi = true ∧ po = true)) :
    (st.completed tr pi po).Consistent := by
  constructor <;> simp
  simpa using h

/-- A write to STATUS, or one that sets WERR, touches no bit the consistency speaks of. -/
theorem Status.consistent_of_same (st st' : Status) (h : st.Consistent) (h1 : st'.err = st.err)
    (h2 : st'.errcode = st.errcode) (h3 : st'.padinv = st.padinv) (h4 : st'.padok = st.padok)
    (h5 : st'.trunc = st.trunc) : st'.Consistent := by
  obtain ⟨a, b, c, d, e⟩ := h
  constructor <;> simp only [h1, h2, h3, h4, h5] <;> assumption

/-- Acceptance keeps the invariant. -/
theorem accept_consistent (w : Word) (s : State) (h : s.Consistent) : (accept w s).Consistent :=
  { flags := Status.accepted_consistent _
    busy := by
      intro w' hw
      simp only [accept_seq, Seq.busy.injEq] at hw
      exact ⟨hw, rfl⟩
    inBuf := h.inBuf
    outBuf := h.outBuf
    outLen := h.outLen
    result := h.result
    failed := by simp
    params := h.params }

/-- Raising an error keeps the invariant. -/
theorem raiseError_consistent (c : ErrorCode) (s : State) (hc : c ≠ .noError) (h : s.Consistent) :
    (raiseError c s).Consistent :=
  { flags := Status.failedWith_consistent _ c hc
    busy := by simp
    inBuf := h.inBuf
    outBuf := h.outBuf
    outLen := by simp
    result := by simp
    failed := by simp
    params := h.params }

/-- Completing with a result that was just stored keeps the invariant. -/
theorem complete_storeOut_consistent (out : List Byte) (tr pi po : Bool) (s : State)
    (hl : out.length ≤ s.params.outBufBytes) (hp : ¬(pi = true ∧ po = true)) (h : s.Consistent) :
    (complete out.length tr pi po (storeOut out s)).Consistent := by
  have hm := (legal_of_paramsWf _ h.params).2.2.1
  rw [outBufBytes_eq] at hl
  have hn : (BitVec.ofNat 32 out.length).toNat = out.length := by
    rw [BitVec.toNat_ofNat]; omega
  refine { flags := Status.completed_consistent _ tr pi po hp, busy := by simp, inBuf := h.inBuf, outBuf := ?_, outLen := ?_,
           result := ?_, failed := by simp, params := h.params }
  · exact fits_writeBytes _ _ _ _ h.outBuf (by simp only [complete_params, storeOut_params, outBufBytes_eq]; omega)
  · simp only [complete_outLen, hn, complete_params, storeOut_params, outBufBytes_eq]; exact hl
  · intro i hi
    simp only [complete_outLen, hn] at hi
    have := read_writeBytes_inside s.outBuf 0 i out hi
    simp only [Nat.zero_add] at this
    simp [this]

/-- The key schedule keeps the invariant. -/
theorem loadRoundKeys_consistent (s : State) (h : s.Consistent) : (loadRoundKeys s).Consistent :=
  ⟨h.flags, h.busy, h.inBuf, h.outBuf, h.outLen, h.result, h.failed, h.params⟩

/-- No code that Validate raises is NONE. -/
theorem validate_ne_noError (i : Instr) (s : State) (c : ErrorCode) (h : validate i s = some c) : c ≠ .noError := by
  rintro rfl
  unfold validate at h
  repeat' split at h
  all_goals simp at h

end Sys2Proof.Machine
end

