-- ==== Sys2Proof/Tests/Slice0.lean ====
section
/-! SUPPORT. The model's own tests. Expected values come from spec/95_test_vectors.md (the row is named at each test); then one
witness per obligation that has hypotheses: a state and operands that meet them, at the edges of each clause. -/

namespace Sys2Proof.Tests

open Sys2Proof.Machine

/-! ## Helpers -/

/-- The bytes `a`, `a+1`, …, `a+n-1`. -/
def bytesFrom (a n : Nat) : List Byte := (List.range n).map fun i => BitVec.ofNat 8 (a + i)

/-- The key of the spec's examples, bytes 00 to 0F. -/
def key0 : Vector Byte 16 := ⟨#[0, 1, 2, 3, 4, 5, 6, 7, 8, 9, 10, 11, 12, 13, 14, 15], rfl⟩

/-- The IV of the spec's examples, FF EE … 00. -/
def iv0 : Vector Byte 16 :=
  ⟨#[0xFF, 0xEE, 0xDD, 0xCC, 0xBB, 0xAA, 0x99, 0x88, 0x77, 0x66, 0x55, 0x44, 0x33, 0x22, 0x11, 0x00], rfl⟩

/-- The known ciphertext of sixteen zero bytes under `key0` (L1.1). -/
def known : List Byte :=
  [0xC1, 0x1F, 0x22, 0xF2, 0x01, 0x40, 0x50, 0x50, 0x84, 0x48, 0x35, 0x97, 0xE4, 0x37, 0x0F, 0x43]

/-- The padded encryption of bytes 00 to 13 under `key0` and `iv0` (L2.8). -/
def padded20 : List Byte :=
  [0x2F, 0x3C, 0x15, 0x2E, 0x2B, 0xEB, 0x52, 0x8E, 0x8B, 0x38, 0xBB, 0x49, 0xCE, 0xC2, 0x23, 0x33,
   0xD8, 0xCD, 0xF0, 0x6E, 0x1D, 0xAE, 0x93, 0x4A, 0x43, 0x11, 0x91, 0xCC, 0x67, 0xA8, 0xB8, 0xB8]

/-- The first block of the padded encryption of sixteen zero bytes; it decrypts to an invalid padding (L2.8). -/
def unpaddable : List Byte :=
  [0xDB, 0xC5, 0xB3, 0xE2, 0x41, 0xFF, 0xEC, 0x00, 0xCD, 0xF2, 0xBA, 0xCE, 0x21, 0x27, 0xE9, 0xCC]

/-- A buffer that holds `bs` from index 0 on. -/
def bufOf (bs : List Byte) : Memory := Memory.writeBytes [] 0 bs

/-- Parameters with this MAX_MSG, a wider window and a BASE above 0. -/
def paramsOf (m : Nat) : Params := { maxMsg := m, busProtocol := Config.busProtocol, addrBits := 20, base := 0x40000 }

/-- After reset, LDKEY, LDIV and LDIN `bs` (without the zero bytes that LDIN writes after it). -/
def loaded (pad strict : Bool) (bs : List Byte) : State :=
  { State.reset with
    key := key0, keylen := 16, iv := iv0, ivlen := 16, cfg := { pad := pad, strict := strict, ie := false }
    inBuf := bufOf bs, inLen := BitVec.ofNat 32 bs.length }

/-- `s` with the word `w` accepted. -/
def inFlight (w : Word) (s : State) : State := { accept w s with sched := [] }

/-- Whether the very next step after placing `w` completes with this STATUS word, OUT_LEN, RK0 and output. -/
def completes (w : Nat) (s : State) (status : Word) (outLen : Nat) (rk0 : Word) (out : List Byte) : Bool :=
  match step (s.withFetchWord 32 w) with
  | .next t =>
    t.status.word t.busy == status && t.outLen == BitVec.ofNat 32 outLen && t.rk[0] == rk0 &&
      (List.range out.length).all fun i => t.outBuf.read i == some (out.getD i 0)
  | .fault _ => false
  | .refused _ => false

/-- Whether a transaction gives this word. -/
def reads (r : Except Fault Word) (v : Word) : Bool :=
  match r with
  | .ok d => d == v
  | .error _ => false

/-- The state after a write, or `State.reset` after a bus error. -/
def wrote (r : Except Fault State) : State :=
  match r with
  | .ok t => t
  | .error _ => State.reset

/-- Whether a transaction gets the bus error. -/
def busErrs (r : Except Fault Word) : Bool :=
  match r with
  | .ok _ => false
  | .error _ => true

/-! ## Decoding: the words of 30_encoding.md R111, bit by bit -/

theorem test_decode_nop : decode 0b00000000000000000000000000000000 = .ok .nop := by rfl

theorem test_decode_keysched : decode 0b00000000000000000000000000000001 = .ok .keysched := by rfl

theorem test_decode_enc_block : decode 0b00000000000000000000000000000010 = .ok .encBlock := by rfl

theorem test_decode_dec_block : decode 0b00000000000000000000000000000011 = .ok .decBlock := by rfl

theorem test_decode_encrypt : decode 0b00000000000000000000000000000100 = .ok .encrypt := by rfl

theorem test_decode_decrypt : decode 0b00000000000000000000000000000101 = .ok .decrypt := by rfl

/-- The edges of the illegal words (L2.10): OP 6 and 15, RSV ≠ 0. -/
theorem test_decode_illegal :
    decode 0x00000006 = .error .reservedOp ∧ decode 0x0000000F = .error .reservedOp ∧
      decode 0x00000010 = .error .reservedBits ∧ decode 0x80000004 = .error .reservedBits := by
  exact ⟨rfl, rfl, rfl, rfl⟩

/-- The bytes of a word, the lowest offset first; a string of another length is refused by name. -/
theorem test_decode_bytes :
    decodeBytes [0x04, 0x00, 0x00, 0x00] = .ok .encrypt ∧ decodeBytes [0x00, 0x00, 0x00, 0x04] = .error .reservedBits ∧
      decodeBytes [0x04, 0x00] = .error .wrongLength ∧ decodeBytes [] = .error .wrongLength := by
  exact ⟨rfl, rfl, rfl, rfl⟩

theorem test_disassemble :
    disassemble 0x3 = "DEC_BLOCK" ∧ disassemble 0x8000001A = ".word 0x8000001A ; illegal" := by decide

/-! ## Well-formedness: an ill-formed term for each check -/

theorem test_wordWf : wordWf 0x5 = true ∧ wordWf 0x6 = false ∧ wordWf 0x10 = false := by decide

theorem test_maxMsgWf :
    maxMsgWf 4096 = true ∧ maxMsgWf 4097 = false ∧ maxMsgWf 0 = false ∧ maxMsgWf 65536 = false := by decide

/-- Each check of the parameters refuses an ill-formed one; the edges of MAX_MSG pass. -/
theorem test_paramsWf :
    paramsWf (paramsOf 16) = true ∧ paramsWf (paramsOf 65520) = true ∧ paramsWf (paramsOf 65536) = false ∧
      paramsWf { paramsOf 16 with addrBits := 17 } = false ∧ paramsWf { paramsOf 16 with base := 0x20000 } = false ∧
      busProtocolWf { Config.busProtocol with errorResponse := false } = false ∧
      busProtocolWf { Config.busProtocol with readBytes := [4, 2] } = false ∧
      busProtocolWf { Config.busProtocol with writeBytes := [4] } = false := by decide

theorem test_scriptWf :
    scriptWf Config.params (expand 0 .wait) = true ∧ scriptWf Config.params [.bnz 0x1 2] = false ∧
      scriptWf Config.params [.bz 0x1 2] = false ∧ scriptWf Config.params [.rd8 0x40000] = false := by decide

theorem test_pseudoWf :
    pseudoWf Config.params (.ldin (List.replicate 16 0)) = true ∧ pseudoWf Config.params (.ldin (List.replicate 4097 0)) = false := by
  decide +kernel

/-! ## The commands (L2.9, L2.10) -/

/-- L2.9 row 1. -/
theorem test_nop_reset : completes 0 State.reset 0x00000002 0 0 [] = true := by decide +kernel

/-- 46_commands.md R255: NOP sets OUT_LEN to 0 and leaves RK and OUT_BUF. -/
theorem test_nop_keeps :
    completes 0 { loaded true true [] with outLen := 1, outBuf := bufOf [0xAB], rk := Vector.replicate 32 7 }
      0x00000002 0 7 [0xAB] = true := by decide +kernel

/-- L2.9 row 2. -/
theorem test_keysched : completes 1 (loaded false false []) 0x00000002 0 0xC119F584 [] = true := by decide +kernel

/-- L2.10 row 1. -/
theorem test_keysched_key_length : completes 1 State.reset 0x00000106 0 0 [] = true := by decide +kernel

/-- L2.9 row 3. -/
theorem test_enc_block :
    completes 2 (loaded false false (List.replicate 16 0)) 0x00000002 16 0xC119F584 known = true := by decide +kernel

/-- L2.10 row 5. -/
theorem test_enc_block_size : completes 2 (loaded false false (List.replicate 15 0)) 0x00000206 0 0 [] = true := by
  decide +kernel

/-- L2.9 row 4. -/
theorem test_dec_block :
    completes 3 (loaded false false known) 0x00000002 16 0xC119F584 (List.replicate 16 0) = true := by decide +kernel

/-- L2.10 row 14: the length check comes before the key check. -/
theorem test_dec_block_priority : completes 3 { State.reset with inLen := 0xFFFFFFFF } 0x00000606 0 0 [] = true := by
  decide +kernel

/-- L2.9 row 5. -/
theorem test_encrypt_padded :
    completes 4 (loaded true false (bytesFrom 0 20)) 0x00000002 32 0xC119F584 padded20 = true := by decide +kernel

/-- L2.9 row 9: unpadded, truncated, an IVLEN of 5 ignored. -/
theorem test_encrypt_truncates :
    completes 4 { loaded false false (bytesFrom 0 20) with ivlen := 5 } 0x0000000A 16 0xC119F584
      [0xA6, 0xE8, 0xD7, 0x32, 0x5B, 0xBE, 0x09, 0x98, 0xCF, 0x23, 0x5C, 0x1B, 0x57, 0xE6, 0x43, 0x60] = true := by
  decide +kernel

/-- L2.9 row 6. -/
theorem test_decrypt_padded :
    completes 5 (loaded true false padded20) 0x00000022 20 0xC119F584 (bytesFrom 0 20) = true := by decide +kernel

/-- L2.10 row 9: INVALID_PADDING after decryption, RK written. -/
theorem test_decrypt_invalid_padding : completes 5 (loaded true true unpaddable) 0x00000406 0 0xC119F584 [] = true := by
  decide +kernel

/-- L2.10 last row: an ENCRYPT with a high bit set. -/
theorem test_illegal_word : completes 0x80000004 State.reset 0x00000706 0 0 [] = true := by decide +kernel

/-- 46_commands.md R263: the sixteenth byte is missing. -/
theorem test_unwritten_input :
    step (State.withFetchWord { loaded false false (List.replicate 15 0) with inLen := 16 } 32 2) = .fault .uninitRead := by
  rfl

/-! ## The bus (L2.11) -/

theorem test_bus_id : reads (memRead 0x000 .w32 State.reset) 0x5EED0128 = true := by decide

theorem test_bus_errors :
    (busErrs (memRead 0x000 .w16 State.reset) && busErrs (memRead 0x008 .w8 State.reset) &&
      busErrs (memRead 0x002 .w32 State.reset) && busErrs (memRead 0x040 .w32 State.reset) &&
      busErrs (memRead 0x100 .w32 State.reset) && busErrs (memRead 0x11000 .w32 State.reset) &&
      busErrs (memRead 0x21010 .w32 State.reset) && busErrs (memRead 0x10001 .w16 State.reset)) = true := by decide

theorem test_bus_lanes :
    (reads (memRead 0x10006 .w8 (wrote (memWrite 0x10004 .w32 0x44332211 State.reset))) 0x33 &&
      reads (memRead 0x10006 .w16 (wrote (memWrite 0x10004 .w32 0x44332211 State.reset))) 0x4433) = true := by decide

theorem test_bus_reserved_bits :
    (reads (memRead 0x00C .w32 (wrote (memWrite 0x00C .w32 0xFFFFFFFF State.reset))) 0x7 &&
      reads (memRead 0x010 .w32 (wrote (memWrite 0x010 .w32 0x1234 State.reset))) 0x34) = true := by decide

theorem test_bus_key_word :
    reads (memRead 0x020 .w32 (wrote (memWrite 0x020 .w32 0x03020100 State.reset))) 0x03020100 = true := by decide

theorem test_bus_accept :
    (reads (memRead 0x004 .w32 (wrote (memWrite 0x004 .w32 0x12345678 State.reset))) 0x12345678 &&
      reads (memRead 0x008 .w32 (wrote (memWrite 0x004 .w32 0x12345678 State.reset))) 0x1) = true := by decide

/-- A write to IN_LEN while BUSY = 1 is ignored and sets WERR; the NOP then completes with STATUS 0x42. -/
theorem test_bus_late_write :
    (match step (wrote (memWrite 0x018 .w32 5 (wrote (memWrite 0x004 .w32 0 State.reset)))) with
      | .next t => t.inLen == 0 && reads (memRead 0x008 .w32 t) 0x42
      | .fault _ => false
      | .refused _ => false) = true := by decide

theorem test_bus_clear_werr :
    reads (memRead 0x008 .w32 (wrote (memWrite 0x008 .w32 0x40
      { State.reset with status := { Status.reset with done := true, werr := true } }))) 0x2 = true := by decide

/-! ## The cipher (L2.1 to L2.7) -/

theorem test_words :
    byteAt 0x01234567 0 = 0x67 ∧ byteAt 0x80000001 3 = 0x80 ∧ swapEndian 0x01234567 = 0x67452301 ∧
      le32 [0, 1, 2, 3] 0 = 0x03020100 ∧ be32bytes 0xC119F584 = [0xC1, 0x19, 0xF5, 0x84] := by decide

theorem test_tables :
    ss0 0x01 = 0x05858184 ∧ ss1 0x80 = 0x80018181 ∧ ss2 0xFF = 0x92981A8A ∧ ss3 0x00 = 0x08303838 ∧ kc 15 = 0xBCDCCF1B ∧
      s1 0xFF = 0x9A ∧ s2 0x80 = 0x81 := by decide +kernel

theorem test_g : gFun 0x01234567 = 0x27E4246B ∧ gFun 0x80000000 = 0x31980010 ∧ gFun 1 = 0x94259805 := by decide +kernel

theorem test_key_schedule :
    let rk := keySchedule key0.toList
    rkWord rk 1 = 0x5AE033A0 ∧ rkWord rk 2 = 0x62947390 ∧ rkWord rk 17 = 0x51679CE6 ∧ rkWord rk 31 = 0xA4EF9F9B := by
  decide +kernel

/-- L2.6: with zero round keys. -/
theorem test_block_zero_keys :
    encryptBlock (List.replicate 16 0) (Vector.replicate 32 0) =
      [0xAB, 0x9B, 0x38, 0xCB, 0x81, 0x38, 0xC2, 0xD4, 0x0E, 0xE8, 0xBB, 0x02, 0xBC, 0x54, 0xA1, 0xE3] := by
  decide +kernel

theorem test_pad : pad (bytesFrom 0 15) = bytesFrom 0 15 ++ [0x01] ∧ pad [] = List.replicate 16 0x10 := by decide

theorem test_unpad :
    unpad (List.replicate 15 0 ++ [0x01]) = (List.replicate 15 0, true) ∧
      unpad (List.replicate 15 0 ++ [0x11]) = (List.replicate 15 0 ++ [0x11], false) ∧
      unpad (List.replicate 16 0x10) = ([], true) ∧
      unpad (List.replicate 14 0 ++ [0x01, 0x02]) = (List.replicate 14 0 ++ [0x01, 0x02], false) := by decide

/-! ## Witnesses: states and operands that meet the hypotheses of the obligations -/

theorem witness_DecodeIsTotalAndExact :
    (∃ i, decode 0x00000005 = .ok i) ∧ State.reset.busy = false ∧
      6 ≤ ((0x00000006 : Word).extractLsb' 0 4).toNat ∧ (0x00000010 : Word).extractLsb' 4 28 ≠ 0 :=
  ⟨⟨.decrypt, rfl⟩, rfl, by decide, by decide⟩

/-- Legal parameters, for every statement with that premise, and a core of the least MAX_MSG that runs a block command. -/
theorem witness_params :
    paramsWf State.reset.params = true ∧ paramsWf { State.reset with params := paramsOf 16 }.params = true ∧
      (let s := { loaded true true known with params := paramsOf 16 }
       s.keylen = 16 ∧ s.inLen = 16 ∧ known.length = 16 ∧ validate .encBlock s = none) :=
  ⟨paramsWf_config, by decide, rfl, rfl, rfl, by decide⟩

/-- The edges of a window that is not at 0: its first and last address, and their neighbours outside it. -/
theorem witness_RegisterReads :
    windowOffset (paramsOf 16) 0x40000 = some 0 ∧ windowOffset (paramsOf 16) 0x13FFFF = some 0xFFFFF ∧
      windowOffset (paramsOf 16) 0x3FFFF = none ∧ windowOffset (paramsOf 16) 0x140000 = none := by decide

theorem witness_StepRunsDecodedCommand :
    (inFlight 0 State.reset).seq = .busy 0 ∧ decode 0 = .ok .nop ∧ (inFlight 0 State.reset).sched = [] ∧
      { inFlight 0 State.reset with sched := [.sequencer, .host] }.sched = .sequencer :: [.host] ∧
      (inFlight 6 State.reset).seq = .busy 6 ∧ decode 6 = .error .reservedOp := ⟨rfl, rfl, rfl, rfl, rfl, rfl⟩

theorem witness_IllegalWordFails :
    (0x00000010 : Word).extractLsb' 4 28 ≠ 0 ∧ 6 ≤ ((0x0000000F : Word).extractLsb' 0 4).toNat ∧
      State.reset.busy = false ∧ State.reset.status.werr = false := by decide

theorem witness_ResetTurnSetsEverything :
    { inFlight 2 (loaded true true known) with sched := [.reset, .host] }.sched = .reset :: [.host] ∧
      (inFlight 2 (loaded true true known)).busy = true := ⟨rfl, rfl⟩

/-- A consistent state that is neither reset nor idle, and a step it takes. -/
theorem witness_StepKeepsConsistency :
    ∃ t, State.Consistent (inFlight 0 { State.reset with outLen := 1, outBuf := [(0, 0xAB)] }) ∧
      step (inFlight 0 { State.reset with outLen := 1, outBuf := [(0, 0xAB)] }) = .next t := by
  refine ⟨_, ⟨?_, ?_, ?_, ?_, ?_, ?_, ?_, paramsWf_config⟩, rfl⟩
  · constructor <;> decide
  · intro w hw
    cases hw
    exact ⟨rfl, rfl⟩
  · exact ⟨List.Pairwise.nil, by intro c hc; cases hc⟩
  · refine ⟨List.pairwise_singleton _ _, ?_⟩
    intro c hc
    cases hc with
    | head => decide
    | tail _ h => cases h
  · decide
  · decide
  · intro h
    cases h

theorem witness_NopCompletes : State.reset.status.werr = false := rfl

theorem witness_KeyschedCompletes :
    (loaded false false []).keylen = 16 ∧ { loaded false false [] with keylen := 15 }.keylen ≠ 16 ∧
      { loaded false false [] with keylen := 17 }.keylen ≠ 16 := by decide

theorem witness_BlockCommandsComplete :
    (loaded true true known).keylen = 16 ∧ (loaded true true known).inLen = 16 ∧ known.length = 16 ∧
      InputIs known (loaded true true known) := by
  unfold InputIs
  decide +kernel

/-- Both chaining seeds, the strict mode and an empty message. -/
theorem witness_PaddedEncryptCompletes :
    let s := loaded true true (bytesFrom 0 20)
    let e := { loaded true false [] with ivlen := 0 }
    (s.cfg.pad = true ∧ s.keylen = 16 ∧ (bytesFrom 0 20).length = s.inLen.toNat ∧ (bytesFrom 0 20).length ≤ s.params.maxMsg ∧
      InputIs (bytesFrom 0 20) s ∧ s.ivlen = 16) ∧
    (e.cfg.pad = true ∧ e.keylen = 16 ∧ ([] : List Byte).length = e.inLen.toNat ∧ InputIs [] e ∧ e.ivlen = 0) := by
  unfold InputIs
  decide +kernel

/-- A truncated input whose last byte is not written, and a whole one in strict mode. -/
theorem witness_UnpaddedEncryptCompletes :
    let s := { loaded false false known with inLen := 17 }
    let z := loaded false true known
    (s.cfg.pad = false ∧ s.keylen = 16 ∧ s.inLen.toNat ≤ s.params.maxMsg ∧ (s.cfg.strict = true → s.inLen.toNat % 16 = 0) ∧
      known.length = s.inLen.toNat - s.inLen.toNat % 16 ∧ InputIs known s) ∧
    (z.cfg.strict = true ∧ z.inLen.toNat % 16 = 0 ∧ known.length = z.inLen.toNat - z.inLen.toNat % 16 ∧ InputIs known z) := by
  unfold InputIs
  decide +kernel

/-- A valid padding in strict mode, an invalid one with a dropped byte and no IV in the other. -/
theorem witness_PaddedDecryptCompletes :
    let s := loaded true true padded20
    let z := { loaded true false unpaddable with inLen := 17, ivlen := 0 }
    (s.cfg.pad = true ∧ s.keylen = 16 ∧ s.inLen.toNat ≤ s.params.maxMsg ∧ s.ivlen = 16 ∧
      padded20.length = s.inLen.toNat - s.inLen.toNat % 16 ∧ InputIs padded20 s ∧ s.inLen.toNat % 16 = 0 ∧
      (unpad (cbcDecrypt padded20 s.iv.toList (keySchedule s.key.toList))).2 = true) ∧
    (z.cfg.pad = true ∧ z.cfg.strict = false ∧ z.ivlen = 0 ∧ unpaddable.length = z.inLen.toNat - z.inLen.toNat % 16 ∧
      InputIs unpaddable z) := by
  unfold InputIs
  decide +kernel

theorem witness_UnpaddedDecryptCompletes :
    let s := { loaded false false known with inLen := 31 }
    s.cfg.pad = false ∧ s.keylen = 16 ∧ s.inLen.toNat ≤ s.params.maxMsg ∧ s.cfg.strict = false ∧
      known.length = s.inLen.toNat - s.inLen.toNat % 16 ∧ InputIs known s := by
  unfold InputIs
  decide +kernel

theorem witness_StrictInvalidPaddingFails :
    let s := loaded true true unpaddable
    s.cfg.pad = true ∧ s.cfg.strict = true ∧ s.keylen = 16 ∧ s.inLen.toNat ≤ s.params.maxMsg ∧ s.inLen.toNat % 16 = 0 ∧
      s.ivlen = 16 ∧ unpaddable.length = s.inLen.toNat ∧ InputIs unpaddable s ∧
      (unpad (cbcDecrypt unpaddable s.iv.toList (keySchedule s.key.toList))).2 = false := by
  unfold InputIs
  decide +kernel

/-- Each check failing alone, at the edges: 4097 and 4096, 15 and 17, IVLEN 15 and 17, IN_LEN 15 and 17; and none failing. -/
theorem witness_FirstFailingCheckIsReported :
    decode 0x6 = .error .reservedOp ∧
    validate .encBlock { loaded false false [] with inLen := 4097 } = some .invalidLength ∧
    validate .decrypt { loaded false false [] with inLen := 4096 } = none ∧
    validate .keysched { loaded false false [] with keylen := 15, inLen := 4097 } = some .invalidKeyLength ∧
    validate .encrypt { loaded true false [] with ivlen := 15 } = some .invalidIvLength ∧
    validate .decrypt { loaded true false [] with ivlen := 17 } = some .invalidIvLength ∧
    validate .encBlock { loaded false false [] with inLen := 15 } = some .invalidBlockSize ∧
    validate .decBlock { loaded false false [] with inLen := 17 } = some .invalidBlockSize ∧
    validate .encrypt { loaded false true [] with inLen := 17 } = some .truncatedInput ∧
    validate .decrypt { loaded true true [] with inLen := 1 } = some .truncatedInput ∧
    validate .encrypt { loaded true true [] with inLen := 17 } = none := by
  refine ⟨rfl, ?_⟩
  decide

/-- The last clause: INVALID_PADDING is what is left when every check passes. -/
theorem witness_FirstFailingCheckIsReported_last :
    ∃ t, exec .decrypt (loaded true true unpaddable) = .next t ∧ t.status.err = true := by
  generalize hS : loaded true true unpaddable = S
  have hv : validate .decrypt S = none := by rw [← hS]; decide
  have hw : inputWritten (bytesRead .decrypt S) S = true := by rw [← hS]; decide +kernel
  have hr : (decryptMsg (inputBytes S.inLen.toNat S) (loadRoundKeys S).rk (ivSeed S) S.cfg.pad).2.2 = .invalid := by
    rw [← hS]; decide +kernel
  have hs : S.cfg.strict = true := by rw [← hS]; rfl
  exact ⟨_, (exec_of_ok .decrypt S hv hw).trans (congrArg _ (finishDecrypt_of_invalid _ (loadRoundKeys S) ⟨hr, hs⟩)), rfl⟩

theorem witness_UnwrittenInputFaults :
    validate .keysched State.reset = some .invalidKeyLength ∧
    validate .encBlock { loaded false false (List.replicate 15 0) with inLen := 16 } = none ∧
    { loaded false false (List.replicate 15 0) with inLen := 16 }.inBuf.read 15 = none ∧
    (∀ k, k < 16 → (loaded false false known).inBuf.read k ≠ none) ∧
    (∀ k, k < 31 - 31 % 16 → { loaded false false known with inLen := 31 }.inBuf.read k ≠ none) ∧
    { loaded false false known with inLen := 31 }.inBuf.read 16 = none := by
  decide +kernel

theorem witness_OnlyNopSucceedsBeforeKeylen :
    { State.reset with keylen := 15, inLen := 4096 }.keylen ≠ 16 ∧
      { State.reset with keylen := 17, inLen := 4096 }.inLen.toNat ≤ State.reset.params.maxMsg := by decide

/-- For CommandsNeverWriteInputs, RoundKeysKeptOrRecomputed, OutputBytesOutsideResultKept, OldRoundKeysNeverMatter: a command that
succeeds, one that fails in Validate and NOP. -/
theorem witness_commands :
    (∃ t, exec .keysched (loaded false false []) = .next t ∧ t.status.err = false) ∧
      validate .keysched (loaded false false []) = none ∧
      (∃ t, exec .encrypt State.reset = .next t ∧ t.status.err = true) ∧ validate .encrypt State.reset ≠ none ∧
      (∃ t, exec .nop State.reset = .next t) :=
  ⟨⟨_, rfl, rfl⟩, by decide, ⟨_, rfl, rfl⟩, by decide, ⟨_, rfl⟩⟩

theorem witness_UnreadOperandsNeverMatter :
    (∃ t, exec .keysched (loaded false false []) = .next t) ∧ (∃ t, exec .decBlock State.reset = .next t) ∧
      exec .encBlock { loaded true true [] with inLen := 16 } = .fault .uninitRead ∧
      (loaded false true []).cfg.pad = false ∧ (∃ t, exec .encrypt { loaded false true [] with inLen := 1 } = .next t) ∧
      exec .decrypt { loaded false true [] with inLen := 16 } = .fault .uninitRead ∧
      (paramsOf 4096).maxMsg = State.reset.params.maxMsg ∧ (∃ t, step State.reset = .next t) :=
  ⟨⟨_, rfl⟩, ⟨_, rfl⟩, rfl, rfl, ⟨_, rfl⟩, rfl, rfl, ⟨_, rfl⟩⟩

/-- Two input buffers that agree on the whole block and differ in the dropped byte. -/
theorem witness_DroppedBytesNeverMatter :
    let s := { loaded false false (known ++ [0x55]) with inLen := 17 }
    s.cfg.pad = false ∧ (∀ k, k < s.inLen.toNat - s.inLen.toNat % 16 → (bufOf known).read k = s.inBuf.read k) ∧
      (bufOf known).read 16 ≠ s.inBuf.read 16 ∧ inputWritten (bytesRead .encrypt s) s = true := by
  decide +kernel

/-- The edges of the map: the first and last mapped offsets of each region and their neighbours, widths and alignments. -/
theorem witness_BusErrorsExactlyWhere :
    (locate Config.params 0x03C .w32).isSome = true ∧ locate Config.params 0x040 .w32 = none ∧ locate Config.params 0x07C .w32 = none ∧
    (locate Config.params 0x080 .w32).isSome = true ∧ (locate Config.params 0x0FC .w32).isSome = true ∧ locate Config.params 0x100 .w32 = none ∧
    locate Config.params 0x0FFFC .w32 = none ∧ (locate Config.params 0x10000 .w8).isSome = true ∧ (locate Config.params 0x10FFC .w32).isSome = true ∧
    (locate Config.params 0x10FFF .w8).isSome = true ∧ locate Config.params 0x11000 .w8 = none ∧ (locate Config.params 0x20000 .w32).isSome = true ∧
    (locate Config.params 0x2100E .w16).isSome = true ∧ locate Config.params 0x21010 .w8 = none ∧ locate Config.params 0x3FFFC .w32 = none ∧
    locate Config.params 0x008 .w16 = none ∧ locate Config.params 0x002 .w32 = none ∧ locate Config.params 0x10001 .w16 = none := by decide

/-- The two clauses' hypotheses as the statement writes them: an unmapped byte, and four mapped bytes at IN_BUF's end. -/
theorem witness_BusErrorsExactlyWhere_mapped :
    (∃ j, j < Width.w32.bytes ∧ ¬ MappedByte Config.params (0x040 + j)) ∧ (∀ j, j < Width.w32.bytes → MappedByte Config.params (0x10FFC + j)) := by
  simp only [MappedByte, Config.params, Width.bytes]
  exact ⟨⟨0, by omega⟩, fun j hj => by omega⟩

/-- And for ReadsChangeNoCoreState: an okay read and a bus error. -/
theorem witness_BusErrorChangesNoCoreState :
    (∃ d, memRead 0x10001 .w8 State.reset = .ok d) ∧ memWrite 0x07C .w32 1 State.reset = .error (.busError 0x07C 4) ∧
      memRead 0x10001 .w16 State.reset = .error (.busError 0x10001 2) := ⟨⟨_, rfl⟩, rfl, rfl⟩

/-- For RegisterReads to ReadsWhileBusyAreFree, HostTurnKeepsOutputsAndBusyInputs and the other bus statements: not busy, busy, the last aligned place of each width. -/
theorem witness_bus :
    State.reset.busy = false ∧ State.reset.seq = .idle ∧ (inFlight 1 State.reset).busy = true ∧
      (inFlight 1 State.reset).seq = .busy 1 ∧
      (4092 % Width.w32.bytes = 0 ∧ 4092 + Width.w32.bytes ≤ State.reset.params.maxMsg) ∧
      (4094 % Width.w16.bytes = 0 ∧ 4094 + Width.w16.bytes ≤ State.reset.params.maxMsg) ∧
      (4095 % Width.w8.bytes = 0 ∧ 4095 + Width.w8.bytes ≤ State.reset.params.maxMsg) ∧
      (4108 % Width.w32.bytes = 0 ∧ 4108 + Width.w32.bytes ≤ State.reset.params.maxMsg + 16) ∧
      (4111 % Width.w8.bytes = 0 ∧ 4111 + Width.w8.bytes ≤ State.reset.params.maxMsg + 16) := by decide

/-- For InputBufferReads and ReadsWhileBusyAreFree: a written byte, an unwritten one, a lane above the width. -/
theorem witness_InputBufferReads :
    (bufOf known).read 15 = some 0x43 ∧ (bufOf known).read 16 = none ∧ Width.w16.bytes ≤ 2 ∧
      (inFlight 1 (loaded false false known)).busy = true ∧ (inFlight 1 (loaded false false known)).inBuf.read 0 = some 0xC1 := by
  decide +kernel

/-- A consistent idle state with a one-byte result: lane 0 has a value, lane 1 is above it. -/
theorem witness_OutputBufferReads :
    State.Consistent { State.reset with outLen := 1, outBuf := [(0, 0xAB)] } ∧
      { State.reset with outLen := 1, outBuf := [(0, 0xAB)] }.busy = false ∧
      0 + 0 < { State.reset with outLen := 1, outBuf := [(0, 0xAB)] }.outLen.toNat ∧
      { State.reset with outLen := 1, outBuf := [(0, 0xAB)] }.outLen.toNat ≤ 0 + 1 := by
  refine ⟨⟨?_, ?_, ?_, ?_, ?_, ?_, ?_, paramsWf_config⟩, by decide, by decide, by decide⟩
  · constructor <;> decide
  · intro w hw
    cases hw
  · exact ⟨List.Pairwise.nil, by intro c hc; cases hc⟩
  · refine ⟨List.pairwise_singleton _ _, ?_⟩
    intro c hc
    cases hc with
    | head => decide
    | tail _ h => cases h
  · decide
  · decide
  · intro h
    cases h

/-- The same after a failed command: ERR = 1 and nothing listed. -/
theorem witness_OutputBufferReads_failed :
    State.Consistent (failedState .illegalCommand State.reset) ∧
      (failedState .illegalCommand State.reset).status.err = true ∧ (failedState .illegalCommand State.reset).outBuf = [] := by
  refine ⟨⟨?_, ?_, ?_, ?_, ?_, ?_, ?_, paramsWf_config⟩, rfl, rfl⟩
  · constructor <;> decide
  · intro w hw
    cases hw
  · exact ⟨List.Pairwise.nil, by intro c hc; cases hc⟩
  · exact ⟨List.Pairwise.nil, by intro c hc; cases hc⟩
  · decide
  · intro i h
    cases h
  · intro _
    rfl

/-- WERR cleared by the host's CLRWERR, and by a reset. -/
theorem witness_WerrIsSticky :
    let s := { State.reset with
      status := { Status.reset with werr := true }, host := { HostAgent.empty with script := expand 0 .clrwerr } }
    (∃ t, step s = .next t ∧ s.status.werr = true ∧ t.status.werr = false) ∧
      (∃ t, step { s with sched := [.reset] } = .next t ∧ t.status.werr = false) :=
  ⟨⟨_, rfl, rfl, rfl⟩, ⟨_, rfl, rfl⟩⟩

theorem witness_InterruptOutput :
    (∃ t, memWrite 0x008 .w32 0x2 { State.reset with cfg := { pad := false, strict := false, ie := true } } = .ok t) ∧
      (∃ t, memWrite 0x004 .w32 0 State.reset = .ok t) ∧ (0x3 : Word).getLsbD 2 = false ∧
      (0x2 : Word).getLsbD 1 = true ∧
      (∃ t, memWrite 0x00C .w32 0x3 State.reset = .ok t) ∧ (∃ t, completionStep 0 State.reset = .next t) ∧
      (∃ t, completionStep 6 State.reset = .next t) :=
  ⟨⟨_, rfl⟩, ⟨_, rfl⟩, rfl, rfl, ⟨_, rfl⟩, ⟨_, rfl⟩, ⟨_, rfl⟩⟩

theorem witness_ScriptLines :
    let s := { State.reset with host := { HostAgent.empty with script := [.bnz 0x1 0] } }
    (∃ s', memWrite 0x018 .w32 5 s = .ok s') ∧ (∃ d, memRead 0x000 .w32 s = .ok d) ∧ s.host.failed = false ∧
      s.host.script[s.host.line]? = some (.bnz 0x1 0) ∧ State.reset.host.script[State.reset.host.line]? = none ∧
      { HostAgent.empty with failed := true }.failed = true :=
  ⟨⟨_, rfl⟩, ⟨_, rfl⟩, rfl, rfl, rfl, rfl⟩

/-- A script of a line, LDKEY (or LDIV, or LDIN of 17 bytes), and a line, with the host at the second. -/
theorem witness_scripts :
    let at1 (p : Pseudo) : State := { State.reset with
      host := { HostAgent.empty with script := [.rd32 0] ++ expand 1 p ++ [.rd32 0], line := 1 } }
    ((at1 (.ldkey key0)).seq = .idle ∧ (at1 (.ldkey key0)).sched = [] ∧ (at1 (.ldkey key0)).host.failed = false ∧
      (at1 (.ldkey key0)).host.line = ([.rd32 0] : List ScriptInstr).length ∧
      (at1 (.ldkey key0)).host.script = [.rd32 0] ++ expand ([.rd32 0] : List ScriptInstr).length (.ldkey key0) ++ [.rd32 0]) ∧
    ((at1 (.ldiv iv0)).host.script = [.rd32 0] ++ expand ([.rd32 0] : List ScriptInstr).length (.ldiv iv0) ++ [.rd32 0]) ∧
    ((known ++ [0]).length ≤ State.reset.params.maxMsg ∧ (at1 (.ldin (known ++ [0]))).host.script =
      [.rd32 0] ++ expand ([.rd32 0] : List ScriptInstr).length (.ldin (known ++ [0])) ++ [.rd32 0]) :=
  ⟨⟨rfl, rfl, rfl, rfl, rfl⟩, rfl, by decide, rfl⟩

/-- An illegal word, a command whose input is written, one that fails in Validate, and one with an unwritten byte. -/
theorem witness_CommandCompletesOnceScheduled :
    ({ inFlight 6 State.reset with sched := [.host, .host] }.seq = .busy 6 ∧
      { inFlight 6 State.reset with sched := [.host, .host] }.sched = List.replicate 2 .host ∧
      (inFlight 0 State.reset).sched = List.replicate 0 .host) ∧
    (decode 6 = .error .reservedOp ∧ decode 2 = .ok .encBlock) ∧
    inputReady .encBlock (inFlight 2 (loaded false false known)) = true ∧
    inputReady .encBlock (inFlight 2 State.reset) = true ∧
    inputReady .encBlock (inFlight 2 { loaded false false [] with inLen := 16 }) = false :=
  ⟨⟨rfl, rfl, rfl⟩, ⟨rfl, rfl⟩, by decide +kernel⟩

/-- For the statements on blocks and messages: sixteen bytes, an IV, a whole and a partial message. -/
theorem witness_cipher :
    known.length = 16 ∧ iv0.toList.length = 16 ∧ padded20.length % 16 = 0 ∧ 1 < padded20.length / 16 ∧
      0 < padded20.length / 16 ∧ (List.replicate 15 0 ++ [0x01] : List Byte).length = 16 := by decide

/-- MessageLengths: a padding that is valid, and one that is not. -/
theorem witness_MessageLengths :
    (decryptMsg padded20 (keySchedule key0.toList) iv0.toList true).2.2 = .valid ∧
      (decryptMsg unpaddable (keySchedule key0.toList) iv0.toList true).2.2 = .invalid := by decide +kernel

/-- MachineRoundTrip: a message of 20 bytes, and a second core that holds the first one's output as its input. -/
theorem witness_MachineRoundTrip :
    let s := loaded true false (bytesFrom 0 20)
    let t := encryptBody s
    let u := { loaded true true [] with inBuf := t.outBuf, inLen := t.outLen, params := paramsOf 32 }
    (s.cfg.pad = true ∧ s.keylen = 16 ∧ s.ivlen = 16 ∧ (bytesFrom 0 20).length = s.inLen.toNat ∧
      (bytesFrom 0 20).length ≤ s.params.maxMsg) ∧
    exec .encrypt s = .next t ∧ (bytesFrom 0 20).length < u.params.maxMsg ∧ paramsWf u.params = true ∧
    (u.key = s.key ∧ u.keylen = s.keylen ∧ u.iv = s.iv ∧ u.ivlen = s.ivlen ∧ u.cfg.pad = true ∧ u.inLen = t.outLen ∧
      ∀ j, j < t.outLen.toNat → u.inBuf.read j = t.outBuf.read j) :=
  ⟨by decide, rfl, by decide, by decide, rfl, rfl, rfl, rfl, rfl, rfl, fun _ _ => rfl⟩

theorem witness_MachineRoundTrip_input : InputIs (bytesFrom 0 20) (loaded true false (bytesFrom 0 20)) := by
  unfold InputIs
  decide +kernel

end Sys2Proof.Tests
end

namespace Sys2Proof.Machine

/-! ### The invariant under each move of an agent -/

/-- The invariant speaks of the core and the parameters only: the host agent, the schedule and the draw counter are free. -/
theorem State.Consistent.of_same_core {s : State} (h : s.Consistent) (ho : HostAgent) (sc : List Agent) (d : Nat) :
    State.Consistent { s with host := ho, sched := sc, draws := d } :=
  ⟨h.flags, h.busy, h.inBuf, h.outBuf, h.outLen, h.result, h.failed, h.params⟩

/-- A reset turn keeps the invariant: every buffer is empty and every flag clear (70_reset_and_hazards.md R341). -/
theorem applyReset_consistent (s : State) (h : s.Consistent) : (applyReset s).Consistent where
  flags := Status.accepted_consistent Status.reset
  busy := fun _ hw => Seq.noConfusion hw
  inBuf := ⟨List.Pairwise.nil, fun _ hc => absurd hc List.not_mem_nil⟩
  outBuf := ⟨List.Pairwise.nil, fun _ hc => absurd hc List.not_mem_nil⟩
  outLen := Nat.zero_le _
  result := fun _ hi => absurd hi (Nat.not_lt_zero _)
  failed := fun _ => rfl
  params := h.params

/-- A change of DONE and WERR that sets no DONE keeps the invariant: no other flag moves, and while Busy DONE is already 0
(10_state.md R34, 46_commands.md R250). -/
theorem setDoneWerr_consistent (d w : Bool) (s : State) (hd : d = true → s.status.done = true) (h : s.Consistent) :
    State.Consistent { s with status := { s.status with done := d, werr := w } } where
  flags := Status.consistent_of_same _ _ h.flags rfl rfl rfl rfl rfl
  busy := by
    intro x hx
    obtain ⟨hl, ha⟩ := h.busy x hx
    have hf : s.status.done = false := by rw [ha]; rfl
    obtain rfl : d = false := by simpa [hf] using hd
    exact ⟨hl, by rw [ha]; rfl⟩
  inBuf := h.inBuf
  outBuf := h.outBuf
  outLen := h.outLen
  result := h.result
  failed := h.failed
  params := h.params

/-- A write to STATUS keeps the invariant: it only clears DONE and WERR (10_state.md R34). -/
theorem writeReg_status_consistent (v : Word) (s : State) (h : s.Consistent) : (writeReg .status v s).Consistent :=
  setDoneWerr_consistent _ _ s (fun hd => (Bool.and_eq_true_iff.mp hd).1) h

/-- An ignored write keeps the invariant: it only sets WERR (20_memory.md R83). -/
theorem lateWrite_consistent (s : State) (h : s.Consistent) :
    State.Consistent { s with status := s.status.lateWrite } :=
  setDoneWerr_consistent _ _ s id h

/-- A register write keeps the invariant: the operand registers do not occur in it. -/
theorem writeReg_consistent (r : Reg) (v : Word) (s : State) (h : s.Consistent) : (writeReg r v s).Consistent := by
  have operand (c : Cfg) (kl il : BitVec 8) (n : Word) (k i : Vector Byte 16) :
      State.Consistent { s with cfg := c, keylen := kl, ivlen := il, inLen := n, key := k, iv := i } :=
    ⟨h.flags, h.busy, h.inBuf, h.outBuf, h.outLen, h.result, h.failed, h.params⟩
  cases r with
  | cmd => exact accept_consistent v s h
  | status => exact writeReg_status_consistent v s h
  | id | outLen | rk => exact h
  | cfg | keylen | ivlen | inLen | keyW | ivW => exact operand _ _ _ _ _ _

/-- A write of bytes inside IN_BUF keeps the invariant. -/
theorem writeInBuf_consistent (i : Nat) (bs : List Byte) (s : State) (hi : i + bs.length ≤ s.params.maxMsg)
    (h : s.Consistent) : State.Consistent { s with inBuf := s.inBuf.writeBytes i bs } :=
  ⟨h.flags, h.busy, fits_writeBytes _ _ _ _ h.inBuf hi, h.outBuf, h.outLen, h.result, h.failed, h.params⟩

/-- A write with an "okay" response keeps the invariant (20_memory.md R74). -/
theorem memWrite_consistent (a : Nat) (w : Width) (v : Word) (s t : State) (ht : memWrite a w v s = .ok t)
    (h : s.Consistent) : t.Consistent := by
  obtain ⟨g, hg, ⟨-, rfl⟩ | ⟨-, -, -, rfl⟩ | ⟨-, -, rfl⟩⟩ := memWrite_cases a w v s t ht
  · exact h
  · exact lateWrite_consistent s h
  · cases g with
    | reg r => exact writeReg_consistent r v s h
    | inBuf i =>
      exact writeInBuf_consistent i _ s (by rw [leBytes_length]; exact locate_inBuf _ _ _ _ hg) h
    | outBuf i => exact h

/-- INVALID_PADDING keeps the invariant: OUT_LEN is 0, so no forgotten byte is of a result
(60_exceptions.md R307). -/
theorem raiseError_forgetOut_consistent (c : ErrorCode) (m : Nat) (s : State) (hc : c ≠ .noError) (h : s.Consistent) :
    (raiseError c (forgetOut m s)).Consistent :=
  { raiseError_consistent c s hc h with
    outBuf := fits_dropBelow _ _ m h.outBuf
    result := by simp }

/-- A completion without a result keeps the invariant. -/
theorem complete_zero_consistent (tr : Bool) (s : State) (h : s.Consistent) :
    (complete 0 tr false false s).Consistent :=
  complete_storeOut_consistent [] tr false false s (Nat.zero_le _) (by simp) h

/-- The body of a command that passed Validate keeps the invariant. -/
theorem bodyOf_consistent (i : Instr) (s : State) (hv : validate i s = none) (h : s.Consistent) :
    (bodyOf i s).Consistent := by
  have hrk := loadRoundKeys_consistent s h
  rcases body_cases i s hv with e | e | ⟨out, tr, pi, po, e, hl, hp⟩ | ⟨m, e⟩ <;> rw [e]
  · exact complete_zero_consistent false s h
  · exact complete_zero_consistent false _ hrk
  · exact complete_storeOut_consistent out tr pi po _ hl hp hrk
  · exact raiseError_forgetOut_consistent _ m _ (by decide) hrk

/-- The completion step of a command keeps the invariant. -/
theorem exec_consistent (i : Instr) (s t : State) (ht : exec i s = .next t) (h : s.Consistent) : t.Consistent := by
  rcases exec_cases i s t ht with ⟨c, hc, rfl⟩ | ⟨hv, -, rfl⟩
  · exact raiseError_consistent c s (validate_ne_noError i s c hc) h
  · exact bodyOf_consistent i s hv h

/-- No completion step changes a parameter (10_state.md R52). -/
theorem exec_params (i : Instr) (s t : State) (ht : exec i s = .next t) : t.params = s.params := by
  rcases exec_cases i s t ht with ⟨c, -, rfl⟩ | ⟨hv, -, rfl⟩
  · rfl
  · rcases body_cases i s hv with e | e | ⟨out, tr, pi, po, e, -⟩ | ⟨m, e⟩ <;> rw [e] <;> rfl

/-! ### What a host turn can do -/

/-- `u` is `s` but for the host agent and the draw counter. -/
def SameButHost (s u : State) : Prop := u = { s with host := u.host, draws := u.draws }

/-- All that a write line can have done: a write with an "okay" response, or nothing to the core. -/
theorem hostWrite_cases (a : Nat) (w : Width) (v : Word) (s : State) :
    SameButHost s (hostWrite a w v s) ∨ ∃ u, memWrite a w v s = .ok u ∧ SameButHost u (hostWrite a w v s) := by
  unfold hostWrite
  cases memWrite a w v s with
  | ok u => exact .inr ⟨u, rfl, rfl⟩
  | error f => exact .inl rfl

/-- A read line changes no state of the core (20_memory.md R75). -/
theorem hostRead_sameButHost (a : Nat) (w : Width) (s : State) : SameButHost s (hostRead a w s) := by
  unfold hostRead
  cases memRead a w s with
  | ok v => exact rfl
  | error f => exact rfl

/-- All that a host turn can have done: one write with an "okay" response, or nothing to the core. -/
theorem hostTurn_cases (s : State) :
    SameButHost s (hostTurn s) ∨ ∃ a w v u, memWrite a w v s = .ok u ∧ SameButHost u (hostTurn s) := by
  have write (a : Nat) (w : Width) (v : Word) : SameButHost s (hostWrite a w v s) ∨
      ∃ a' w' v' u, memWrite a' w' v' s = .ok u ∧ SameButHost u (hostWrite a w v s) :=
    (hostWrite_cases a w v s).imp id fun ⟨u, h⟩ => ⟨a, w, v, u, h⟩
  unfold hostTurn
  by_cases hf : s.host.failed
  · rw [if_pos hf]; exact .inl rfl
  rw [if_neg hf]
  cases s.host.script[s.host.line]? with
  | none => exact .inl rfl
  | some i =>
    cases i with
    | wr32 a v => exact write a .w32 v
    | wr16 a v => exact write a .w16 _
    | wr8 a v => exact write a .w8 _
    | rd32 a => exact .inl (hostRead_sameButHost a .w32 s)
    | rd16 a => exact .inl (hostRead_sameButHost a .w16 s)
    | rd8 a => exact .inl (hostRead_sameButHost a .w8 s)
    | bnz m l => exact .inl rfl
    | bz m l => exact .inl rfl
    | expect v =>
      simp only [runLine]
      split <;> exact .inl rfl

/-- The invariant does not see the host agent and the draw counter. -/
theorem SameButHost.consistent {s u : State} (hu : SameButHost s u) (h : s.Consistent) : u.Consistent := by
  rw [hu]; exact h.of_same_core _ _ _

/-- The parameters are no part of the host agent. -/
theorem SameButHost.params {s u : State} (hu : SameButHost s u) : u.params = s.params := by rw [hu]

/-- A host turn keeps the invariant. -/
theorem hostTurn_consistent (s : State) (h : s.Consistent) : (hostTurn s).Consistent := by
  rcases hostTurn_cases s with hs | ⟨a, w, v, u, hw, hu⟩
  · exact hs.consistent h
  · exact hu.consistent (memWrite_consistent a w v s u hw h)

/-- No host turn changes a parameter (10_state.md R52). -/
@[simp] theorem hostTurn_params (s : State) : (hostTurn s).params = s.params := by
  rcases hostTurn_cases s with hs | ⟨a, w, v, u, hw, hu⟩
  · exact hs.params
  · exact hu.params.trans (memWrite_params a w v s u hw)

/-! ### Every step -/

/-- The state an agent moves in is as consistent as the state of the step. -/
theorem nextTurn_consistent (s : State) (h : s.Consistent) : (nextTurn s).2.Consistent := by
  rw [nextTurn_state]; exact h.of_same_core _ _ _

/-- Taking a turn off the schedule changes no parameter. -/
@[simp] theorem nextTurn_params (s : State) : (nextTurn s).2.params = s.params := by rw [nextTurn_state]

/-- No step changes a parameter (10_state.md R52). -/
theorem step_params (s t : State) (ht : step s = .next t) : t.params = s.params := by
  rcases step_cases s t ht with ⟨-, rfl⟩ | ⟨-, rfl⟩ | ⟨-, ⟨-, rfl⟩ | ⟨w, e, -, -, rfl⟩ | ⟨w, i, -, -, he⟩⟩
  · simp
  · simp
  · simp
  · simp
  · simpa using exec_params i _ t he

/-- Every step keeps the invariant. -/
theorem step_consistent (s t : State) (ht : step s = .next t) (h : s.Consistent) : t.Consistent := by
  have hn := nextTurn_consistent s h
  rcases step_cases s t ht with ⟨-, rfl⟩ | ⟨-, rfl⟩ | ⟨-, ⟨-, rfl⟩ | ⟨w, e, -, -, rfl⟩ | ⟨w, i, -, -, he⟩⟩
  · exact hostTurn_consistent _ hn
  · exact applyReset_consistent _ hn
  · exact hn
  · exact raiseError_consistent _ _ (by decide) hn
  · exact exec_consistent i _ t he hn

/-- Settles O8: each agent's turn keeps the invariant, by the inversion of the step. -/
theorem stepKeepsConsistency : Obligations.StepKeepsConsistency :=
  fun s t ht => ⟨step_params s t ht, step_consistent s t ht⟩

end Sys2Proof.Machine

namespace Sys2Proof.Machine

/-! ### Register reads -/

/-- A byte of a 16-byte register file as a sequence. -/
theorem byteIn_toList (f : Vector Byte 16) (i : Nat) (h : i < 16) : byteIn f.toList i = f[i] := by
  simp [byteIn, h]

/-- A word of four bytes, its lowest byte first. -/
theorem wordOf_eq_low_first (b3 b2 b1 b0 : Byte) :
    wordOf b3 b2 b1 b0 =
      b0.setWidth 32 ||| b1.setWidth 32 <<< 8 ||| b2.setWidth 32 <<< 16 ||| b3.setWidth 32 <<< 24 := by
  rw [wordOf, BitVec.or_comm _ (b0.setWidth 32), BitVec.or_comm _ (b1.setWidth 32 <<< 8),
    BitVec.or_comm _ (b2.setWidth 32 <<< 16), BitVec.or_assoc, BitVec.or_assoc]

/-- Word `n` of a 16-byte register file is its bytes 4n to 4n+3, the lowest in bits 7:0 (20_memory.md R73). -/
theorem fileWord_eq (f : Vector Byte 16) (n : Fin 4) :
    fileWord f n = ((f[4 * n.val]).setWidth 32 ||| (f[4 * n.val + 1]).setWidth 32 <<< 8 |||
      (f[4 * n.val + 2]).setWidth 32 <<< 16 ||| (f[4 * n.val + 3]).setWidth 32 <<< 24) := by
  rw [fileWord, le32, byteIn_toList f _ (by omega), byteIn_toList f _ (by omega), byteIn_toList f _ (by omega),
    byteIn_toList f _ (by omega), wordOf_eq_low_first]

/-- A 32-bit read of any register of an idle core gives its value (20_memory.md R75). -/
theorem memRead_register_idle (r : Reg) (s : State) (h : s.busy = false) :
    memRead (offsetOf r) .w32 s = .ok (readReg r s) :=
  memRead_register r s (regLanes_idle r s h)

/-- An address of the core's window reaches the offset from BASE (20_memory.md R70). -/
theorem memAt_window (a : Nat) (w : Width) (v : Word) (s : State) (h : a < 2 ^ s.params.addrBits) :
    memReadAt (s.params.base + a) w s = some (memRead a w s) ∧
      memWriteAt (s.params.base + a) w v s = some (memWrite a w v s) := by
  have hw : windowOffset s.params (s.params.base + a) = some a := windowOffset_hostAddress s.params a h
  simp [memReadAt, memWriteAt, hw]

/-- An address outside the window is no transaction of the core (20_memory.md R70). -/
theorem memAt_outside (x : Nat) (w : Width) (v : Word) (s : State)
    (h : x < s.params.base ∨ s.params.base + 2 ^ s.params.addrBits ≤ x) :
    memReadAt x w s = none ∧ memWriteAt x w v s = none := by
  simp [memReadAt, memWriteAt, windowOffset_outside s.params x h]

/-- Settles O28: each register is read at its offset, and the offsets count from BASE. -/
theorem registerReads : Obligations.RegisterReads := by
  intro s
  exact ⟨memRead_register .id s rfl, memRead_register .cmd s rfl, memRead_register .status s rfl,
    memRead_register .cfg s rfl, memRead_register .keylen s rfl, memRead_register .ivlen s rfl,
    memRead_register .inLen s rfl, memRead_register_idle .outLen s,
    fun n => (memRead_register (.keyW n) s rfl).trans (congrArg _ (fileWord_eq s.key n)),
    fun n => (memRead_register (.ivW n) s rfl).trans (congrArg _ (fileWord_eq s.iv n)),
    fun h n => memRead_register_idle (.rk n) s h, fun a w v h => memAt_window a w v s h,
    fun x w v h => memAt_outside x w v s h⟩

end Sys2Proof.Machine

namespace Sys2Proof.Machine

/-! ### Noninterference: what an outcome does not depend on -/

/-- The outcome with its next state changed by `f`; a fault or a refusal stays. -/
def mapNext (f : State → State) : Host.Outcome State Fault Refusal → Host.Outcome State Fault Refusal
  | .next s => .next (f s)
  | .fault r => .fault r
  | .refused r => .refused r

/-- An outcome that is another one changed by `f` goes on to the changed state, and faults where the other one faults. -/
theorem next_and_fault_of_mapNext {f : State → State} {o o' : Host.Outcome State Fault Refusal} (h : o' = mapNext f o) :
    (∀ t, o = .next t → o' = .next (f t)) ∧ (∀ r, o = .fault r → o' = .fault r) := by
  subst h
  constructor
  · rintro t rfl; rfl
  · rintro r rfl; rfl

/-- `f` changes only what the ends of the bodies neither read nor write. -/
structure PassesThrough (f : State → State) : Prop where
  rk : ∀ s, (f s).rk = s.rk
  loadRoundKeys : ∀ s, loadRoundKeys (f s) = f (loadRoundKeys s)
  storeOut : ∀ out s, storeOut out (f s) = f (storeOut out s)
  forgetOut : ∀ m s, forgetOut m (f s) = f (forgetOut m s)
  complete : ∀ n tr pi po s, complete n tr pi po (f s) = f (complete n tr pi po s)
  raiseError : ∀ c s, raiseError c (f s) = f (raiseError c s)

section
variable {f : State → State} (hf : PassesThrough f)
include hf

/-- A change that Validate, the check of the input and the body do not see passes through the whole command. -/
theorem PassesThrough.exec (i : Instr) (s : State) (hv : validate i (f s) = validate i s)
    (hw : inputWritten (bytesRead i (f s)) (f s) = inputWritten (bytesRead i s) s)
    (hb : bodyOf i (f s) = f (bodyOf i s)) : exec i (f s) = mapNext f (exec i s) := by
  rw [exec_eq_runBody, exec_eq_runBody, runBody, runBody, hv, hw]
  cases validate i s with
  | some c => exact congrArg _ (hf.raiseError c s)
  | none =>
    cases inputWritten (bytesRead i s) s with
    | true => exact congrArg _ hb
    | false => rfl

/-- Such a change passes through the body of NOP. -/
theorem PassesThrough.nopBody (s : State) : nopBody (f s) = f (nopBody s) := hf.complete _ _ _ _ _

/-- Such a change passes through the body of KEYSCHED. -/
theorem PassesThrough.keyschedBody (s : State) : keyschedBody (f s) = f (keyschedBody s) := by
  simp only [Machine.keyschedBody, hf.loadRoundKeys, hf.complete]

/-- A change that the input block does not see passes through the body of ENC_BLOCK. -/
theorem PassesThrough.encBlockBody (s : State) (hin : inputBytes 16 (f s) = inputBytes 16 s) :
    encBlockBody (f s) = f (encBlockBody s) := by
  simp only [Machine.encBlockBody, hin, hf.rk, hf.loadRoundKeys, hf.storeOut, hf.complete]

/-- A change that the input block does not see passes through the body of DEC_BLOCK. -/
theorem PassesThrough.decBlockBody (s : State) (hin : inputBytes 16 (f s) = inputBytes 16 s) :
    decBlockBody (f s) = f (decBlockBody s) := by
  simp only [Machine.decBlockBody, hin, hf.rk, hf.loadRoundKeys, hf.storeOut, hf.complete]

/-- A change that the message function does not see passes through the body of ENCRYPT. -/
theorem PassesThrough.encryptBody (s : State)
    (hr : ∀ rk, encryptMsg (inputBytes (f s).inLen.toNat (f s)) rk (ivSeed (f s)) (f s).cfg.pad =
      encryptMsg (inputBytes s.inLen.toNat s) rk (ivSeed s) s.cfg.pad) :
    encryptBody (f s) = f (encryptBody s) := by
  simp only [Machine.encryptBody, hr, hf.rk, hf.loadRoundKeys, hf.storeOut, hf.complete]

/-- A change of neither STRICT nor IN_LEN passes through the end of DECRYPT. -/
theorem PassesThrough.finishDecrypt (r : List Byte × Bool × PadState) (s : State)
    (hs : (f s).cfg.strict = s.cfg.strict) (hn : (f s).inLen = s.inLen) :
    finishDecrypt r (f s) = f (finishDecrypt r s) := by
  simp only [Machine.finishDecrypt, hs, hn, hf.forgetOut, hf.raiseError, hf.storeOut, hf.complete, apply_ite f]

/-- A change that neither the message function nor the end of DECRYPT sees passes through the body of DECRYPT. -/
theorem PassesThrough.decryptBody (s : State) (hs : ∀ u, (f u).cfg.strict = u.cfg.strict)
    (hn : ∀ u, (f u).inLen = u.inLen)
    (hr : ∀ rk, decryptMsg (inputBytes (f s).inLen.toNat (f s)) rk (ivSeed (f s)) (f s).cfg.pad =
      decryptMsg (inputBytes s.inLen.toNat s) rk (ivSeed s) s.cfg.pad) :
    decryptBody (f s) = f (decryptBody s) := by
  simp only [Machine.decryptBody, hr, hf.rk, hf.loadRoundKeys]
  exact hf.finishDecrypt _ _ (hs _) (hn _)

end

/-! The checks of the commands that do not see every operand (60_exceptions.md R302). -/

/-- The checks of KEYSCHED. -/
theorem validate_keysched (s : State) :
    validate .keysched s = if s.keylen ≠ 16 then some .invalidKeyLength else none := by
  simp [validate, readsInput, isMessage, isBlock]

/-- The checks of a block command. -/
theorem validate_block (i : Instr) (hi : i = .encBlock ∨ i = .decBlock) (s : State) :
    validate i s =
      if s.params.maxMsg < s.inLen.toNat then some .invalidLength
      else if s.keylen ≠ 16 then some .invalidKeyLength
      else if s.inLen ≠ 16 then some .invalidBlockSize
      else none := by
  rcases hi with rfl | rfl <;> simp [validate, readsInput, isMessage, isBlock]

/-- The checks of a message command with PAD = 0. -/
theorem validate_message_unpadded (i : Instr) (hi : i = .encrypt ∨ i = .decrypt) (s : State) (hp : s.cfg.pad = false) :
    validate i s =
      if s.params.maxMsg < s.inLen.toNat then some .invalidLength
      else if s.keylen ≠ 16 then some .invalidKeyLength
      else if s.cfg.strict = true ∧ s.inLen.toNat % 16 ≠ 0 then some .truncatedInput
      else none := by
  rcases hi with rfl | rfl <;> simp [validate, readsInput, isBlock, hp]

/-! The commands and the operands they do not read. -/

/-- Any other IVLEN and IV. -/
def withIv (v : Vector Byte 16) (l : BitVec 8) (s : State) : State := { s with iv := v, ivlen := l }

/-- Any other IVLEN, IV and CFG. -/
def withIvCfg (v : Vector Byte 16) (l : BitVec 8) (c : Cfg) (s : State) : State :=
  { s with iv := v, ivlen := l, cfg := c }

/-- Any other IVLEN, IV, CFG, IN_LEN and IN_BUF. -/
def withOperands (v : Vector Byte 16) (l : BitVec 8) (c : Cfg) (n : Word) (m : Memory) (s : State) : State :=
  { s with iv := v, ivlen := l, cfg := c, inLen := n, inBuf := m }

/-- Any other parameters. -/
def withParams (p : Params) (s : State) : State := { s with params := p }

/-! None of these fields is read or written by the end of a body. -/

theorem passesThrough_withIv (v : Vector Byte 16) (l : BitVec 8) : PassesThrough (withIv v l) :=
  ⟨fun _ => rfl, fun _ => rfl, fun _ _ => rfl, fun _ _ => rfl, fun _ _ _ _ _ => rfl, fun _ _ => rfl⟩

theorem passesThrough_withIvCfg (v : Vector Byte 16) (l : BitVec 8) (c : Cfg) : PassesThrough (withIvCfg v l c) :=
  ⟨fun _ => rfl, fun _ => rfl, fun _ _ => rfl, fun _ _ => rfl, fun _ _ _ _ _ => rfl, fun _ _ => rfl⟩

theorem passesThrough_withOperands (v : Vector Byte 16) (l : BitVec 8) (c : Cfg) (n : Word) (m : Memory) :
    PassesThrough (withOperands v l c n m) :=
  ⟨fun _ => rfl, fun _ => rfl, fun _ _ => rfl, fun _ _ => rfl, fun _ _ _ _ _ => rfl, fun _ _ => rfl⟩

theorem passesThrough_withParams (p : Params) : PassesThrough (withParams p) :=
  ⟨fun _ => rfl, fun _ => rfl, fun _ _ => rfl, fun _ _ => rfl, fun _ _ _ _ _ => rfl, fun _ _ => rfl⟩

/-- KEYSCHED reads KEYLEN and KEY only (46_commands.md R256). -/
theorem exec_keysched_withOperands (v : Vector Byte 16) (l : BitVec 8) (c : Cfg) (n : Word) (m : Memory) (s : State) :
    exec .keysched (withOperands v l c n m s) = mapNext (withOperands v l c n m) (exec .keysched s) := by
  have hf := passesThrough_withOperands v l c n m
  refine hf.exec .keysched s ?_ rfl (hf.keyschedBody s)
  rw [validate_keysched, validate_keysched]
  rfl

/-- The block commands do not read CFG, IVLEN and IV (46_commands.md R257, R258). -/
theorem exec_block_withIvCfg (i : Instr) (hi : i = .encBlock ∨ i = .decBlock) (v : Vector Byte 16) (l : BitVec 8)
    (c : Cfg) (s : State) : exec i (withIvCfg v l c s) = mapNext (withIvCfg v l c) (exec i s) := by
  have hf := passesThrough_withIvCfg v l c
  have hv : validate i (withIvCfg v l c s) = validate i s := by
    rw [validate_block i hi, validate_block i hi]
    rfl
  rcases hi with rfl | rfl
  · exact hf.exec .encBlock s hv rfl (hf.encBlockBody s rfl)
  · exact hf.exec .decBlock s hv rfl (hf.decBlockBody s rfl)

/-- The message commands with PAD = 0 do not read IVLEN and IV: ECB has no chaining seed (46_commands.md R260, R261;
45_chaining_padding.md R226, R227). -/
theorem exec_message_withIv (i : Instr) (hi : i = .encrypt ∨ i = .decrypt) (v : Vector Byte 16) (l : BitVec 8)
    (s : State) (hp : s.cfg.pad = false) : exec i (withIv v l s) = mapNext (withIv v l) (exec i s) := by
  have hf := passesThrough_withIv v l
  have hp' : (withIv v l s).cfg.pad = false := hp
  have hv : validate i (withIv v l s) = validate i s := by
    rw [validate_message_unpadded i hi _ hp', validate_message_unpadded i hi _ hp]
    rfl
  rcases hi with rfl | rfl
  · exact hf.exec .encrypt s hv rfl (hf.encryptBody s fun rk => by rw [hp, hp']; rfl)
  · exact hf.exec .decrypt s hv rfl
      (hf.decryptBody s (fun _ => rfl) (fun _ => rfl) fun rk => by rw [hp, hp']; rfl)

/-! The parameters but MAX_MSG, in every operation of a step. -/

section
variable (p : Params)

/-- No body reads a parameter: MAX_MSG is checked by Validate. -/
theorem bodyOf_withParams (i : Instr) (s : State) : bodyOf i (withParams p s) = withParams p (bodyOf i s) := by
  have hf := passesThrough_withParams p
  cases i with
  | nop => exact hf.nopBody s
  | keysched => exact hf.keyschedBody s
  | encBlock => exact hf.encBlockBody s rfl
  | decBlock => exact hf.decBlockBody s rfl
  | encrypt => exact hf.encryptBody s fun _ => rfl
  | decrypt => exact hf.decryptBody s (fun _ => rfl) (fun _ => rfl) fun _ => rfl

/-- Inside the map, what a read gives depends on no parameter. -/
theorem readLanes_withParams (g : Target) (w : Width) (s : State) :
    readLanes g w (withParams p s) = readLanes g w s := by
  cases g with
  | reg r => cases r <;> rfl
  | inBuf i => rfl
  | outBuf i => rfl

/-- Inside the map, what a write does depends on no parameter. -/
theorem writeTarget_withParams (g : Target) (w : Width) (v : Word) (s : State) :
    writeTarget g w v (withParams p s) = withParams p (writeTarget g w v s) := by
  cases g with
  | reg r => cases r <;> rfl
  | inBuf i => rfl
  | outBuf i => rfl

/-- Who moves next depends on no parameter. -/
theorem nextTurn_withParams (s : State) :
    nextTurn (withParams p s) = ((nextTurn s).1, withParams p (nextTurn s).2) := by
  have hs : (withParams p s).sched = s.sched := rfl
  simp only [nextTurn, hs]
  cases s.sched <;> rfl

end

/-- The map depends on MAX_MSG only (20_memory.md R71). -/
theorem locate_of_maxMsg {p q : Params} (h : p.maxMsg = q.maxMsg) (a : Nat) (w : Width) : locate p a w = locate q a w := by
  rw [locate, locate, outBufBytes_eq, outBufBytes_eq, h]

section
variable {p : Params} {s : State} (hp : p.maxMsg = s.params.maxMsg)
include hp

/-- Of the parameters, a command sees MAX_MSG only, in Validate (60_exceptions.md R302). -/
theorem exec_withParams (i : Instr) : exec i (withParams p s) = mapNext (withParams p) (exec i s) := by
  refine (passesThrough_withParams p).exec i s ?_ ?_ (bodyOf_withParams p i s)
  · have hm : (withParams p s).params.maxMsg = s.params.maxMsg := hp
    rw [validate, validate, hm]
    rfl
  · cases i <;> rfl

/-- Of the parameters, a read sees MAX_MSG only, in the map. -/
theorem memRead_withParams (a : Nat) (w : Width) : memRead a w (withParams p s) = memRead a w s := by
  have hl : locate (withParams p s).params a w = locate s.params a w := locate_of_maxMsg hp a w
  simp only [memRead, hl, readLanes_withParams]
  rfl

/-- Of the parameters, a write sees MAX_MSG only, in the map. -/
theorem memWrite_withParams (a : Nat) (w : Width) (v : Word) :
    memWrite a w v (withParams p s) = (memWrite a w v s).map (withParams p) := by
  have hl : locate (withParams p s).params a w = locate s.params a w := locate_of_maxMsg hp a w
  cases hg : locate s.params a w with
  | none => simp only [memWrite, hl, hg]; rfl
  | some g =>
    rw [memWrite_of_locate a w v s g hg, memWrite_of_locate a w v _ g (hl.trans hg), writeTarget_withParams,
      apply_ite (Except.map (withParams p)), apply_ite (Except.map (withParams p))]
    rfl

theorem hostWrite_withParams (a : Nat) (w : Width) (v : Word) :
    hostWrite a w v (withParams p s) = withParams p (hostWrite a w v s) := by
  simp only [hostWrite, memWrite_withParams hp]
  cases memWrite a w v s <;> rfl

theorem hostRead_withParams (a : Nat) (w : Width) :
    hostRead a w (withParams p s) = withParams p (hostRead a w s) := by
  simp only [hostRead, memRead_withParams hp]
  cases memRead a w s <;> rfl

theorem runLine_withParams (i : ScriptInstr) : runLine i (withParams p s) = withParams p (runLine i s) := by
  cases i with
  | wr32 a v => exact hostWrite_withParams hp a .w32 v
  | wr16 a v => exact hostWrite_withParams hp a .w16 _
  | wr8 a v => exact hostWrite_withParams hp a .w8 _
  | rd32 a => exact hostRead_withParams hp a .w32
  | rd16 a => exact hostRead_withParams hp a .w16
  | rd8 a => exact hostRead_withParams hp a .w8
  | bnz m l => rfl
  | bz m l => rfl
  | expect v =>
    rw [runLine, runLine, apply_ite (withParams p)]
    rfl

theorem hostTurn_withParams : hostTurn (withParams p s) = withParams p (hostTurn s) := by
  have hh : (withParams p s).host = s.host := rfl
  simp only [hostTurn, hh]
  cases s.host.failed with
  | true => rfl
  | false =>
    cases s.host.script[s.host.line]? with
    | none => rfl
    | some i => exact runLine_withParams hp i

theorem completionStep_withParams (w : Word) :
    completionStep w (withParams p s) = mapNext (withParams p) (completionStep w s) := by
  unfold completionStep
  cases decode w with
  | ok i => exact exec_withParams hp i
  | error e => rfl

theorem turn_withParams (g : Agent) : turn g (withParams p s) = mapNext (withParams p) (turn g s) := by
  cases g with
  | host => exact congrArg _ (hostTurn_withParams hp)
  | reset => rfl
  | sequencer =>
    have hs : (withParams p s).seq = s.seq := rfl
    simp only [turn, sequencerTurn, hs]
    cases s.seq with
    | idle => rfl
    | busy w => exact completionStep_withParams hp w

/-- No step depends on a parameter but MAX_MSG (92_eei_decisions.md D2, D4). -/
theorem step_withParams : step (withParams p s) = mapNext (withParams p) (step s) := by
  have hn : p.maxMsg = (nextTurn s).2.params.maxMsg := by rw [nextTurn_state]; exact hp
  unfold step
  rw [nextTurn_withParams]
  exact turn_withParams hn _

end

/-- Settles O24: each unread operand, and each parameter but MAX_MSG, passes through the outcome unchanged. -/
theorem unreadOperandsNeverMatter : Obligations.UnreadOperandsNeverMatter := by
  intro s v l c n m
  refine ⟨?_, fun i hi => ?_, fun i hi hp => ?_, fun p hp => ?_⟩
  · exact (next_and_fault_of_mapNext (exec_keysched_withOperands v l c n m s)).1
  · exact (next_and_fault_of_mapNext (exec_block_withIvCfg i hi v l c s)).imp id fun h => h _
  · exact (next_and_fault_of_mapNext (exec_message_withIv i hi v l s hp)).imp id fun h => h _
  · exact next_and_fault_of_mapNext (step_withParams hp)

end Sys2Proof.Machine

namespace Sys2Proof.Machine

/-! ### Writes to registers -/

/-- A write to a writable register of an idle core takes effect (20_memory.md R74 case 4). -/
theorem memWrite_register_idle (r : Reg) (v : Word) (s : State) (hr : readOnly (.reg r) = false) (h : s.busy = false) :
    memWrite (offsetOf r) .w32 v s = .ok (writeReg r v s) :=
  memWrite_effect _ _ _ _ _ (locate_register s.params r) hr (.inl h)

/-- A write to STATUS takes effect, busy or not (20_memory.md R83). -/
theorem memWrite_status (v : Word) (s : State) :
    memWrite (offsetOf .status) .w32 v s = .ok { s with status := s.status.writeOneToClear v } :=
  memWrite_effect _ _ _ _ _ (locate_register s.params .status) rfl (.inr rfl)

/-- Masking a flag by a bit's complement clears it where the bit is 1. -/
theorem and_not_eq_clear (f b : Bool) : (f && !b) = if b then false else f := by
  cases b <;> simp

/-- Settles O31: a STATUS write takes effect in every state, and each of its two flags is masked by its bit. -/
theorem statusWriteOneToClears : Obligations.StatusWriteOneToClears := by
  intro s v
  rw [← and_not_eq_clear, ← and_not_eq_clear]
  exact memWrite_status v s

/-- Settles O34: each is the write of an idle core's register; the low byte of a length register is bits 7:0. -/
theorem lengthAndConfigWrites : Obligations.LengthAndConfigWrites := by
  intro s v h
  rw [← BitVec.setWidth_eq_extractLsb' (by decide)]
  exact ⟨memWrite_register_idle .cfg v s rfl h, memWrite_register_idle .keylen v s rfl h,
    memWrite_register_idle .ivlen v s rfl h, memWrite_register_idle .inLen v s rfl h⟩

/-- Byte `j` of a register file after a write of word `n`: a lane of the value inside the word, as before outside it
(10_state.md R41, R42; 20_memory.md R73). -/
theorem getElem_setFileWord (f : Vector Byte 16) (n : Fin 4) (v : Word) (j : Nat) (hj : j < 16) :
    (setFileWord f n v)[j] = if j / 4 = n.val then byteAt v (j % 4) else f[j] := by
  simp only [setFileWord, Vector.getElem_set]
  by_cases hn : j / 4 = n.val
  · obtain ⟨m, rfl, hm⟩ : ∃ m, j = 4 * n.val + m ∧ m < 4 := ⟨j % 4, by omega, by omega⟩
    have hcase : m = 0 ∨ m = 1 ∨ m = 2 ∨ m = 3 := by omega
    rcases hcase with rfl | rfl | rfl | rfl <;> simp [hn]
  · rw [if_neg (by omega), if_neg (by omega), if_neg (by omega), if_neg (by omega), if_neg hn]

/-- Settles O35: the file's bytes after the write, and the read of the word just written. -/
theorem keyAndIvWrites : Obligations.KeyAndIvWrites := by
  intro s v n h
  refine ⟨⟨{ s with key := setFileWord s.key n v }, memWrite_register_idle (.keyW n) v s rfl h, rfl,
      fun j => getElem_setFileWord s.key n v j j.isLt, ?_⟩,
    ⟨{ s with iv := setFileWord s.iv n v }, memWrite_register_idle (.ivW n) v s rfl h, rfl,
      fun j => getElem_setFileWord s.iv n v j j.isLt, ?_⟩⟩
  · exact (memRead_register (.keyW n) _ rfl).trans (congrArg _ (fileWord_setFileWord_same s.key n v))
  · exact (memRead_register (.ivW n) _ rfl).trans (congrArg _ (fileWord_setFileWord_same s.iv n v))

/-! ### Writes to IN_BUF -/

/-- Lane `j` of the bytes of a word. -/
theorem getD_leBytes (n j : Nat) (v : Word) (h : j < n) : (leBytes n v).getD j 0 = byteAt v j := by
  simp [leBytes, h]

/-- A single byte read as a word: the lanes above it are 0 (20_memory.md R73). -/
theorem le32_singleton (b : Byte) : le32 [b] 0 = b.setWidth 32 := by
  simp [le32, byteIn, wordOf]

/-- A written byte of IN_BUF reads back alone, busy or not (20_memory.md R85, R89). -/
theorem memRead_inBuf_byte (k : Nat) (b : Byte) (s : State) (hk : k < s.params.maxMsg) (hb : s.inBuf.read k = some b) :
    memRead (inBufAt k) .w8 s = .ok (b.setWidth 32) := by
  have hlanes : readLanes (.inBuf k) .w8 s = [some b] := congrArg (fun o => [o]) hb
  rw [memRead_of_locate _ _ _ _ (locate_inBufAt s.params k .w8 (Nat.mod_one k) hk), hlanes]
  exact congrArg _ (le32_singleton b)

/-- Settles O36: the write lists its lanes' bytes from `k` on, and a listed byte reads back alone. -/
theorem inputBufferWrites : Obligations.InputBufferWrites := by
  intro s v k w h ha hk
  have hin (j : Nat) (hj : j < w.bytes) :
      (s.inBuf.writeBytes k (leBytes w.bytes v)).read (k + j) = some (byteAt v j) := by
    rw [read_writeBytes_inside _ _ _ _ (by simpa using hj), getD_leBytes _ _ _ hj]
  refine ⟨{ s with inBuf := s.inBuf.writeBytes k (leBytes w.bytes v) },
    memWrite_effect _ _ _ _ _ (locate_inBufAt s.params k w ha hk) rfl (.inl h), rfl, fun j hj => ⟨hin j hj, ?_⟩,
    fun x hx => read_writeBytes_outside _ _ _ _ (by simpa using hx)⟩
  exact memRead_inBuf_byte (k + j) _ _ (Nat.lt_of_lt_of_le (Nat.add_lt_add_left hj k) hk) (hin j hj)

/-! ### The completion step: round keys and frame -/

/-- DECRYPT runs the key schedule, also when it ends in INVALID_PADDING (60_exceptions.md R307). -/
theorem decryptBody_rk (s : State) : (decryptBody s).rk = keySchedule s.key.toList := by
  rcases decryptBody_cases s with ⟨m, e⟩ | ⟨out, tr, pi, po, e, -⟩ <;> rw [e] <;> rfl

/-- The body of every command but NOP runs the key schedule (10_state.md R43). -/
theorem bodyOf_rk (i : Instr) (s : State) (hi : i ≠ .nop) : (bodyOf i s).rk = keySchedule s.key.toList := by
  cases i with
  | nop => exact absurd rfl hi
  | keysched | encBlock | decBlock | encrypt => rfl
  | decrypt => exact decryptBody_rk s

/-- Settles O21: a failed check keeps RK, NOP's body keeps it, every other body recomputes it. -/
theorem roundKeysKeptOrRecomputed : Obligations.RoundKeysKeptOrRecomputed := by
  intro i s t h
  rcases exec_cases i s t h with ⟨c, hv, rfl⟩ | ⟨hv, -, rfl⟩
  · exact ⟨fun _ => rfl, fun _ hn => by simp [hv] at hn⟩
  · refine ⟨?_, fun hi _ => bodyOf_rk i s hi⟩
    rintro (rfl | hn)
    · rfl
    · exact absurd hv hn

/-- A completion step that goes on changes RK, OUT_BUF, OUT_LEN, STATUS and the sequencer only; it keeps WERR and sets DONE
(20_memory.md R87, 60_exceptions.md R305). -/
theorem exec_frame (i : Instr) (s t : State) (h : exec i s = .next t) :
    t = { s with rk := t.rk, outBuf := t.outBuf, outLen := t.outLen, status := t.status, seq := .idle } ∧
      t.status.werr = s.status.werr ∧ t.status.done = true := by
  rcases exec_cases i s t h with ⟨c, -, rfl⟩ | ⟨hv, -, rfl⟩
  · exact ⟨rfl, rfl, rfl⟩
  · rcases body_cases i s hv with e | e | ⟨out, tr, pi, po, e, -⟩ | ⟨m, e⟩ <;> rw [e] <;> exact ⟨rfl, rfl, rfl⟩

/-- All that a completion step which goes on can have been: the error of an illegal word, or a command
(46_commands.md R251, R262). -/
theorem completionStep_cases (w : Word) (s t : State) (h : completionStep w s = .next t) :
    t = raiseError .illegalCommand s ∨ ∃ i, decode w = .ok i ∧ exec i s = .next t := by
  unfold completionStep at h
  cases hd : decode w with
  | ok i => rw [hd] at h; exact .inr ⟨i, rfl, h⟩
  | error e => rw [hd] at h; exact .inl (Host.Outcome.next.inj h).symm

/-! ### The interrupt output -/

/-- IRQ is low while DONE is 0 (10_state.md R47). -/
theorem irq_of_not_done (s : State) (h : s.status.done = false) : s.irq = false := by
  simp [State.irq, h]

/-- IRQ is masked while IE is 0 (10_state.md R47). -/
theorem irq_of_masked (s : State) (h : s.cfg.ie = false) : s.irq = false := by
  simp [State.irq, h]

/-- A completion raises IRQ exactly when IE = 1, also that of an illegal word (60_exceptions.md R310). -/
theorem completionStep_irq (w : Word) (s t : State) (h : completionStep w s = .next t) : t.irq = s.cfg.ie := by
  rcases completionStep_cases w s t h with rfl | ⟨i, -, he⟩
  · simp [State.irq]
  · obtain ⟨hf, -, hd⟩ := exec_frame i s t he
    have hc : t.cfg = s.cfg := by rw [hf]
    simp [State.irq, hd, hc]

/-- Settles O43: the two clearing writes lower DONE, the masking one lowers IE, and a completion raises DONE. -/
theorem interruptOutput : Obligations.InterruptOutput := by
  refine ⟨fun _ => rfl, fun s t v hv h => ?_, fun s t w hb h => ?_, fun s t v hb hv h => ?_, completionStep_irq⟩
  · obtain rfl := Except.ok.inj ((memWrite_status v s).symm.trans h)
    exact irq_of_not_done _ (by simp [hv])
  · obtain rfl := Except.ok.inj ((memWrite_register_idle .cmd w s rfl hb).symm.trans h)
    exact irq_of_not_done _ rfl
  · obtain rfl := Except.ok.inj ((memWrite_register_idle .cfg v s rfl hb).symm.trans h)
    exact ⟨irq_of_masked _ hv, rfl⟩

/-! ### The stickiness of WERR -/

/-- The host agent is no part of STATUS. -/
theorem SameButHost.status {s u : State} (hu : SameButHost s u) : u.status = s.status := by rw [hu]

/-- A register write clears WERR only as a write of 1 to bit 6 of STATUS (10_state.md R34). -/
theorem writeReg_clears_werr (r : Reg) (v : Word) (s : State) (hs : s.status.werr = true)
    (ht : (writeReg r v s).status.werr = false) : r = .status ∧ v.getLsbD 6 = true := by
  cases r with
  | status => exact ⟨rfl, by simpa [writeReg, hs] using ht⟩
  | id | cmd | cfg | keylen | ivlen | inLen | outLen | keyW | ivW | rk => exact absurd (hs.symm.trans ht) (by decide)

/-- A write transaction clears WERR only as a 32-bit write of 1 to bit 6 of STATUS (10_state.md R33). -/
theorem memWrite_clears_werr (a : Nat) (w : Width) (v : Word) (s t : State) (h : memWrite a w v s = .ok t)
    (hs : s.status.werr = true) (ht : t.status.werr = false) : a = 0x008 ∧ w = .w32 ∧ v.getLsbD 6 = true := by
  have keeps : t.status.werr = true → a = 0x008 ∧ w = .w32 ∧ v.getLsbD 6 = true := by simp [ht]
  obtain ⟨g, hg, ⟨-, rfl⟩ | ⟨-, -, -, rfl⟩ | ⟨-, -, rfl⟩⟩ := memWrite_cases a w v s t h
  · exact keeps hs
  · exact keeps rfl
  · cases g with
    | reg r =>
      obtain ⟨rfl, hv⟩ := writeReg_clears_werr r v s hs ht
      obtain ⟨ha, hw⟩ := locate_reg _ _ _ _ hg
      exact ⟨ha, hw, hv⟩
    | inBuf i => exact keeps hs
    | outBuf i => exact keeps hs

/-- A write line clears WERR only as a 32-bit write of 1 to bit 6 of STATUS. -/
theorem hostWrite_clears_werr (a : Nat) (w : Width) (v : Word) (s : State) (hs : s.status.werr = true)
    (ht : (hostWrite a w v s).status.werr = false) : a = 0x008 ∧ w = .w32 ∧ v.getLsbD 6 = true := by
  rcases hostWrite_cases a w v s with hu | ⟨u, hw, hu⟩ <;> rw [hu.status] at ht
  · exact absurd (hs.symm.trans ht) (by decide)
  · exact memWrite_clears_werr a w v s u hw hs ht

/-- The only script line that clears WERR is a WR32 of 1 to bit 6 of STATUS. -/
theorem runLine_clears_werr (i : ScriptInstr) (s : State) (hs : s.status.werr = true)
    (ht : (runLine i s).status.werr = false) : ∃ v : Word, i = .wr32 0x008 v ∧ v.getLsbD 6 = true := by
  have same {P : Prop} (hu : SameButHost s (runLine i s)) : P := by
    rw [hu.status, hs] at ht
    cases ht
  cases i with
  | wr32 a v =>
    obtain ⟨rfl, -, hv⟩ := hostWrite_clears_werr a .w32 v s hs ht
    exact ⟨v, rfl, hv⟩
  | wr16 a v => cases (hostWrite_clears_werr a .w16 _ s hs ht).2.1
  | wr8 a v => cases (hostWrite_clears_werr a .w8 _ s hs ht).2.1
  | rd32 a => exact same (hostRead_sameButHost a .w32 s)
  | rd16 a => exact same (hostRead_sameButHost a .w16 s)
  | rd8 a => exact same (hostRead_sameButHost a .w8 s)
  | bnz m l | bz m l => exact same rfl
  | expect v =>
    refine same ?_
    simp only [runLine]
    split <;> rfl

/-- A host turn clears WERR only by such a line. -/
theorem hostTurn_clears_werr (s : State) (hs : s.status.werr = true) (ht : (hostTurn s).status.werr = false) :
    ∃ v : Word, s.host.script[s.host.line]? = some (.wr32 0x008 v) ∧ v.getLsbD 6 = true := by
  unfold hostTurn at ht
  split at ht
  · simp [hs] at ht
  · split at ht
    · simp [hs] at ht
    · next i hi =>
      obtain ⟨v, rfl, hv⟩ := runLine_clears_werr i s hs ht
      exact ⟨v, hi, hv⟩

/-- Settles O42: no turn of the sequencer clears WERR, and a host turn only by a write of 1 to its bit. -/
theorem werrIsSticky : Obligations.WerrIsSticky := by
  intro s t h hs ht
  have hw : (nextTurn s).2.status.werr = true := by rw [nextTurn_state]; exact hs
  have keeps {P : Prop} (ht' : t.status.werr = true) : P := absurd (ht'.symm.trans ht) (by decide)
  rcases step_cases s t h with ⟨hg, rfl⟩ | ⟨hg, -⟩ | ⟨-, ⟨-, rfl⟩ | ⟨w, e, -, -, rfl⟩ | ⟨w, i, -, -, he⟩⟩
  · obtain ⟨v, hl, hv⟩ := hostTurn_clears_werr _ hw ht
    rw [nextTurn_state] at hl
    exact .inr ⟨hg, v, hl, hv⟩
  · exact .inl hg
  · exact keeps hw
  · exact keeps hw
  · exact keeps ((exec_frame i _ t he).2.1.trans hw)

end Sys2Proof.Machine

namespace Sys2Proof.Machine

/-! ### Where the bus error stands -/

/-- The one gap of the register page: the offsets 0x40 to 0x7F hold no register (20_memory.md R71). -/
theorem regAt_eq_none_iff (a : Nat) (h : a < 0x100) : regAt a = none ↔ 0x40 ≤ a ∧ a < 0x80 := by
  unfold regAt
  repeat' split
  all_goals simp only [reduceCtorEq, true_iff, false_iff]
  all_goals omega

/-- An aligned transaction touches mapped bytes only exactly when it lies in one of the map's four regions, for every legal
MAX_MSG (20_memory.md R71, R78; 00_scope.md R8). -/
theorem mappedBytes_iff (p : Params) (hp : paramsWf p = true) (a : Nat) (w : Width) (ha : a % w.bytes = 0) :
    (∀ j, j < w.bytes → MappedByte p (a + j)) ↔
      a < 0x40 ∨ (0x80 ≤ a ∧ a < 0x100) ∨ (0x10000 ≤ a ∧ a + w.bytes ≤ 0x10000 + p.maxMsg) ∨
        (0x20000 ≤ a ∧ a + w.bytes ≤ 0x20000 + p.maxMsg + 16) := by
  obtain ⟨-, -, hm, -, -⟩ := legal_of_paramsWf p hp
  unfold MappedByte
  constructor
  · intro h
    have first := h 0 (by cases w <;> decide)
    have last := h (w.bytes - 1) (by cases w <;> decide)
    cases w <;> simp only [Width.bytes] at * <;> omega
  · intro h j hj
    cases w <;> simp only [Width.bytes] at * <;> omega

/-- A transaction reaches nothing exactly when it is misaligned, narrow in the register page, or touches an unmapped byte
(20_memory.md R72, R77, R78). -/
theorem locate_eq_none_iff (p : Params) (hp : paramsWf p = true) (a : Nat) (w : Width) :
    locate p a w = none ↔
      a % w.bytes ≠ 0 ∨ (a < 0x100 ∧ w.bytes ≠ 4) ∨ ∃ j, j < w.bytes ∧ ¬ MappedByte p (a + j) := by
  have hmap : (∃ j, j < w.bytes ∧ ¬ MappedByte p (a + j)) ↔ ¬ ∀ j, j < w.bytes → MappedByte p (a + j) := by simp
  have hw : w = .w32 ↔ w.bytes = 4 := by cases w <;> decide
  by_cases ha : a % w.bytes ≠ 0
  · simp [locate, ha]
  rw [ne_eq, not_not] at ha
  rw [hmap, mappedBytes_iff p hp a w ha]
  unfold locate
  rw [if_neg (by simp [ha])]
  by_cases hr : a < 0x100
  · rw [if_pos hr]
    by_cases h4 : w = .w32
    · rw [if_pos h4, Option.map_eq_none_iff, regAt_eq_none_iff a hr]
      rw [hw] at h4
      omega
    · rw [if_neg h4]
      rw [hw] at h4
      simp [hr, h4]
  · have hi : inBufBase = 0x10000 := rfl
    have ho : outBufBase = 0x20000 := rfl
    rw [if_neg hr, hi, ho, outBufBytes_eq]
    by_cases hin : 0x10000 ≤ a ∧ a + w.bytes ≤ 0x10000 + p.maxMsg
    · rw [if_pos hin]
      simp only [reduceCtorEq, false_iff]
      omega
    rw [if_neg hin]
    by_cases hout : 0x20000 ≤ a ∧ a + w.bytes ≤ 0x20000 + (p.maxMsg + 16)
    · rw [if_pos hout]
      simp only [reduceCtorEq, false_iff]
      omega
    · rw [if_neg hout]
      simp only [true_iff]
      omega

/-- A read that reaches nothing gets the bus error (20_memory.md R76). -/
theorem memRead_of_unmapped (a : Nat) (w : Width) (s : State) (h : locate s.params a w = none) :
    memRead a w s = .error (.busError a w.bytes) := by
  simp only [memRead, h]

/-- A write that reaches nothing gets the bus error (20_memory.md R76). -/
theorem memWrite_of_unmapped (a : Nat) (w : Width) (v : Word) (s : State) (h : locate s.params a w = none) :
    memWrite a w v s = .error (.busError a w.bytes) := by
  simp only [memWrite, h]

/-- A write that reaches something gets the "okay" response, whatever its effect (20_memory.md R74). -/
theorem memWrite_okay_of_locate (a : Nat) (w : Width) (v : Word) (s : State) (g : Target)
    (h : locate s.params a w = some g) : ∃ t, memWrite a w v s = .ok t := by
  rw [memWrite_of_locate a w v s g h]
  split
  · exact ⟨_, rfl⟩
  · split <;> exact ⟨_, rfl⟩

/-- Settles O26: the response of a transaction is the bus error exactly where the map reaches nothing. -/
theorem busErrorsExactlyWhere : Obligations.BusErrorsExactlyWhere := by
  intro a w v s hp
  refine ⟨by cases w <;> decide, fun bad => ?_, fun good => ?_⟩
  · have hn := (locate_eq_none_iff s.params hp a w).mpr bad
    exact ⟨memRead_of_unmapped a w s hn, memWrite_of_unmapped a w v s hn⟩
  · obtain ⟨g, hg⟩ := Option.ne_none_iff_exists'.mp (mt (locate_eq_none_iff s.params hp a w).mp good)
    exact ⟨⟨_, memRead_of_locate a w s g hg⟩, memWrite_okay_of_locate a w v s g hg⟩

/-! ### What the host makes of a response -/

/-- The only fault of a read is the bus error of its offset and size (20_memory.md R76). -/
theorem memRead_error (a : Nat) (w : Width) (s : State) (f : Fault) (h : memRead a w s = .error f) :
    f = .busError a w.bytes := by
  cases hg : locate s.params a w with
  | none => exact Except.error.inj (h.symm.trans (memRead_of_unmapped a w s hg))
  | some g => cases h.symm.trans (memRead_of_locate a w s g hg)

/-- The only fault of a write is the bus error of its offset and size (20_memory.md R76). -/
theorem memWrite_error (a : Nat) (w : Width) (v : Word) (s : State) (f : Fault) (h : memWrite a w v s = .error f) :
    f = .busError a w.bytes := by
  cases hg : locate s.params a w with
  | none => exact Except.error.inj (h.symm.trans (memWrite_of_unmapped a w v s hg))
  | some g =>
    obtain ⟨t, ht⟩ := memWrite_okay_of_locate a w v s g hg
    cases h.symm.trans ht

/-- The host records the fault of a write (log 4). -/
theorem hostWrite_of_error (a : Nat) (w : Width) (v : Word) (s : State) (f : Fault) (h : memWrite a w v s = .error f) :
    hostWrite a w v s = respond (.raised f) s := by
  simp only [hostWrite, h]

/-- The host takes the data of a read as `rd`, and the draws move past its width (30_encoding.md R115; log 6). -/
theorem hostRead_of_ok (a : Nat) (w : Width) (s : State) (d : Word) (h : memRead a w s = .ok d) :
    hostRead a w s = advanceDraws w.bytes (setRd d (respond (.readOkay d) s)) := by
  simp only [hostRead, h]

/-- The host records the fault of a read, and `rd` becomes a free word of four draws (logs 4, 6). -/
theorem hostRead_of_error (a : Nat) (w : Width) (s : State) (f : Fault) (h : memRead a w s = .error f) :
    hostRead a w s = advanceDraws 4 (setRd (freeWord s.draws) (respond (.raised f) s)) := by
  simp only [hostRead, h]

/-- Settles O27: the fault names the transaction, and the host's record of it touches no state of the core. -/
theorem busErrorChangesNoCoreState : Obligations.BusErrorChangesNoCoreState :=
  fun a w v s f =>
    ⟨fun h => ⟨memWrite_error a w v s f h, hostWrite_of_error a w v s f h⟩,
     fun h => ⟨memRead_error a w s f h, freeWord s.draws, hostRead_of_error a w s f h⟩⟩

/-- Settles O40: by the two responses a read can get, each of which moves the host agent and the draws only. -/
theorem readsChangeNoCoreState : Obligations.ReadsChangeNoCoreState := by
  intro a w s
  cases hr : memRead a w s with
  | ok d =>
    refine ⟨(setRd d (respond (.readOkay d) s)).host, fun _ => hostRead_of_ok a w s d hr, ?_, rfl, rfl, rfl⟩
    rintro ⟨f, hf⟩
    cases hf
  | error f =>
    refine ⟨(setRd (freeWord s.draws) (respond (.raised f) s)).host, ?_,
      fun _ => hostRead_of_error a w s f hr, rfl, rfl, rfl⟩
    rintro ⟨d, hd⟩
    cases hd

/-! ### Writes that have no effect -/

/-- A write to a read-only register has no effect, busy or not (20_memory.md R79). -/
theorem memWrite_readOnly_register (r : Reg) (v : Word) (s : State) (hr : readOnly (.reg r) = true) :
    memWrite (offsetOf r) .w32 v s = .ok s :=
  memWrite_readOnly _ _ _ _ _ (locate_register s.params r) hr

/-- A write to bytes of OUT_BUF has no effect, busy or not (20_memory.md R79). -/
theorem memWrite_outBufAt (s : State) (hp : paramsWf s.params = true) (v : Word) (k : Nat) (w : Width)
    (ha : k % w.bytes = 0) (hk : k + w.bytes ≤ s.params.maxMsg + 16) : memWrite (outBufAt k) w v s = .ok s :=
  memWrite_readOnly _ _ _ _ _ (locate_outBufAt s.params hp k w ha hk) rfl

/-- Settles O30: each read-only location is one of the map's read-only targets, and a STATUS write only masks its two
flags. -/
theorem readOnlyWritesHaveNoEffect : Obligations.ReadOnlyWritesHaveNoEffect := by
  intro s v hp
  exact ⟨memWrite_readOnly_register .id v s rfl, memWrite_readOnly_register .outLen v s rfl,
    fun n => memWrite_readOnly_register (.rk n) v s rfl, memWrite_outBufAt s hp v,
    _, memWrite_status v s, rfl, fun h => (Bool.and_eq_true_iff.mp h).1, fun h => (Bool.and_eq_true_iff.mp h).1⟩

/-- A write to a writable register but STATUS is ignored while the core is busy (20_memory.md R83). -/
theorem memWrite_register_late (r : Reg) (v : Word) (s : State) (hb : s.busy = true) (hr : readOnly (.reg r) = false)
    (hs : r ≠ .status) : memWrite (offsetOf r) .w32 v s = .ok { s with status := s.status.lateWrite } :=
  memWrite_late _ _ _ _ _ (locate_register s.params r) hr hb (by simpa using hs)

/-- The eight words from offset 0x20 on are those of KEY, then those of IV (20_memory.md R71). -/
theorem keyOrIv_offset (n : Fin 8) :
    (∃ m, 0x020 + 4 * n.val = offsetOf (.keyW m)) ∨ ∃ m, 0x020 + 4 * n.val = offsetOf (.ivW m) := by
  simp only [offsetOf, regOffset]
  by_cases h : n.val < 4
  · exact .inl ⟨⟨n.val, h⟩, rfl⟩
  · exact .inr ⟨⟨n.val - 4, by omega⟩, by simp only; omega⟩

/-- Settles O32: each input is a writable target that is not STATUS, so its write is late. -/
theorem busyWritesAreIgnored : Obligations.BusyWritesAreIgnored := by
  intro s v hp hb
  refine ⟨memWrite_register_late .cmd v s hb rfl (by decide), memWrite_register_late .cfg v s hb rfl (by decide),
    memWrite_register_late .keylen v s hb rfl (by decide), memWrite_register_late .ivlen v s hb rfl (by decide),
    memWrite_register_late .inLen v s hb rfl (by decide), fun n => ?_,
    fun k w ha hk => memWrite_late _ _ _ _ _ (locate_inBufAt s.params k w ha hk) rfl hb (by simp),
    ⟨_, memWrite_status v s, rfl, rfl⟩, memWrite_readOnly_register .id v s rfl,
    memWrite_readOnly_register .outLen v s rfl, fun n => memWrite_readOnly_register (.rk n) v s rfl,
    memWrite_outBufAt s hp v⟩
  obtain ⟨m, hm⟩ | ⟨m, hm⟩ := keyOrIv_offset n <;> rw [hm]
  · exact memWrite_register_late (.keyW m) v s hb rfl (by simp)
  · exact memWrite_register_late (.ivW m) v s hb rfl (by simp)

/-! ### The lanes of a read -/

/-- A transaction has at most four lanes (20_memory.md R77). -/
theorem Width.bytes_le_four (w : Width) : w.bytes ≤ 4 := by cases w <;> decide

/-- Lane `j` of a read is the byte there, or the draw of its index where the byte is unspecified
(20_memory.md R73; log 6). -/
theorem lane_of_read (k j : Nat) (w : Width) (f : Nat → Option Byte) (hj : j < w.bytes) :
    (le32 (fillLanes k ((List.range w.bytes).map f)) 0).extractLsb' (8 * j) 8 = (f j).getD (Config.freeByte (k + j)) := by
  rw [extract_le32 _ _ (Nat.lt_of_lt_of_le hj w.bytes_le_four), getD_fillLanes, dif_pos (by simpa using hj)]
  simp only [List.getElem_map, List.getElem_range]
  cases f j <;> rfl

/-- The lanes above the width of a read are 0 (20_memory.md R73). -/
theorem lane_above_width (k j : Nat) (w : Width) (f : Nat → Option Byte) (hw : w.bytes ≤ j) (hj : j < 4) :
    (le32 (fillLanes k ((List.range w.bytes).map f)) 0).extractLsb' (8 * j) 8 = 0 := by
  rw [extract_le32 _ _ hj, getD_fillLanes, dif_neg (by simpa using hw)]

/-- Settles O37: the lanes of IN_BUF are its bytes, those never written since reset being unspecified. -/
theorem inputBufferReads : Obligations.InputBufferReads := by
  intro s k w ha hk
  refine ⟨_, memRead_of_locate _ _ _ _ (locate_inBufAt s.params k w ha hk), fun j b hj hb => ?_, fun j hj hb => ?_,
    fun j hw hj => lane_above_width _ _ _ _ hw hj⟩
  · exact (lane_of_read _ _ _ _ hj).trans (by rw [hb]; rfl)
  · exact (lane_of_read _ _ _ _ hj).trans (by rw [hb]; rfl)

/-- A read of OUT_BUF gives the lanes that `outLane` names, a free draw where it names none (20_memory.md R84, R86). -/
theorem memRead_outBufAt (s : State) (hp : paramsWf s.params = true) (k : Nat) (w : Width) (ha : k % w.bytes = 0)
    (hk : k + w.bytes ≤ s.params.maxMsg + 16) :
    ∃ d, memRead (outBufAt k) w s = .ok d ∧
      ∀ j, j < w.bytes → d.extractLsb' (8 * j) 8 = (outLane (k + j) s).getD (Config.freeByte (s.draws + j)) :=
  ⟨_, memRead_of_locate _ _ _ _ (locate_outBufAt s.params hp k w ha hk), fun _ hj => lane_of_read _ _ _ _ hj⟩

/-- No byte of OUT_BUF has a value while the core is busy (20_memory.md R84). -/
theorem outLane_of_busy (i : Nat) (s : State) (hb : s.busy = true) : outLane i s = none := by
  simp [outLane, hb]

/-- No byte of OUT_BUF has a value at OUT_LEN and above, after a failure, or where none was ever written
(20_memory.md R86). -/
theorem outLane_of_unspecified (i : Nat) (s : State)
    (h : s.outLen.toNat ≤ i ∨ s.status.err = true ∨ s.outBuf = []) : outLane i s = none := by
  rcases h with h | h | h
  · simp [outLane, h]
  · simp [outLane, h]
  · simp [outLane, h, Memory.read]

/-- A byte of the result of an idle, consistent core is the listed one: ERR = 1 would leave OUT_LEN = 0
(20_memory.md R86, 60_exceptions.md R307). -/
theorem outLane_of_result (i : Nat) (s : State) (hc : s.Consistent) (hb : s.busy = false) (hi : i < s.outLen.toNat) :
    outLane i s = s.outBuf.read i := by
  have herr : s.status.err = false := by
    rw [Bool.eq_false_iff]
    intro he
    rw [hc.failed he] at hi
    exact Nat.not_lt_zero _ hi
  simp [outLane, hb, herr, hi]

/-- A register whose lanes are all unspecified reads as four free draws (20_memory.md R84). -/
theorem memRead_register_unspecified (r : Reg) (s : State) (h : regLanes r s = List.replicate 4 none) :
    ∃ d, memRead (offsetOf r) .w32 s = .ok d ∧
      ∀ j, j < 4 → d.extractLsb' (8 * j) 8 = Config.freeByte (s.draws + j) := by
  refine ⟨_, memRead_of_locate _ _ _ _ (locate_register s.params r), fun j hj => ?_⟩
  rw [readLanes, h]
  exact lane_of_read s.draws j .w32 (fun _ => none) hj

/-- Only OUT_LEN and RK are unspecified while the core is busy (20_memory.md R84). -/
theorem regLanes_of_specified (r : Reg) (s : State) (ho : r ≠ .outLen) (hk : ∀ n, r ≠ .rk n) :
    regLanes r s = knownLanes (readReg r s) := by
  cases r with
  | outLen => exact absurd rfl ho
  | rk n => exact absurd rfl (hk n)
  | id | cmd | status | cfg | keylen | ivlen | inLen | keyW | ivW => rfl

/-- Settles O38: while Busy, OUT_LEN, RK and OUT_BUF have no specified lane, and every other location keeps its own. -/
theorem readsWhileBusyAreFree : Obligations.ReadsWhileBusyAreFree := by
  intro s hp hb
  refine ⟨memRead_register_unspecified .outLen s (if_pos hb),
    fun n => memRead_register_unspecified (.rk n) s (if_pos hb), fun k w ha hk => ?_,
    fun r ho hk => memRead_register r s (regLanes_of_specified r s ho hk), fun k b hk => memRead_inBuf_byte k b s hk⟩
  obtain ⟨d, hd, hl⟩ := memRead_outBufAt s hp k w ha hk
  exact ⟨d, hd, fun j hj => by rw [hl j hj, outLane_of_busy _ s hb]; rfl⟩

/-- Settles O39: the lanes of OUT_BUF, unspecified by R86's cases, and those of the result listed by the invariant. -/
theorem outputBufferReads : Obligations.OutputBufferReads := by
  intro s k w hc hb ha hk
  obtain ⟨d, hd, hl⟩ := memRead_outBufAt s hc.params k w ha hk
  refine ⟨d, hd, fun j hj hu => ?_, fun j hj hr => ?_⟩
  · rw [hl j hj, outLane_of_unspecified _ s hu]
    rfl
  · obtain ⟨b, hs⟩ := Option.isSome_iff_exists.mp (hc.result _ hr)
    refine ⟨b, hs, ?_⟩
    rw [hl j hj, outLane_of_result _ s hc hb hr, hs]
    rfl

/-! ### The frames of a command and of a host turn -/

/-- Settles O20: the frame of a completion step. -/
theorem commandsNeverWriteInputs : Obligations.CommandsNeverWriteInputs := exec_frame

/-- A write transaction never writes RK, OUT_BUF or OUT_LEN (20_memory.md R79). -/
theorem memWrite_keeps_outputs (a : Nat) (w : Width) (v : Word) (s t : State) (h : memWrite a w v s = .ok t) :
    t.rk = s.rk ∧ t.outBuf = s.outBuf ∧ t.outLen = s.outLen := by
  obtain ⟨g, -, ⟨-, rfl⟩ | ⟨-, -, -, rfl⟩ | ⟨-, -, rfl⟩⟩ := memWrite_cases a w v s t h
  · exact ⟨rfl, rfl, rfl⟩
  · exact ⟨rfl, rfl, rfl⟩
  · cases g with
    | reg r => cases r <;> exact ⟨rfl, rfl, rfl⟩
    | inBuf i | outBuf i => exact ⟨rfl, rfl, rfl⟩

/-- While Busy a write transaction writes DONE and WERR at most: only STATUS takes a write, and a late one sets WERR
(20_memory.md R83). -/
theorem memWrite_of_busy (a : Nat) (w : Width) (v : Word) (s t : State) (hb : s.busy = true)
    (h : memWrite a w v s = .ok t) :
    t = { s with status := { s.status with done := t.status.done, werr := t.status.werr } } := by
  obtain ⟨g, -, ⟨-, rfl⟩ | ⟨-, -, -, rfl⟩ | ⟨-, hi | rfl, rfl⟩⟩ := memWrite_cases a w v s t h
  · rfl
  · rfl
  · exact absurd (hb.symm.trans hi) (by decide)
  · rfl

/-- The host agent is no part of the outputs. -/
theorem SameButHost.outputs {s u : State} (hu : SameButHost s u) :
    u.rk = s.rk ∧ u.outBuf = s.outBuf ∧ u.outLen = s.outLen := by
  rw [hu]; exact ⟨rfl, rfl, rfl⟩

/-- A host turn never writes RK, OUT_BUF or OUT_LEN (20_memory.md R79). -/
theorem hostTurn_keeps_outputs (s : State) :
    (hostTurn s).rk = s.rk ∧ (hostTurn s).outBuf = s.outBuf ∧ (hostTurn s).outLen = s.outLen := by
  rcases hostTurn_cases s with hs | ⟨a, w, v, u, hw, hu⟩
  · exact hs.outputs
  · obtain ⟨hrk, hbuf, hlen⟩ := hu.outputs
    obtain ⟨wrk, wbuf, wlen⟩ := memWrite_keeps_outputs a w v s u hw
    exact ⟨hrk.trans wrk, hbuf.trans wbuf, hlen.trans wlen⟩

/-- While Busy a host turn writes nothing of the core but DONE and WERR (20_memory.md R82, R83). -/
theorem hostTurn_of_busy (s : State) (hb : s.busy = true) :
    ∃ dn we h d, hostTurn s = { s with status := { s.status with done := dn, werr := we }, host := h, draws := d } := by
  rcases hostTurn_cases s with hs | ⟨a, w, v, u, hw, hu⟩
  · exact ⟨s.status.done, s.status.werr, _, _, hs⟩
  · refine ⟨u.status.done, u.status.werr, (hostTurn s).host, (hostTurn s).draws, hu.trans ?_⟩
    rw [memWrite_of_busy a w v s u hb hw]

/-- Settles O41: a host turn is at most one write transaction, which keeps the outputs and, while Busy, the inputs. -/
theorem hostTurnKeepsOutputsAndBusyInputs : Obligations.HostTurnKeepsOutputsAndBusyInputs := by
  intro s
  obtain ⟨hrk, hbuf, hlen⟩ := hostTurn_keeps_outputs s
  exact ⟨hrk, hbuf, hlen, hostTurn_of_busy s⟩

end Sys2Proof.Machine

namespace Sys2Proof.Machine

/-! ### The decoder -/

/-- A word is a 4-bit number exactly when RSV (bits 31:4) is 0 and OP (bits 3:0) is that number (30_encoding.md R110). -/
theorem eq_setWidth_iff_fields (w : Word) (op : BitVec 4) :
    w = op.setWidth 32 ↔ w.extractLsb' 4 28 = 0 ∧ w.extractLsb' 0 4 = op := by
  have hw := w.isLt
  have hop := op.isLt
  simp only [← BitVec.toNat_inj, BitVec.toNat_setWidth, BitVec.extractLsb'_toNat, BitVec.ofNat_eq_ofNat,
    BitVec.toNat_ofNat, Nat.shiftRight_eq_div_pow]
  omega

/-- The number of a command names it, and no other number does (30_encoding.md R111). -/
theorem decodeOp_eq_ok_iff (op : BitVec 4) (i : Instr) : decodeOp op.toNat = .ok i ↔ op = opNumber i := by
  revert op
  cases i <;> decide

/-- The numbers from 6 on are reserved (30_encoding.md R111). -/
theorem decodeOp_of_reserved (n : Nat) (h : 6 ≤ n) : decodeOp n = .error .reservedOp := by
  obtain ⟨m, rfl⟩ := Nat.exists_eq_add_of_le' h
  rfl

/-- Exactly the numbers up to 5 are those of commands (30_encoding.md R111). -/
theorem exists_decodeOp_eq_ok_iff (n : Nat) : (∃ i, decodeOp n = .ok i) ↔ n ≤ 5 := by
  constructor
  · rintro ⟨i, hi⟩
    by_contra hn
    cases (decodeOp_of_reserved n (by omega)).symm.trans hi
  · intro hn
    interval_cases n <;> exact ⟨_, rfl⟩

/-- A word with RSV = 0 decodes by its OP (30_encoding.md R112). -/
theorem decode_of_rsv_zero (w : Word) (h : w.extractLsb' 4 28 = 0) : decode w = decodeOp (w.extractLsb' 0 4).toNat :=
  if_neg (not_not.mpr h)

/-- A word with a reserved bit set is illegal (30_encoding.md R112). -/
theorem decode_of_rsv_ne_zero (w : Word) (h : w.extractLsb' 4 28 ≠ 0) : decode w = .error .reservedBits := if_pos h

/-- What a word that decodes is: RSV = 0, and an OP that decodes (30_encoding.md R112). -/
theorem decode_eq_ok_iff (w : Word) (i : Instr) :
    decode w = .ok i ↔ w.extractLsb' 4 28 = 0 ∧ decodeOp (w.extractLsb' 0 4).toNat = .ok i := by
  by_cases h : w.extractLsb' 4 28 = 0
  · rw [decode_of_rsv_zero w h, and_iff_right h]
  · rw [decode_of_rsv_ne_zero w h, iff_false_right (fun k => h k.1)]
    exact nofun

/-- A word with a reserved bit set or a reserved OP is illegal (30_encoding.md R112). -/
theorem decode_of_illegal (w : Word) (h : w.extractLsb' 4 28 ≠ 0 ∨ 6 ≤ (w.extractLsb' 0 4).toNat) :
    ∃ e, decode w = .error e := by
  by_cases hr : w.extractLsb' 4 28 = 0
  · exact ⟨_, (decode_of_rsv_zero w hr).trans (decodeOp_of_reserved _ (h.resolve_left (not_not.mpr hr)))⟩
  · exact ⟨_, decode_of_rsv_ne_zero w hr⟩

/-- Decoding inverts encoding, and no other word decodes to a command (30_encoding.md R112). -/
theorem decode_eq_ok_iff_encode (w : Word) (i : Instr) : decode w = .ok i ↔ w = encode i := by
  rw [decode_eq_ok_iff, decodeOp_eq_ok_iff, encode, eq_setWidth_iff_fields]

/-- The completion step of a word that does not decode raises ILLEGAL_COMMAND (46_commands.md R262). -/
theorem completionStep_of_error (w : Word) (e : DecodeReject) (s : State) (h : decode w = .error e) :
    completionStep w s = .next (failedState .illegalCommand s) := by
  simp only [completionStep, h]
  rfl

/-- Settles O2: RSV and OP determine the word, OP determines the command, and a reserved field makes the completion fail. -/
theorem decodeIsTotalAndExact : Obligations.DecodeIsTotalAndExact := by
  intro w
  refine ⟨decode_eq_ok_iff_encode w, ?_, fun i hi => ?_, fun hill s => ⟨fun hb => ?_, ?_⟩⟩
  · simp only [decode_eq_ok_iff, exists_and_left, exists_decodeOp_eq_ok_iff]
  · obtain ⟨-, hop⟩ := (decode_eq_ok_iff w i).mp hi
    exact ((decodeOp_eq_ok_iff _ i).mp hop).symm
  · exact ⟨accept w s, memWrite_register_idle .cmd w s rfl hb, rfl, rfl⟩
  · obtain ⟨e, he⟩ := decode_of_illegal w hill
    exact completionStep_of_error w e s he

/-- Settles O1: each of the six words is that of its command, and the words of 0x6 to 0xF have RSV = 0 and a reserved OP. -/
theorem specWordsDecode : Obligations.SpecWordsDecode := by
  have ok (i : Instr) : decode (encode i) = .ok i := (decode_eq_ok_iff_encode _ i).mpr rfl
  refine ⟨ok .nop, ok .keysched, ok .encBlock, ok .decBlock, ok .encrypt, ok .decrypt, fun op h6 h15 => ?_⟩
  have hop : (BitVec.ofNat 4 op).toNat = op := Nat.mod_eq_of_lt (by omega)
  obtain ⟨hrsv, hfield⟩ := (eq_setWidth_iff_fields (BitVec.ofNat 32 op) (BitVec.ofNat 4 op)).mp
    (BitVec.setWidth_ofNat_of_le_of_lt (by decide) (by omega)).symm
  rw [decode_of_rsv_zero _ hrsv, hfield, hop]
  exact decodeOp_of_reserved op h6

/-! ### The lines of a host script -/

/-- The host goes on after a write with an "okay" response (30_encoding.md R115). -/
theorem hostWrite_of_ok (a : Nat) (w : Width) (v : Word) (s t : State) (h : memWrite a w v s = .ok t) :
    hostWrite a w v s = respond .writeOkay t := by
  simp only [hostWrite, h]

/-- A host that has failed, or has no line left, stands still. -/
theorem hostTurn_of_stopped (s : State) (h : s.host.failed = true ∨ s.host.script[s.host.line]? = none) :
    hostTurn s = s := by
  unfold hostTurn
  rcases h with hf | hn
  · rw [if_pos hf]
  · rw [hn]
    exact ite_self s

/-- Settles O44: each line is the transaction or the branch that its name says, and a host with no line left stands still. -/
theorem scriptLines : Obligations.ScriptLines := by
  refine ⟨fun s s' a w v h => ⟨(respond .writeOkay s').host, hostWrite_of_ok a w v s s' h, rfl, rfl⟩, fun s a w d h => ?_,
    fun s i hf hi => ?_, hostTurn_of_stopped⟩
  · rw [hostRead_of_ok a w s d h]
    exact ⟨rfl, rfl⟩
  · rw [hostTurn_of_line s i hf hi]
    cases i with
    | wr32 a v | wr16 a v | wr8 a v | rd32 a | rd16 a | rd8 a | expect v => rfl
    | bnz m n | bz m n => by_cases hm : s.host.rd &&& m = 0 <;> simp [runLine, branch, gotoLine, hm]

/-! ### Scripts of writes -/

/-- The offset of a target in the window (20_memory.md R71). -/
def targetOffset : Target → Nat
  | .reg r => offsetOf r
  | .inBuf k => inBufAt k
  | .outBuf k => outBufAt k

/-- The line that writes a word to a target. -/
def writeLine (x : Target × Word) : ScriptInstr := .wr32 (targetOffset x.1) x.2

/-- The effect of 32-bit writes to targets, one after the other. -/
def writeAll (xs : List (Target × Word)) (s : State) : State := xs.foldl (fun u x => writeTarget x.1 .w32 x.2 u) s

/-- Some writes, then some more. -/
theorem writeAll_append (xs ys : List (Target × Word)) (s : State) :
    writeAll (xs ++ ys) s = writeAll ys (writeAll xs s) := List.foldl_append

/-- A target that a 32-bit write at its offset reaches and stores to, without starting a command. -/
structure Storable (p : Params) (g : Target) : Prop where
  reached : locate p (targetOffset g) .w32 = some g
  writable : readOnly g = false
  not_cmd : g ≠ .reg .cmd

/-- The writable registers but CMD are storable, whatever the parameters. -/
theorem storable_reg (p : Params) (r : Reg) (hr : readOnly (.reg r) = false) (hc : r ≠ .cmd) : Storable p (.reg r) :=
  ⟨locate_register p r, hr, fun h => hc (Target.reg.inj h)⟩

/-- An aligned word inside IN_BUF is storable. -/
theorem storable_inBuf (p : Params) (k : Nat) (ha : k % 4 = 0) (hk : k + 4 ≤ p.maxMsg) : Storable p (.inBuf k) :=
  ⟨locate_inBufAt p k .w32 ha hk, rfl, nofun⟩

/-- Only a write to CMD starts a command (46_commands.md R250). -/
theorem writeTarget_seq (g : Target) (w : Width) (v : Word) (s : State) (h : g ≠ .reg .cmd) :
    (writeTarget g w v s).seq = s.seq := by
  cases g with
  | reg r =>
    cases r with
    | cmd => exact absurd rfl h
    | id | status | cfg | keylen | ivlen | inLen | outLen | keyW n | ivW n | rk n => rfl
  | inBuf i | outBuf i => rfl

/-- A write neither sees nor changes the host agent, and keeps the schedule. -/
theorem writeTarget_host_sched (g : Target) (w : Width) (v : Word) (s : State) (h : HostAgent) :
    writeTarget g w v { s with host := h } = { writeTarget g w v s with host := h } ∧
      (writeTarget g w v s).host = s.host ∧ (writeTarget g w v s).sched = s.sched := by
  cases g with
  | reg r => cases r <;> exact ⟨rfl, rfl, rfl⟩
  | inBuf i | outBuf i => exact ⟨rfl, rfl, rfl⟩

/-- Writes do not see the host agent. -/
theorem writeAll_withHost (xs : List (Target × Word)) (s : State) (h : HostAgent) :
    writeAll xs { s with host := h } = { writeAll xs s with host := h } := by
  induction xs generalizing s with
  | nil => rfl
  | cons x xs ih =>
    obtain ⟨hwrite, -⟩ := writeTarget_host_sched x.1 .w32 x.2 s h
    exact (congrArg (writeAll xs) hwrite).trans (ih _)

/-- On an idle core with an empty schedule, a write line stores its word, and the host goes on at the next line (log 1). -/
theorem step_writeLine (x : Target × Word) (s : State) (hs : s.seq = .idle) (hq : s.sched = [])
    (hf : s.host.failed = false) (hl : s.host.script[s.host.line]? = some (writeLine x)) (hx : Storable s.params x.1) :
    step s = .next (respond .writeOkay (writeTarget x.1 .w32 x.2 s)) := by
  have hw := memWrite_effect _ _ x.2 s _ hx.reached hx.writable (.inl ((not_busy_iff s).mpr hs))
  rw [step_of_host s hs hq, hostTurn_of_line s _ hf hl]
  exact congrArg _ (hostWrite_of_ok _ _ _ _ _ hw)

/-- Write lines anywhere in a script, on an idle core with an empty schedule: a step for each line, and then all their words
are stored and the host is past them (log 1). -/
theorem run_writeLines (xs : List (Target × Word)) (s : State) (before after : List ScriptInstr) (hs : s.seq = .idle)
    (hq : s.sched = []) (hf : s.host.failed = false) (hl : s.host.line = before.length)
    (hscript : s.host.script = before ++ xs.map writeLine ++ after) (hx : ∀ x ∈ xs, Storable s.params x.1) :
    ∃ h, core.run xs.length s = .next { writeAll xs s with host := h } ∧ h.line = before.length + xs.length ∧
      h.script = s.host.script ∧ h.failed = false := by
  induction xs generalizing s before with
  | nil => exact ⟨s.host, rfl, hl, rfl, hf⟩
  | cons x xs ih =>
    obtain ⟨hx0, hxs⟩ := List.forall_mem_cons.mp hx
    obtain ⟨-, hhost, hsched⟩ := writeTarget_host_sched x.1 .w32 x.2 s s.host
    have hstep := step_writeLine x s hs hq hf (by simp [hscript, hl]) hx0
    obtain ⟨h, hrun, hline, hsame, hfail⟩ := ih (respond .writeOkay (writeTarget x.1 .w32 x.2 s))
      (before ++ [writeLine x]) ((writeTarget_seq _ _ _ s hx0.not_cmd).trans hs) (hsched.trans hq) (by simp [hhost, hf])
      (by simp [hhost, hl]) (by simp [hhost, hscript]) (by simpa using hxs)
    refine ⟨h, ?_, hline.trans (by simp [Nat.add_assoc, Nat.add_comm 1]), hsame.trans (by simp [hhost]), hfail⟩
    rw [List.length_cons, run_succ_of_next _ s _ hstep, hrun]
    exact congrArg (fun u : State => Host.Outcome.next { u with host := h }) (writeAll_withHost xs _ _)

/-! ### LDKEY and LDIV -/

/-- Byte `j` of `le32(s, o)` is byte `o + j` of `s` (40_word_utilities.md R142). -/
theorem byteAt_le32 (l : List Byte) (o j : Nat) (h : j < 4) : byteAt (le32 l o) j = byteIn l (o + j) := by
  have hcase : j = 0 ∨ j = 1 ∨ j = 2 ∨ j = 3 := by omega
  rcases hcase with rfl | rfl | rfl | rfl
  · exact byteAt_wordOf_0 _ _ _ _
  · exact byteAt_wordOf_1 _ _ _ _
  · exact byteAt_wordOf_2 _ _ _ _
  · exact byteAt_wordOf_3 _ _ _ _

/-- Writing word `n` of `v` makes the bytes of that word those of `v` (20_memory.md R73). -/
theorem getElem_setFileWord_fileWord (f v : Vector Byte 16) (n : Fin 4) (j : Nat) (hj : j < 16) :
    (setFileWord f n (fileWord v n))[j] = if j / 4 = n.val then v[j] else f[j] := by
  rw [getElem_setFileWord]
  by_cases h : j / 4 = n.val
  · have hidx : 4 * n.val + j % 4 = j := by omega
    rw [if_pos h, if_pos h, fileWord, byteAt_le32 _ _ _ (Nat.mod_lt j (by decide)), hidx, byteIn_toList v j hj]
  · rw [if_neg h, if_neg h]

/-- A register file after writes of the words `ns` of `v`. -/
def setFileWords (v : Vector Byte 16) (ns : List (Fin 4)) (f : Vector Byte 16) : Vector Byte 16 :=
  ns.foldl (fun g n => setFileWord g n (fileWord v n)) f

/-- The bytes of the words `ns` are then those of `v`, and the others are as before. -/
theorem getElem_setFileWords (v : Vector Byte 16) (ns : List (Fin 4)) (f : Vector Byte 16) (j : Nat) (hj : j < 16) :
    (setFileWords v ns f)[j] = if ⟨j / 4, by omega⟩ ∈ ns then v[j] else f[j] := by
  induction ns generalizing f with
  | nil => rfl
  | cons n ns ih =>
    refine (ih _).trans ?_
    rw [getElem_setFileWord_fileWord]
    by_cases hmem : (⟨j / 4, by omega⟩ : Fin 4) ∈ ns <;> simp [hmem, Fin.ext_iff]

/-- The four words of `v`, written one after the other, make a register file `v`. -/
theorem setFileWords_all (v f : Vector Byte 16) : setFileWords v [0, 1, 2, 3] f = v := by
  have hall : ∀ n : Fin 4, n ∈ [0, 1, 2, 3] := by decide
  ext j hj
  rw [getElem_setFileWords, if_pos (hall _)]

/-- The writes of the words `ns` of `v` to a register file. -/
def fileWrites (file : Fin 4 → Reg) (v : Vector Byte 16) (ns : List (Fin 4)) : List (Target × Word) :=
  ns.map fun n => (.reg (file n), fileWord v n)

/-- The writes of words to KEY. -/
theorem writeAll_keyWords (v : Vector Byte 16) (ns : List (Fin 4)) (s : State) :
    writeAll (fileWrites .keyW v ns) s = { s with key := setFileWords v ns s.key } := by
  induction ns generalizing s with
  | nil => rfl
  | cons n ns ih => exact ih _

/-- The writes of words to IV. -/
theorem writeAll_ivWords (v : Vector Byte 16) (ns : List (Fin 4)) (s : State) :
    writeAll (fileWrites .ivW v ns) s = { s with iv := setFileWords v ns s.iv } := by
  induction ns generalizing s with
  | nil => rfl
  | cons n ns ih => exact ih _

/-- The writes of LDKEY and LDIV: the four words of a register file, then its length register. -/
def fileLoad (file : Fin 4 → Reg) (len : Reg) (v : Vector Byte 16) : List (Target × Word) :=
  fileWrites file v [0, 1, 2, 3] ++ [(.reg len, 16)]

/-- LDKEY's lines (30_encoding.md R117). -/
theorem expand_ldkey (at_ : Nat) (k : Vector Byte 16) :
    expand at_ (.ldkey k) = (fileLoad .keyW .keylen k).map writeLine := rfl

/-- LDIV's lines (30_encoding.md R117). -/
theorem expand_ldiv (at_ : Nat) (v : Vector Byte 16) :
    expand at_ (.ldiv v) = (fileLoad .ivW .ivlen v).map writeLine := rfl

/-- LDKEY's writes load KEY and KEYLEN. -/
theorem writeAll_ldkey (k : Vector Byte 16) (s : State) :
    writeAll (fileLoad .keyW .keylen k) s = { s with key := k, keylen := 16 } := by
  rw [fileLoad, writeAll_append, writeAll_keyWords, setFileWords_all]
  rfl

/-- LDIV's writes load IV and IVLEN. -/
theorem writeAll_ldiv (v : Vector Byte 16) (s : State) :
    writeAll (fileLoad .ivW .ivlen v) s = { s with iv := v, ivlen := 16 } := by
  rw [fileLoad, writeAll_append, writeAll_ivWords, setFileWords_all]
  rfl

/-- The writes of LDKEY and LDIV are storable where their registers are. -/
theorem storable_fileLoad (p : Params) (file : Fin 4 → Reg) (len : Reg) (v : Vector Byte 16)
    (hfile : ∀ n, Storable p (.reg (file n))) (hlen : Storable p (.reg len)) :
    ∀ x ∈ fileLoad file len v, Storable p x.1 := by
  simp [fileLoad, fileWrites, hfile, hlen]

/-- Settles O45: the lines are five writes to registers, whose words make up the register file. -/
theorem loadKeyScript : Obligations.LoadKeyScript := by
  intro s k before after hs hq hf hl
  refine ⟨fun hscript => ?_, fun hscript => ?_⟩
  · have hrun := run_writeLines _ s before after hs hq hf hl (expand_ldkey before.length k ▸ hscript)
      (storable_fileLoad _ _ _ _ (fun n => storable_reg _ (.keyW n) rfl nofun) (storable_reg _ .keylen rfl nofun))
    rw [writeAll_ldkey] at hrun
    exact hrun
  · have hrun := run_writeLines _ s before after hs hq hf hl (expand_ldiv before.length k ▸ hscript)
      (storable_fileLoad _ _ _ _ (fun n => storable_reg _ (.ivW n) rfl nofun) (storable_reg _ .ivlen rfl nofun))
    rw [writeAll_ldiv] at hrun
    exact hrun

/-! ### LDIN -/

/-- A byte sequence written in two parts. -/
theorem writeBytes_append (m : Memory) (a : Nat) (xs ys : List Byte) :
    m.writeBytes a (xs ++ ys) = (m.writeBytes a xs).writeBytes (a + xs.length) ys := by
  induction xs generalizing m a with
  | nil => rfl
  | cons x xs ih =>
    rw [List.length_cons, Nat.add_comm xs.length, ← Nat.add_assoc]
    exact ih _ _

/-- The first `n` bytes of `d`, those beyond its end being zero (30_encoding.md R117). -/
def paddedTo (n : Nat) (d : List Byte) : List Byte := (List.range n).map (byteIn d)

@[simp] theorem paddedTo_length (n : Nat) (d : List Byte) : (paddedTo n d).length = n := by simp [paddedTo]

/-- Byte `j` of the padded sequence is that of `d`, or zero beyond its end. -/
theorem getD_paddedTo (n j : Nat) (d : List Byte) (h : j < n) : (paddedTo n d).getD j 0 = d.getD j 0 := by
  simp [paddedTo, h, byteIn]

/-- The next word of `d` is its next four bytes (20_memory.md R73). -/
theorem paddedTo_add_four (n : Nat) (d : List Byte) : paddedTo (n + 4) d = paddedTo n d ++ leBytes 4 (le32 d n) := by
  have hword : leBytes 4 (le32 d n) = (List.range 4).map (fun j => byteIn d (n + j)) :=
    List.map_congr_left fun j hj => byteAt_le32 d n j (List.mem_range.mp hj)
  rw [hword, paddedTo, List.range_add, List.map_append, List.map_map]
  rfl

/-- The writes of LDIN's data: `n` words of `d` from the base of IN_BUF on. -/
def inputWrites (d : List Byte) (n : Nat) : List (Target × Word) :=
  (List.range n).map fun j => (.inBuf (4 * j), le32 d (4 * j))

/-- LDIN's lines (30_encoding.md R117). -/
theorem expand_ldin (at_ : Nat) (d : List Byte) :
    expand at_ (.ldin d) =
      (inputWrites d ((d.length + 3) / 4) ++ [(Target.reg .inLen, BitVec.ofNat 32 d.length)]).map writeLine := by
  rw [List.map_append, inputWrites, List.map_map]
  rfl

/-- The words of `d` store its bytes. -/
theorem writeAll_inputWrites (d : List Byte) (n : Nat) (s : State) :
    writeAll (inputWrites d n) s = { s with inBuf := s.inBuf.writeBytes 0 (paddedTo (4 * n) d) } := by
  induction n with
  | zero => rfl
  | succ n ih =>
    rw [inputWrites, List.range_succ, List.map_append, writeAll, List.foldl_append, Nat.mul_succ, paddedTo_add_four,
      writeBytes_append, paddedTo_length, Nat.zero_add]
    exact congrArg (writeTarget (.inBuf (4 * n)) .w32 (le32 d (4 * n))) ih

/-- LDIN's writes load IN_BUF and IN_LEN. -/
theorem writeAll_input (d : List Byte) (n : Nat) (v : Word) (s : State) :
    writeAll (inputWrites d n ++ [(.reg .inLen, v)]) s =
      { s with inBuf := s.inBuf.writeBytes 0 (paddedTo (4 * n) d), inLen := v } := by
  rw [writeAll_append]
  exact congrArg (writeReg .inLen v) (writeAll_inputWrites d n s)

/-- LDIN's writes are storable when the words of its data lie inside IN_BUF. -/
theorem storable_input (p : Params) (d : List Byte) (n : Nat) (v : Word) (hn : 4 * n ≤ p.maxMsg) :
    ∀ x ∈ inputWrites d n ++ [(.reg .inLen, v)], Storable p x.1 := by
  intro x hx
  rcases List.mem_append.mp hx with hw | hl
  · obtain ⟨j, hj, rfl⟩ := List.mem_map.mp hw
    have := List.mem_range.mp hj
    exact storable_inBuf p _ (Nat.mul_mod_right 4 j) (by omega)
  · rw [List.mem_singleton.mp hl]
    exact storable_reg p .inLen rfl nofun

/-- Settles O46: the lines are a write of each word of `d`, which pads it with zeros to whole words, and one of IN_LEN. -/
theorem loadInputScript : Obligations.LoadInputScript := by
  intro s d before after hp hd hs hq hf hl hscript
  obtain ⟨h16, -⟩ := legal_of_paramsWf s.params hp
  rw [expand_ldin] at hscript
  generalize hn : (d.length + 3) / 4 = n at hscript ⊢
  obtain ⟨h, hrun, -⟩ := run_writeLines _ s before after hs hq hf hl hscript (storable_input s.params d n _ (by omega))
  rw [writeAll_input, List.length_append, inputWrites, List.length_map, List.length_range] at hrun
  have hread (j : Nat) (hj : j < 4 * n) : (s.inBuf.writeBytes 0 (paddedTo (4 * n) d)).read j = some (d.getD j 0) := by
    have := read_writeBytes_inside s.inBuf 0 j (paddedTo (4 * n) d) (by simpa using hj)
    rwa [Nat.zero_add, getD_paddedTo _ _ _ hj] at this
  refine ⟨_, h, hrun, fun j hj => hread j (by omega), fun j hj hj4 => ?_, fun j hj => ?_⟩
  · rw [hread j hj4, List.getD_eq_default _ _ hj]
  · exact read_writeBytes_outside _ _ _ _ (.inr (by simpa using hj))

end Sys2Proof.Machine

namespace Sys2Proof.Machine

/-! ## The word and block views (40_word_utilities.md R140–R142, R146) -/

/-- `byte_at` is the shift and mask of 40_word_utilities.md R140. -/
theorem setWidth_byteAt (w : Word) (n : Nat) : (byteAt w n).setWidth 32 = (w >>> (8 * n)) &&& 0xFF := by
  apply BitVec.eq_of_toNat_eq
  rw [byteAt, BitVec.toNat_setWidth, BitVec.extractLsb'_toNat, BitVec.toNat_and, BitVec.toNat_ushiftRight]
  have hfits : (w.toNat >>> (8 * n)) % 2 ^ 8 < 2 ^ 32 := by omega
  exact (Nat.mod_eq_of_lt hfits).trans (Nat.and_two_pow_sub_one_eq_mod _ 8).symm

/-- `swap_endian` reverses the bytes a word is made of (40_word_utilities.md R141). -/
@[simp] theorem swapEndian_wordOf (b3 b2 b1 b0 : Byte) : swapEndian (wordOf b3 b2 b1 b0) = wordOf b0 b1 b2 b3 := by
  simp only [swapEndian, byteAt_wordOf_0, byteAt_wordOf_1, byteAt_wordOf_2, byteAt_wordOf_3]

theorem byteAt_swapEndian (w : Word) (n : Nat) (h : n < 4) : byteAt (swapEndian w) n = byteAt w (3 - n) := by
  have hcase : n = 0 ∨ n = 1 ∨ n = 2 ∨ n = 3 := by omega
  rcases hcase with rfl | rfl | rfl | rfl
  · exact byteAt_wordOf_0 _ _ _ _
  · exact byteAt_wordOf_1 _ _ _ _
  · exact byteAt_wordOf_2 _ _ _ _
  · exact byteAt_wordOf_3 _ _ _ _

@[simp] theorem swapEndian_swapEndian (w : Word) : swapEndian (swapEndian w) = w :=
  calc swapEndian (swapEndian w)
    _ = wordOf (byteAt w 3) (byteAt w 2) (byteAt w 1) (byteAt w 0) := swapEndian_wordOf _ _ _ _
    _ = w := wordOf_byteAt w

/-- The big-endian view of four bytes is their little-endian view with the bytes exchanged (40_word_utilities.md R142). -/
theorem be32_eq_swapEndian_le32 (s : List Byte) (o : Nat) : be32 s o = swapEndian (le32 s o) :=
  (swapEndian_wordOf _ _ _ _).symm

/-- The bytes of a word, written from the least significant up. -/
theorem wordOf_eq_or_ascending (b3 b2 b1 b0 : Byte) :
    wordOf b3 b2 b1 b0 =
      b0.setWidth 32 ||| b1.setWidth 32 <<< 8 ||| b2.setWidth 32 <<< 16 ||| b3.setWidth 32 <<< 24 := by
  rw [wordOf, BitVec.or_comm, BitVec.or_comm _ (b1.setWidth 32 <<< 8), BitVec.or_comm _ (b2.setWidth 32 <<< 16),
    ← BitVec.or_assoc, ← BitVec.or_assoc]

@[simp] theorem be32_be32bytes (w : Word) : be32 (be32bytes w) 0 = w := wordOf_byteAt w

/-- Exclusive-or of blocks is bytewise; past their common end every byte is 0 (40_word_utilities.md R146). -/
theorem byteIn_xor16 (x y : List Byte) (h : x.length = y.length) (i : Nat) :
    byteIn (xor16 x y) i = byteIn x i ^^^ byteIn y i := by
  by_cases hi : i < x.length
  · have hy : i < y.length := h ▸ hi
    simp [byteIn, xor16, hi, hy]
  · have hy : ¬ i < y.length := h ▸ hi
    simp [byteIn, xor16, hi, hy]

/-- Exclusive-or of blocks is that of their words (40_word_utilities.md R146). -/
theorem be32_xor16 (x y : List Byte) (h : x.length = y.length) (o : Nat) :
    be32 (xor16 x y) o = be32 x o ^^^ be32 y o := by
  simp only [be32, byteIn_xor16 x y h, wordOf_xor]

/-- Settles O48: the views of a word are those of its four bytes. -/
theorem wordAndBlockViews : Obligations.WordAndBlockViews := by
  refine ⟨fun w n _ => setWidth_byteAt w n, fun w => ⟨byteAt_swapEndian w, swapEndian_swapEndian w⟩,
    fun b => swapEndian_wordOf b b b b, by decide,
    fun s o => ⟨be32_eq_swapEndian_le32 s o, rfl, wordOf_eq_or_ascending _ _ _ _⟩,
    fun w => ⟨be32_be32bytes w, rfl⟩, fun x y hx hy => ?_⟩
  have hlen : x.length = y.length := hx.trans hy.symm
  exact ⟨by rw [xor16_length, hx, hy, Nat.min_self], fun i _ => byteIn_xor16 x y hlen i,
    fun k _ => be32_xor16 x y hlen (4 * k)⟩

end Sys2Proof.Machine

namespace Sys2Proof.Machine

/-! ## The key schedule (42_key_schedule.md) -/

/-! ### The round keys an earlier command left (R178) -/

/-- Any other round keys. -/
def withRk (r : Vector Word 32) (s : State) : State := { s with rk := r }

/-- The body of every command but NOP overwrites RK before it reads it (42_key_schedule.md R178). -/
theorem bodyOf_withRk (i : Instr) (r : Vector Word 32) (s : State) (hi : i ≠ .nop) :
    bodyOf i (withRk r s) = bodyOf i s := by
  cases i with
  | nop => exact absurd rfl hi
  | keysched | encBlock | decBlock | encrypt | decrypt => rfl

/-- A command that runs the key schedule does the same from any round keys. -/
theorem exec_withRk_of_schedule (i : Instr) (r : Vector Word 32) (s : State) (hi : i ≠ .nop)
    (hv : validate i s = none) : exec i (withRk r s) = exec i s := by
  have hv' : validate i (withRk r s) = none := hv
  rw [exec_eq_runBody, exec_eq_runBody, runBody, runBody, hv, hv', bodyOf_withRk i r s hi]
  rfl

/-- A command that runs no key schedule does the same from any round keys, and keeps them. -/
theorem exec_withRk_of_no_schedule (i : Instr) (r : Vector Word 32) (s t : State)
    (h : i = .nop ∨ validate i s ≠ none) (ht : exec i s = .next t) : exec i (withRk r s) = .next (withRk r t) := by
  rcases exec_cases i s t ht with ⟨c, hc, rfl⟩ | ⟨hv, hw, rfl⟩
  · have hc' : validate i (withRk r s) = some c := hc
    rw [exec_eq_runBody, runBody_of_error _ _ _ _ hc']
    rfl
  · obtain rfl : i = .nop := h.resolve_right (absurd hv)
    rfl

/-- Settles O23: what a command reads of RK it has written itself. -/
theorem oldRoundKeysNeverMatter : Obligations.OldRoundKeysNeverMatter :=
  fun i s r => ⟨exec_withRk_of_schedule i r s, fun h t => exec_withRk_of_no_schedule i r s t h⟩

/-! ### The rotations (R175, R176) -/

/-- A pair of shifts is a window of 32 bits into the two words written side by side. -/
theorem getLsbD_shiftPair (hi lo : Word) (k i : Nat) (hk : k ≤ 32) (h : i < 32) :
    (lo >>> k ^^^ hi <<< (32 - k)).getLsbD i = (hi ++ lo : BitVec 64).getLsbD (i + k) := by
  rw [BitVec.getLsbD_xor, BitVec.getLsbD_ushiftRight, BitVec.getLsbD_shiftLeft, BitVec.getLsbD_append, Nat.add_comm k i]
  by_cases hik : i + k < 32
  · have hbelow : i < 32 - k := by omega
    simp [hik, hbelow]
  · have habove : ¬ i < 32 - k := by omega
    have hpos : i - (32 - k) = i + k - 32 := by omega
    simp [hik, h, habove, hpos, BitVec.getLsbD_of_ge lo (i + k) (by omega)]

/-- A right rotation, bit by bit. -/
theorem getLsbD_rotateRight_mod (x : BitVec 64) (r i : Nat) (h : i < 64) :
    (x.rotateRight r).getLsbD i = x.getLsbD ((i + r) % 64) := by
  rw [BitVec.getLsbD_rotateRight]
  by_cases hr : i < 64 - r % 64
  · have hpos : r % 64 + i = (i + r) % 64 := by omega
    simp only [hr, hpos, decide_true, cond_true]
  · have hpos : i - (64 - r % 64) = (i + r) % 64 := by omega
    simp only [hr, hpos, h, decide_true, decide_false, cond_false, Bool.true_and]

/-- A left rotation is the right rotation by the rest of the 64 bits. -/
theorem rotateLeft_eq_rotateRight (x : BitVec 64) (r : Nat) : x.rotateLeft r = x.rotateRight (64 - r % 64) := by
  apply BitVec.eq_of_getLsbD_eq
  intro i h
  rw [getLsbD_rotateRight_mod x _ i h, BitVec.getLsbD_rotateLeft]
  by_cases hr : i < r % 64
  · have hpos : 64 - r % 64 + i = (i + (64 - r % 64)) % 64 := by omega
    simp only [hr, hpos, decide_true, cond_true]
  · have hpos : i - r % 64 = (i + (64 - r % 64)) % 64 := by omega
    simp only [hr, hpos, h, decide_true, decide_false, cond_false, Bool.true_and]

/-- A rotation by whole 64 bits changes nothing. -/
theorem rotateRight_of_mod_eq_zero (x : BitVec 64) (r : Nat) (hr : r % 64 = 0) : x.rotateRight r = x := by
  apply BitVec.eq_of_getLsbD_eq
  intro i h
  have hpos : (i + r) % 64 = i := by omega
  rw [getLsbD_rotateRight_mod x r i h, hpos]

/-- Right rotations add up. -/
theorem rotateRight_rotateRight (x : BitVec 64) (m n : Nat) :
    (x.rotateRight m).rotateRight n = x.rotateRight (m + n) := by
  apply BitVec.eq_of_getLsbD_eq
  intro i h
  have hpos : ((i + n) % 64 + m) % 64 = (i + (m + n)) % 64 := by omega
  rw [getLsbD_rotateRight_mod _ n i h, getLsbD_rotateRight_mod x m _ (Nat.mod_lt _ (by decide)),
    getLsbD_rotateRight_mod x _ i h, hpos]

/-- The pairs of shifts of 42_key_schedule.md R175 and R176 rotate the two words side by side. -/
theorem shiftPairs_eq_rotateRight (hi lo : Word) (k : Nat) (hk : k ≤ 32) :
    ((hi >>> k ^^^ lo <<< (32 - k)) ++ (lo >>> k ^^^ hi <<< (32 - k)) : BitVec 64) =
      (hi ++ lo : BitVec 64).rotateRight k := by
  apply BitVec.eq_of_getLsbD_eq
  intro i h
  rw [getLsbD_rotateRight_mod _ k i h, BitVec.getLsbD_append]
  by_cases hlow : i < 32
  · have hpos : (i + k) % 64 = i + k := by omega
    rw [if_pos hlow, getLsbD_shiftPair hi lo k i hk hlow, hpos]
  · rw [if_neg hlow, getLsbD_shiftPair lo hi k _ hk (by omega), BitVec.getLsbD_append, BitVec.getLsbD_append]
    by_cases hwrap : i + k < 64
    · rw [if_pos (by omega), if_neg (by omega)]
      congr 1
      omega
    · rw [if_neg (by omega), if_pos (by omega)]
      congr 1
      omega

/-- Two words exchanged are the 64 bits rotated by half. -/
theorem append_swap_eq_rotateRight (hi lo : Word) :
    (lo ++ hi : BitVec 64) = (hi ++ lo : BitVec 64).rotateRight 32 := by
  have h := shiftPairs_eq_rotateRight hi lo 32 (Nat.le_refl 32)
  rwa [BitVec.ushiftRight_eq_zero (Nat.le_refl 32), BitVec.ushiftRight_eq_zero (Nat.le_refl 32), Nat.sub_self,
    BitVec.shiftLeft_zero, BitVec.shiftLeft_zero, BitVec.zero_xor, BitVec.zero_xor] at h

/-- The type-0 rotation rotates A || B right by 8 (42_key_schedule.md R175). -/
theorem rotateAB_append (x : KeyWords) :
    ((rotateAB x).a ++ (rotateAB x).b : BitVec 64) = (x.a ++ x.b : BitVec 64).rotateRight 8 :=
  shiftPairs_eq_rotateRight x.a x.b 8 (by decide)

/-- The type-1 rotation rotates C || D left by 8 (42_key_schedule.md R176). -/
theorem rotateCD_append (x : KeyWords) :
    ((rotateCD x).c ++ (rotateCD x).d : BitVec 64) = (x.c ++ x.d : BitVec 64).rotateLeft 8 :=
  calc ((rotateCD x).c ++ (rotateCD x).d : BitVec 64)
    _ = ((x.d >>> 24 ^^^ x.c <<< 8) ++ (x.c >>> 24 ^^^ x.d <<< 8) : BitVec 64) := by
      rw [rotateCD, BitVec.xor_comm (x.c <<< 8), BitVec.xor_comm (x.d <<< 8)]
    _ = (x.d ++ x.c : BitVec 64).rotateRight 24 := shiftPairs_eq_rotateRight x.d x.c 24 (by decide)
    _ = (x.c ++ x.d : BitVec 64).rotateRight 56 := by
      rw [append_swap_eq_rotateRight x.c x.d, rotateRight_rotateRight]
    _ = (x.c ++ x.d : BitVec 64).rotateLeft 8 := (rotateLeft_eq_rotateRight _ 8).symm

/-- Before round 16 the rotation after a round is chosen by its parity (42_key_schedule.md R171). -/
theorem rotateAfter_of_lt (i : Nat) (x : KeyWords) (h : i < 16) :
    rotateAfter i x = if i % 2 = 1 then rotateAB x else rotateCD x :=
  if_neg (Nat.ne_of_lt h)

/-- Settles O49: a pair of shifts is a rotation of the two words side by side. -/
theorem keyRotations : Obligations.KeyRotations :=
  ⟨fun x => ⟨rotateAB_append x, rfl, rfl, rfl, rfl⟩, fun x => ⟨rotateCD_append x, rfl, rfl, rfl, rfl⟩,
    rotateAfter_of_lt, by decide, by decide⟩

/-! ### The words of every round (R172–R174, R177) -/

/-- The rotation after round `n + 1` makes the words of the next round. -/
theorem rotateAfter_keyWordsAfter (x : KeyWords) (n : Nat) (h : n + 1 < 16) :
    rotateAfter (n + 1) (keyWordsAfter x n) = keyWordsAfter x (n + 1) :=
  rotateAfter_of_lt (n + 1) _ h

/-- The pair of words that round `n + 1 + r` emits, counted from the words of round `n + 1`. -/
theorem keyRounds_getD (x : KeyWords) (m n r : Nat) (hm : r < m) (h : n + r < 16) :
    (keyRounds m (n + 1) (keyWordsAfter x n)).getD (2 * r) 0 =
        gFun (keyT0 (n + r + 1) (keyWordsAfter x (n + r))) ∧
      (keyRounds m (n + 1) (keyWordsAfter x n)).getD (2 * r + 1) 0 =
        gFun (keyT1 (n + r + 1) (keyWordsAfter x (n + r))) := by
  induction r generalizing m n with
  | zero =>
    obtain ⟨m, rfl⟩ := Nat.exists_eq_succ_of_ne_zero (Nat.ne_of_gt hm)
    exact ⟨rfl, rfl⟩
  | succ r ih =>
    obtain ⟨m, rfl⟩ := Nat.exists_eq_succ_of_ne_zero (Nat.ne_of_gt (Nat.zero_lt_of_lt hm))
    have hround : n + (r + 1) = n + 1 + r := by omega
    rw [hround, keyRounds, rotateAfter_keyWordsAfter x n (by omega)]
    exact ih m (n + 1) (by omega) (by omega)

/-- Round-key words are the words that sixteen rounds from the key view emit. -/
theorem rkWord_keySchedule (k : List Byte) (n : Nat) :
    rkWord (keySchedule k) n = (keyRounds 16 1 (keyView k)).getD n 0 := rfl

/-- Round `r + 1` emits G(A + C - KC[r]) and G(B + KC[r] - D) (42_key_schedule.md R173, R174). -/
theorem rkWord_pair (k : List Byte) (r : Nat) (h : r < 16) :
    rkWord (keySchedule k) (2 * r) =
        gFun ((keyWordsAfter (keyView k) r).a + (keyWordsAfter (keyView k) r).c - kc r) ∧
      rkWord (keySchedule k) (2 * r + 1) =
        gFun ((keyWordsAfter (keyView k) r).b + kc r - (keyWordsAfter (keyView k) r).d) := by
  have hround : 0 + r = r := Nat.zero_add r
  have hpair := keyRounds_getD (keyView k) 16 0 r h (hround.symm ▸ h)
  rw [hround] at hpair
  rw [rkWord_keySchedule, rkWord_keySchedule]
  exact hpair

/-- Left rotations add up. -/
theorem rotateLeft_rotateLeft (x : BitVec 64) (m n : Nat) :
    (x.rotateLeft m).rotateLeft n = x.rotateLeft (m + n) := by
  have hpos : (64 - m % 64 + (64 - n % 64)) % 64 = (64 - (m + n) % 64) % 64 := by omega
  rw [rotateLeft_eq_rotateRight, rotateLeft_eq_rotateRight, rotateLeft_eq_rotateRight, rotateRight_rotateRight,
    ← BitVec.rotateRight_mod_eq_rotateRight, hpos, BitVec.rotateRight_mod_eq_rotateRight]

/-- The first `n` rounds rotate A || B as often as one of them is odd, C || D as often as one is even. -/
theorem keyWordsAfter_append (x : KeyWords) (n : Nat) :
    ((keyWordsAfter x n).a ++ (keyWordsAfter x n).b : BitVec 64) =
        (x.a ++ x.b : BitVec 64).rotateRight (8 * ((n + 1) / 2)) ∧
      ((keyWordsAfter x n).c ++ (keyWordsAfter x n).d : BitVec 64) =
        (x.c ++ x.d : BitVec 64).rotateLeft (8 * (n / 2)) := by
  induction n with
  | zero => exact ⟨(rotateRight_of_mod_eq_zero _ _ rfl).symm,
      ((rotateLeft_eq_rotateRight _ _).trans (rotateRight_of_mod_eq_zero _ _ rfl)).symm⟩
  | succ n ih =>
    obtain ⟨hab, hcd⟩ := ih
    by_cases hodd : (n + 1) % 2 = 1
    · have hcount : 8 * ((n + 1) / 2) + 8 = 8 * ((n + 1 + 1) / 2) := by omega
      have hsame : n / 2 = (n + 1) / 2 := by omega
      rw [keyWordsAfter, if_pos hodd, rotateAB_append, hab, rotateRight_rotateRight, hcount, ← hsame]
      exact ⟨rfl, hcd⟩
    · have hcount : 8 * (n / 2) + 8 = 8 * ((n + 1) / 2) := by omega
      have hsame : (n + 1) / 2 = (n + 1 + 1) / 2 := by omega
      rw [keyWordsAfter, if_neg hodd, rotateCD_append, hcd, rotateLeft_rotateLeft, hcount, ← hsame]
      exact ⟨hab, rfl⟩

/-- Two pairs of words are equal when they are side by side. -/
theorem append_word_inj (a b a' b' : Word) (h : (a ++ b : BitVec 64) = (a' ++ b' : BitVec 64)) : a = a' ∧ b = b' :=
  ⟨by simpa only [BitVec.extractLsb'_append_eq_left] using congrArg (BitVec.extractLsb' 32 32) h,
    by simpa only [BitVec.extractLsb'_append_eq_right] using congrArg (BitVec.extractLsb' 0 32) h⟩

/-- Settles O50: each round's pair is that of its words, and fifteen rounds rotate A || B by 64 and C || D by 56. -/
theorem keyScheduleWords : Obligations.KeyScheduleWords := by
  intro k
  obtain ⟨hab, hcd⟩ := keyWordsAfter_append (keyView k) 15
  rw [rotateRight_of_mod_eq_zero _ _ rfl] at hab
  obtain ⟨ha, hb⟩ := append_word_inj _ _ _ _ hab
  exact ⟨rkWord_pair k, ha, hb, hcd⟩

/-! ### Keys of one repeated byte (R179) -/

/-- A word of one repeated byte: bit `i` is bit `i mod 8` of the byte. -/
theorem getLsbD_wordOf_repeat (b : Byte) (i : Nat) (h : i < 32) :
    (wordOf b b b b).getLsbD i = b.getLsbD (i % 8) := by
  rw [getLsbD_wordOf]
  split_ifs <;> (congr 1; omega)

/-- Shifting whole bytes between two equal words of one repeated byte changes nothing. -/
theorem shiftPair_wordOf_repeat (b : Byte) (k : Nat) (hk : k ≤ 32) (h8 : k % 8 = 0) :
    wordOf b b b b >>> k ^^^ wordOf b b b b <<< (32 - k) = wordOf b b b b := by
  apply BitVec.eq_of_getLsbD_eq
  intro i h
  have hbyte : ∀ j, j < 64 → (wordOf b b b b ++ wordOf b b b b : BitVec 64).getLsbD j = b.getLsbD (j % 8) := by
    intro j hj
    rw [BitVec.getLsbD_append]
    split
    · exact getLsbD_wordOf_repeat b j (by omega)
    · rw [getLsbD_wordOf_repeat b _ (by omega)]; congr 1; omega
  have hpos : (i + k) % 8 = i % 8 := by omega
  rw [getLsbD_shiftPair _ _ k i hk h, hbyte _ (by omega), getLsbD_wordOf_repeat b i h, hpos]

/-- The words of a key of one repeated byte are that byte repeated. -/
theorem keyView_replicate (b : Byte) :
    keyView (List.replicate 16 b) =
      { a := wordOf b b b b, b := wordOf b b b b, c := wordOf b b b b, d := wordOf b b b b } := rfl

theorem rotateAB_keyView_replicate (b : Byte) :
    rotateAB (keyView (List.replicate 16 b)) = keyView (List.replicate 16 b) := by
  simp only [keyView_replicate, rotateAB, shiftPair_wordOf_repeat b 8 (by decide) rfl]

theorem rotateCD_keyView_replicate (b : Byte) :
    rotateCD (keyView (List.replicate 16 b)) = keyView (List.replicate 16 b) := by
  have h := shiftPair_wordOf_repeat b 24 (by decide) rfl
  rw [BitVec.xor_comm] at h
  simp only [keyView_replicate, rotateCD, h]

/-- Words that neither rotation changes are the words of every round. -/
theorem keyWordsAfter_of_fixed (x : KeyWords) (hab : rotateAB x = x) (hcd : rotateCD x = x) (n : Nat) :
    keyWordsAfter x n = x := by
  induction n with
  | zero => rfl
  | succ n ih => rw [keyWordsAfter, ih, hab, hcd, ite_self]

/-- The round-key words of a key of one repeated byte. -/
theorem rkWord_replicate (b : Byte) (r : Nat) (h : r < 16) :
    rkWord (keySchedule (List.replicate 16 b)) (2 * r) = gFun (wordOf b b b b + wordOf b b b b - kc r) ∧
      rkWord (keySchedule (List.replicate 16 b)) (2 * r + 1) = gFun (kc r) := by
  obtain ⟨heven, hodd⟩ := rkWord_pair (List.replicate 16 b) r h
  rw [keyWordsAfter_of_fixed _ (rotateAB_keyView_replicate b) (rotateCD_keyView_replicate b), keyView_replicate]
    at heven hodd
  rw [BitVec.add_comm, BitVec.add_sub_cancel] at hodd
  exact ⟨heven, hodd⟩

/-- G tells the even words of the two schedules apart in each of the sixteen rounds. -/
theorem gFun_sub_kc_ne : ∀ r, r < 16 → gFun (0xFFFFFFFE - kc r) ≠ gFun (0 - kc r) := by decide

/-- KEYSCHED succeeds whatever the key (42_key_schedule.md R179). -/
theorem exec_keysched_succeeds (s : State) (h : s.keylen = 16) :
    ∃ t, exec .keysched s = .next t ∧ t.status.err = false := by
  have hv : validate .keysched s = none := by rw [validate_keysched, if_neg (not_not_intro h)]
  exact ⟨keyschedBody s, exec_of_ok .keysched s hv rfl, rfl⟩

/-- Settles O51: the words of such a key are fixed points of both rotations. -/
theorem repeatedByteKeys : Obligations.RepeatedByteKeys := by
  refine ⟨fun b => ⟨rotateAB_keyView_replicate b, rotateCD_keyView_replicate b⟩, fun r h => ?_, exec_keysched_succeeds⟩
  obtain ⟨hzero, hzero'⟩ := rkWord_replicate 0 r h
  obtain ⟨hff, hff'⟩ := rkWord_replicate 0xFF r h
  have hsum0 : wordOf 0 0 0 0 + wordOf 0 0 0 0 = 0 := by decide
  have hsumff : wordOf 0xFF 0xFF 0xFF 0xFF + wordOf 0xFF 0xFF 0xFF 0xFF = 0xFFFFFFFE := by decide
  rw [hsum0] at hzero
  rw [hsumff] at hff
  refine ⟨hzero, hzero', hff, hff'.trans hzero'.symm, ?_⟩
  rw [hff, hzero]
  exact gFun_sub_kc_ne r h

end Sys2Proof.Machine

namespace Sys2Proof.Machine

/-! ## The round function (43_round_function.md R190, R193) -/

/-- A mask on both operands of an exclusive-or drops out. -/
theorem xor_mask_cancel (x y d : Word) : (x ^^^ d) ^^^ (y ^^^ d) = x ^^^ y := by
  rw [BitVec.xor_comm y d, BitVec.xor_assoc, ← BitVec.xor_assoc d d y, BitVec.xor_self, BitVec.zero_xor]

/-- F of a half and a key pair is F of their exclusive-or and the zero key pair: the key enters only by the first two steps of
43_round_function.md R190. -/
theorem feistel_eq_zero_key (r0 r1 k0 k1 : Word) :
    feistel r0 r1 k0 k1 = feistel (r0 ^^^ k0) (r1 ^^^ k1) 0 0 := by
  have hzero (x : Word) : x ^^^ 0 = x := BitVec.xor_zero
  simp only [feistel, hzero]

/-- Masking a half and its key pair alike leaves F unchanged (43_round_function.md R193). -/
theorem feistel_mask (r0 r1 k0 k1 d0 d1 : Word) :
    feistel (r0 ^^^ d0) (r1 ^^^ d1) (k0 ^^^ d0) (k1 ^^^ d1) = feistel r0 r1 k0 k1 := by
  rw [feistel_eq_zero_key, xor_mask_cancel, xor_mask_cancel, ← feistel_eq_zero_key]

/-- On a half that equals its key pair, F has its value at zero. -/
theorem feistel_self (r0 r1 : Word) : feistel r0 r1 r0 r1 = feistel 0 0 0 0 := by
  have hself (x : Word) : x ^^^ x = 0 := BitVec.xor_self
  rw [feistel_eq_zero_key, hself, hself]

/-- F's value at zero (43_round_function.md R193). -/
theorem feistel_zero : feistel 0 0 0 0 = (0xAB30A730, 0xF456F057) := by decide

/-- Settles O52: a mask cancels in the exclusive-ors, and the all-ones value is the value at zero. -/
theorem feistelReadsOnlyXor : Obligations.FeistelReadsOnlyXor :=
  ⟨feistel_mask, feistel_zero, (feistel_self _ _).trans feistel_zero, by decide⟩

end Sys2Proof.Machine

namespace Sys2Proof.Machine

/-! ## The block cipher (44_block_cipher.md R203) -/

/-- Sixteen rounds with the key pairs of `off` in reverse order, on exchanged halves, undo the sixteen rounds of `off`. -/
theorem blockRounds_reverse (rk : Vector Word 32) (off off' : Nat → Nat) (x : BlockWords)
    (hoff : ∀ k, k < 16 → off' k = off (15 - k)) :
    blockRounds rk off' (swapHalves (blockRounds rk off x)) = swapHalves x := by
  rw [blockRounds_eq, blockRounds_eq]
  refine roundsFrom_reverse rk off off' 16 0 0 x (by decide) fun k hk => ?_
  rw [Nat.zero_add, Nat.zero_add]
  exact hoff k hk

/-- The output view of the rounds, put through the rounds of the reversed key pairs, gives the block back: writing the R half
first exchanges the halves, as the reversed rounds need. -/
theorem outputView_blockRounds_reverse (rk : Vector Word 32) (off off' : Nat → Nat) (b : List Byte) (hb : b.length = 16)
    (hoff : ∀ k, k < 16 → off' k = off (15 - k)) :
    outputView (blockRounds rk off' (blockView (outputView (blockRounds rk off (blockView b))))) = b := by
  rw [blockView_outputView, blockRounds_reverse rk off off' _ hoff, outputView_swap_blockView b hb]

/-- Decryption undoes encryption. -/
theorem decryptBlock_encryptBlock (b : List Byte) (rk : Vector Word 32) (hb : b.length = 16) :
    decryptBlock (encryptBlock b rk) rk = b :=
  outputView_blockRounds_reverse rk _ _ b hb fun k _ => by omega

/-- Encryption undoes decryption. -/
theorem encryptBlock_decryptBlock (b : List Byte) (rk : Vector Word 32) (hb : b.length = 16) :
    encryptBlock (decryptBlock b rk) rk = b :=
  outputView_blockRounds_reverse rk _ _ b hb fun k _ => by omega

/-- Settles O53: each direction runs the other's key pairs in reverse order. -/
theorem blockInverseLaw : Obligations.BlockInverseLaw := fun b rk hb =>
  ⟨decryptBlock_encryptBlock b rk hb, encryptBlock_decryptBlock b rk hb⟩

end Sys2Proof.Machine

namespace Sys2Proof.Machine

/-! ## The chaining and padding layer (45_chaining_padding.md) -/

/-! ### Padding (R220, R221) -/

/-- Settles O55: the length modulo 16 decides how many bytes are missing to the next multiple of 16. -/
theorem padShape : Obligations.PadShape := fun p => by
  have hlen := pad_length p
  exact ⟨16 - p.length % 16, by omega, by omega, rfl, rfl, hlen, by omega, by omega⟩

/-- The number that the last byte of a sequence gives: how many bytes of padding it claims (45_chaining_padding.md R221). -/
def padCount (q : List Byte) : Nat := (byteIn q (q.length - 1)).toNat

/-- Inside a run of one byte at the end of a sequence, every byte is that byte. -/
theorem byteIn_append_replicate (r : List Byte) (c : Nat) (b : Byte) (j : Nat) (h : j < c) :
    byteIn (r ++ List.replicate c b) (r.length + j) = b := by
  simp [byteIn, List.getD_eq_getElem?_getD, h]

/-- The last byte of a nonempty run. -/
theorem byteIn_last_append_replicate (r : List Byte) (c : Nat) (b : Byte) (h : 1 ≤ c) :
    byteIn (r ++ List.replicate c b) ((r ++ List.replicate c b).length - 1) = b := by
  rw [List.length_append, List.length_replicate, Nat.add_sub_assoc h]
  exact byteIn_append_replicate r c b (c - 1) (by omega)

/-- The bytes from `n` on are a run of `b` when each of them is `b`. -/
theorem drop_eq_replicate (q : List Byte) (n c : Nat) (b : Byte) (hn : n + c = q.length)
    (h : ∀ j, j < c → byteIn q (n + j) = b) : q.drop n = List.replicate c b := by
  refine List.ext_getElem (by simp; omega) fun j h1 h2 => ?_
  have hj : j < c := by simpa using h2
  have hbyte := h j hj
  rw [byteIn, List.getD_eq_getElem _ _ (by omega)] at hbyte
  simpa using hbyte

/-- The count of a padding is its length. -/
theorem padCount_append_padding (r : List Byte) (c : Nat) (h1 : 1 ≤ c) (h16 : c ≤ 16) :
    padCount (r ++ List.replicate c (BitVec.ofNat 8 c)) = c := by
  rw [padCount, byteIn_last_append_replicate r c _ h1, BitVec.toNat_ofNat]
  omega

/-- A sequence that ends in a padding has the pattern. -/
theorem padPattern_append_padding (r : List Byte) (c : Nat) (h1 : 1 ≤ c) (h16 : c ≤ 16) :
    padPattern (r ++ List.replicate c (BitVec.ofNat 8 c)) = true := by
  have hc : (BitVec.ofNat 8 c).toNat = c := by rw [BitVec.toNat_ofNat]; omega
  have hrun (j : Nat) (hj : j < c - 1) :=
    byteIn_append_replicate r c (BitVec.ofNat 8 c) j (by omega)
  simp only [padPattern, byteIn_last_append_replicate r c _ h1, hc]
  simpa [h1, h16] using hrun

/-- A sequence with the pattern is what stands before the padding, then the padding. -/
theorem eq_append_padding_of_padPattern (q : List Byte) (h : padPattern q = true) :
    1 ≤ padCount q ∧ padCount q ≤ 16 ∧
      q = q.take (q.length - padCount q) ++ List.replicate (padCount q) (BitVec.ofNat 8 (padCount q)) := by
  simp only [padPattern, Bool.and_eq_true, decide_eq_true_eq, List.all_eq_true, List.mem_range, beq_iff_eq] at h
  obtain ⟨⟨⟨h1, h16⟩, hlen⟩, hrun⟩ := h
  change 1 ≤ padCount q at h1
  change padCount q ≤ q.length at hlen
  change ∀ j, j < padCount q - 1 → byteIn q (q.length - padCount q + j) = byteIn q (q.length - 1) at hrun
  refine ⟨h1, h16, ?_⟩
  have hdrop : q.drop (q.length - padCount q) = List.replicate (padCount q) (byteIn q (q.length - 1)) := by
    refine drop_eq_replicate q _ _ _ (Nat.sub_add_cancel hlen) fun j hj => ?_
    by_cases hlast : j = padCount q - 1
    · rw [show q.length - padCount q + j = q.length - 1 by omega]
    · exact hrun j (by omega)
  have hbyte : BitVec.ofNat 8 (padCount q) = byteIn q (q.length - 1) := BitVec.ofNat_toNat ..
  rw [hbyte, ← hdrop, List.take_append_drop]

/-- What `Unpad` does with a sequence that has the pattern. -/
theorem unpad_of_padPattern (q : List Byte) (h : padPattern q = true) :
    unpad q = (q.take (q.length - padCount q), true) := by
  have hne : q.length ≠ 0 := fun h0 => by rw [List.length_eq_zero_iff.mp h0] at h; cases h
  rw [unpad, if_neg hne, if_pos h]
  rfl

/-- What `Unpad` does with any other sequence, the empty one among them. -/
theorem unpad_of_not_padPattern (q : List Byte) (h : padPattern q = false) : unpad q = (q, false) := by
  rw [unpad, if_neg (Bool.eq_false_iff.mp h), ite_self]

/-- `Unpad` strips a padding. -/
theorem unpad_append_padding (r : List Byte) (c : Nat) (h1 : 1 ≤ c) (h16 : c ≤ 16) :
    unpad (r ++ List.replicate c (BitVec.ofNat 8 c)) = (r, true) := by
  rw [unpad_of_padPattern _ (padPattern_append_padding r c h1 h16), padCount_append_padding r c h1 h16]
  simp

/-- `Unpad` undoes `Pad`. -/
theorem unpad_pad (p : List Byte) : unpad (pad p) = (p, true) :=
  unpad_append_padding p _ (by omega) (by omega)

/-- Settles O56: a sequence with the pattern is what stands before the padding, which `Unpad` gives, then the padding. -/
theorem unpadStripsExactlyPaddings : Obligations.UnpadStripsExactlyPaddings := fun q => by
  refine ⟨fun r => ⟨fun h => ?_, ?_⟩, fun h => ?_, rfl⟩
  · cases hp : padPattern q with
    | true =>
      obtain ⟨h1, h16, hq⟩ := eq_append_padding_of_padPattern q hp
      rw [unpad_of_padPattern q hp] at h
      obtain rfl := congrArg Prod.fst h
      exact ⟨padCount q, h1, h16, hq⟩
    | false =>
      rw [unpad_of_not_padPattern q hp] at h
      cases h
  · rintro ⟨c, h1, h16, rfl⟩
    exact unpad_append_padding r c h1 h16
  · cases hp : padPattern q with
    | true =>
      rw [unpad_of_padPattern q hp] at h
      cases h
    | false => exact unpad_of_not_padPattern q hp

end Sys2Proof.Machine

namespace Sys2Proof.Machine

/-! ### Lengths (R230) -/

/-- A multiple of 16 is kept whole (45_chaining_padding.md R228). -/
theorem wholeBlocks_of_mod_eq_zero {n : Nat} (h : n % 16 = 0) : wholeBlocks n = n := by
  rw [wholeBlocks, h, Nat.sub_zero]

theorem wholeBlocks_mod (n : Nat) : wholeBlocks n % 16 = 0 := by
  rw [wholeBlocks]; omega

theorem length_take_wholeBlocks (d : List Byte) : (d.take (wholeBlocks d.length)).length = wholeBlocks d.length := by
  rw [List.length_take]
  exact Nat.min_eq_left (Nat.sub_le _ _)

/-- CBC encryption keeps the length of whole blocks (45_chaining_padding.md R222). -/
theorem cbcEncrypt_length (d iv : List Byte) (rk : Vector Word 32) (hd : d.length % 16 = 0) :
    (cbcEncrypt d iv rk).length = d.length := by
  rw [cbcEncrypt, cbcEncryptBlocks_length]
  omega

/-- CBC decryption keeps the length of whole blocks (45_chaining_padding.md R223). -/
theorem cbcDecrypt_length (e iv : List Byte) (rk : Vector Word 32) (he : e.length % 16 = 0) (hiv : iv.length = 16) :
    (cbcDecrypt e iv rk).length = e.length := by
  rw [cbcDecrypt, cbcDecryptBlocks_length rk _ e iv (by omega) hiv]
  omega

/-- ECB encryption keeps the length of whole blocks (45_chaining_padding.md R225). -/
theorem ecbEncrypt_length (d : List Byte) (rk : Vector Word 32) (hd : d.length % 16 = 0) :
    (ecbEncrypt d rk).length = d.length := by
  rw [ecbEncrypt, ecbBlocks_length _ fun b => encryptBlock_length b rk]
  omega

/-- ECB decryption keeps the length of whole blocks (45_chaining_padding.md R225). -/
theorem ecbDecrypt_length (d : List Byte) (rk : Vector Word 32) (hd : d.length % 16 = 0) :
    (ecbDecrypt d rk).length = d.length := by
  rw [ecbDecrypt, ecbBlocks_length _ fun b => decryptBlock_length b rk]
  omega

/-- The message function of ENCRYPT gives whole blocks, padded or not. -/
theorem encryptMsg_length_mod (p : List Byte) (rk : Vector Word 32) (iv : List Byte) (padded : Bool) :
    (encryptMsg p rk iv padded).1.length % 16 = 0 := by
  cases padded with
  | true => rw [encryptMsg_length_padded, Nat.mul_mod_right]
  | false => rw [encryptMsg_length_unpadded, wholeBlocks_mod]

/-- CBC decryption of the whole blocks of an input gives as many bytes. -/
theorem cbcDecrypt_wholeBlocks_length (c iv : List Byte) (rk : Vector Word 32) (hiv : iv.length = 16) :
    (cbcDecrypt (c.take (wholeBlocks c.length)) iv rk).length = wholeBlocks c.length := by
  have hlen := length_take_wholeBlocks c
  rw [cbcDecrypt_length _ iv rk (by rw [hlen, wholeBlocks_mod]) hiv, hlen]

/-- An unpadded decryption's length (45_chaining_padding.md R230). -/
theorem decryptMsg_length_unpadded (c : List Byte) (rk : Vector Word 32) (iv : List Byte) :
    (decryptMsg c rk iv false).1.length = wholeBlocks c.length := by
  have hlen := length_take_wholeBlocks c
  exact (ecbDecrypt_length _ rk (by rw [hlen, wholeBlocks_mod])).trans hlen

/-- A padded decryption whose whole blocks decrypt to a sequence with the pattern (45_chaining_padding.md R227). -/
theorem decryptMsg_of_padPattern (c : List Byte) (rk : Vector Word 32) (iv : List Byte)
    (h : padPattern (cbcDecrypt (c.take (wholeBlocks c.length)) iv rk) = true) :
    let q := cbcDecrypt (c.take (wholeBlocks c.length)) iv rk
    decryptMsg c rk iv true = (q.take (q.length - padCount q), wholeBlocks c.length != c.length, .valid) := by
  simp only [decryptMsg, unpad_of_padPattern _ h, if_true]

/-- A padded decryption whose whole blocks decrypt to any other sequence (45_chaining_padding.md R227). -/
theorem decryptMsg_of_not_padPattern (c : List Byte) (rk : Vector Word 32) (iv : List Byte)
    (h : padPattern (cbcDecrypt (c.take (wholeBlocks c.length)) iv rk) = false) :
    decryptMsg c rk iv true =
      (cbcDecrypt (c.take (wholeBlocks c.length)) iv rk, wholeBlocks c.length != c.length, .invalid) := by
  simp only [decryptMsg, unpad_of_not_padPattern _ h, if_true, if_neg Bool.false_ne_true]

/-- Settles O57: the chaining functions keep the length of whole blocks; a padding adds its count, stripping takes it away. -/
theorem messageLengths : Obligations.MessageLengths := by
  intro d iv rk hiv n m q
  have hq : q.length = m := cbcDecrypt_wholeBlocks_length d iv rk hiv
  have henc := encryptMsg_length_padded d rk iv
  refine ⟨henc, by omega, encryptMsg_length_unpadded d rk iv, encryptMsg_length_mod d rk iv, fun hv => ?_, fun hv => ?_,
    decryptMsg_length_unpadded d rk iv⟩
  · cases hp : padPattern q with
    | true =>
      rw [decryptMsg_of_padPattern d rk iv hp, ← hq]
      exact List.length_take_of_le (Nat.sub_le _ _)
    | false =>
      rw [decryptMsg_of_not_padPattern d rk iv hp] at hv
      cases hv
  · cases hp : padPattern q with
    | true =>
      rw [decryptMsg_of_padPattern d rk iv hp] at hv
      cases hv
    | false =>
      rw [decryptMsg_of_not_padPattern d rk iv hp]
      exact hq

/-! ### The blocks (R222, R223, R225) -/

/-- Block 0 of a sequence that begins with a block. -/
theorem blockOf_append_zero (c e : List Byte) (hc : c.length = 16) : blockOf (c ++ e) 0 = c := by
  rw [blockOf, Nat.mul_zero, List.drop_zero, ← hc, List.take_left]

/-- Past its first block a sequence goes on with the rest's blocks. -/
theorem blockOf_append_succ (c e : List Byte) (j : Nat) (hc : c.length = 16) : blockOf (c ++ e) (j + 1) = blockOf e j := by
  rw [blockOf, blockOf, Nat.mul_succ, Nat.add_comm, ← List.drop_drop, ← hc, List.drop_left, hc]

/-- The blocks past the first one. -/
theorem blockOf_drop (d : List Byte) (j : Nat) : blockOf (d.drop 16) j = blockOf d (j + 1) := by
  rw [blockOf, blockOf, List.drop_drop, Nat.mul_succ, Nat.add_comm]

/-- The chaining value of block `j` is block `j` of the sequence with the IV before it. -/
theorem blockOf_iv_append (iv e : List Byte) (j : Nat) (hiv : iv.length = 16) :
    blockOf (iv ++ e) j = if j = 0 then iv else blockOf e (j - 1) := by
  cases j with
  | zero => exact blockOf_append_zero iv e hiv
  | succ j => exact blockOf_append_succ iv e j hiv

/-- Block `j` of CBC encryption: the chaining values are the seed and the ciphertext blocks given before. -/
theorem blockOf_cbcEncryptBlocks (rk : Vector Word 32) (n : Nat) (d prev : List Byte) (j : Nat) (hj : j < n)
    (hprev : prev.length = 16) :
    blockOf (cbcEncryptBlocks rk n d prev) j =
      encryptBlock (xor16 (blockOf d j) (blockOf (prev ++ cbcEncryptBlocks rk n d prev) j)) rk := by
  induction n generalizing d prev j with
  | zero => omega
  | succ n ih =>
    have hlen := encryptBlock_length (xor16 (d.take 16) prev) rk
    cases j with
    | zero =>
      rw [blockOf_append_zero prev _ hprev, cbcEncryptBlocks, blockOf_append_zero _ _ hlen]
      rfl
    | succ j =>
      rw [blockOf_append_succ prev _ j hprev, cbcEncryptBlocks, blockOf_append_succ _ _ j hlen,
        ih _ _ j (by omega) hlen, blockOf_drop]

/-- Block `j` of CBC decryption: the chaining values are the seed and the ciphertext blocks of the input. -/
theorem blockOf_cbcDecryptBlocks (rk : Vector Word 32) (n : Nat) (e prev : List Byte) (j : Nat) (hj : j < n)
    (he : 16 * n ≤ e.length) (hprev : prev.length = 16) :
    blockOf (cbcDecryptBlocks rk n e prev) j =
      xor16 (decryptBlock (blockOf e j) rk) (blockOf (prev ++ e) j) := by
  induction n generalizing e prev j with
  | zero => omega
  | succ n ih =>
    have hlen : (xor16 (decryptBlock (e.take 16) rk) prev).length = 16 := by simp [hprev]
    cases j with
    | zero =>
      rw [blockOf_append_zero prev _ hprev, cbcDecryptBlocks, blockOf_append_zero _ _ hlen]
      rfl
    | succ j =>
      have hdrop : 16 * n ≤ (e.drop 16).length := by rw [List.length_drop]; omega
      have htake : (e.take 16).length = 16 := by rw [List.length_take]; omega
      rw [blockOf_append_succ prev _ j hprev, cbcDecryptBlocks, blockOf_append_succ _ _ j hlen,
        ih _ _ j (by omega) hdrop htake, blockOf_drop, List.take_append_drop]

/-- Block `j` of ECB is the block function of block `j`. -/
theorem blockOf_ecbBlocks (f : List Byte → List Byte) (hf : ∀ b, (f b).length = 16) (n : Nat) (d : List Byte) (j : Nat)
    (hj : j < n) : blockOf (ecbBlocks f n d) j = f (blockOf d j) := by
  induction n generalizing d j with
  | zero => omega
  | succ n ih =>
    cases j with
    | zero => exact blockOf_append_zero _ _ (hf _)
    | succ j => rw [ecbBlocks, blockOf_append_succ _ _ j (hf _), ih _ j (by omega), blockOf_drop]

/-- Settles O58: the recursions over the blocks, read at block `j`, with the IV as the block before the first one. -/
theorem chainingBlocks : Obligations.ChainingBlocks := by
  intro d iv rk j hd hiv hj
  refine ⟨?_, ?_, blockOf_ecbBlocks _ (fun b => encryptBlock_length b rk) _ d j hj,
    blockOf_ecbBlocks _ (fun b => decryptBlock_length b rk) _ d j hj, cbcEncrypt_length d iv rk hd,
    cbcDecrypt_length d iv rk hd hiv, ecbEncrypt_length d rk hd, ecbDecrypt_length d rk hd⟩
  · rw [← blockOf_iv_append iv _ j hiv]
    exact blockOf_cbcEncryptBlocks rk _ d iv j hj hiv
  · rw [← blockOf_iv_append iv _ j hiv]
    exact blockOf_cbcDecryptBlocks rk _ d iv j hj (by omega) hiv

/-! ### The round trips (R231) -/

/-- CBC decryption undoes CBC encryption: the ciphertext block that encryption chained is the one decryption reads. -/
theorem cbcDecryptBlocks_cbcEncryptBlocks (rk : Vector Word 32) (n : Nat) (d prev : List Byte) (hd : d.length = 16 * n)
    (hprev : prev.length = 16) : cbcDecryptBlocks rk n (cbcEncryptBlocks rk n d prev) prev = d := by
  induction n generalizing d prev with
  | zero => exact (List.length_eq_zero_iff.mp hd).symm
  | succ n ih =>
    have hc := encryptBlock_length (xor16 (d.take 16) prev) rk
    have htake : (d.take 16).length = prev.length := by rw [List.length_take]; omega
    have hx : (xor16 (d.take 16) prev).length = 16 := by rw [xor16_length, htake, Nat.min_self, hprev]
    have hdrop : (d.drop 16).length = 16 * n := by rw [List.length_drop]; omega
    rw [cbcEncryptBlocks, cbcDecryptBlocks, List.take_left' hc, List.drop_left' hc, decryptBlock_encryptBlock _ rk hx,
      xor16_cancel _ _ htake, ih _ _ hdrop hc, List.take_append_drop]

/-- A block function's inverse, block by block, undoes it. -/
theorem ecbBlocks_ecbBlocks (f g : List Byte → List Byte) (hf : ∀ b, (f b).length = 16)
    (hgf : ∀ b, b.length = 16 → g (f b) = b) (n : Nat) (d : List Byte) (hd : d.length = 16 * n) :
    ecbBlocks g n (ecbBlocks f n d) = d := by
  induction n generalizing d with
  | zero => exact (List.length_eq_zero_iff.mp hd).symm
  | succ n ih =>
    have htake : (d.take 16).length = 16 := by rw [List.length_take]; omega
    have hdrop : (d.drop 16).length = 16 * n := by rw [List.length_drop]; omega
    rw [ecbBlocks, ecbBlocks, List.take_left' (hf _), List.drop_left' (hf _), hgf _ htake, ih _ hdrop,
      List.take_append_drop]

/-- CBC decryption undoes CBC encryption of whole blocks. -/
theorem cbcDecrypt_cbcEncrypt (d iv : List Byte) (rk : Vector Word 32) (hd : d.length % 16 = 0) (hiv : iv.length = 16) :
    cbcDecrypt (cbcEncrypt d iv rk) iv rk = d := by
  rw [cbcDecrypt, cbcEncrypt_length d iv rk hd]
  exact cbcDecryptBlocks_cbcEncryptBlocks rk _ d iv (by omega) hiv

/-- ECB decryption undoes ECB encryption of whole blocks. -/
theorem ecbDecrypt_ecbEncrypt (d : List Byte) (rk : Vector Word 32) (hd : d.length % 16 = 0) :
    ecbDecrypt (ecbEncrypt d rk) rk = d := by
  rw [ecbDecrypt, ecbEncrypt_length d rk hd, ecbEncrypt]
  exact ecbBlocks_ecbBlocks (encryptBlock · rk) (decryptBlock · rk) (encryptBlock_length · rk)
    (decryptBlock_encryptBlock · rk) _ d (by omega)

/-- Whole blocks are decrypted as they are: nothing is dropped (45_chaining_padding.md R228). -/
theorem decryptMsg_of_whole (c : List Byte) (rk : Vector Word 32) (iv : List Byte) (padded : Bool)
    (hc : c.length % 16 = 0) :
    decryptMsg c rk iv padded =
      if padded then
        ((unpad (cbcDecrypt c iv rk)).1, false, if (unpad (cbcDecrypt c iv rk)).2 then .valid else .invalid)
      else (ecbDecrypt c rk, false, .none) := by
  simp only [decryptMsg, wholeBlocks_of_mod_eq_zero hc, List.take_length, bne_self_eq_false]

/-- Settles O59: decryption undoes encryption of whole blocks in both modes, and `Unpad` undoes `Pad`. -/
theorem messageRoundTrip : Obligations.MessageRoundTrip := by
  intro p iv rk hiv
  have hwhole := encryptMsg_length_mod p rk iv
  refine ⟨?_, fun hp => ?_⟩
  · have hpad : (pad p).length % 16 = 0 := by rw [pad_length, Nat.mul_mod_right]
    have hcbc : cbcDecrypt (encryptMsg p rk iv true).1 iv rk = pad p := cbcDecrypt_cbcEncrypt (pad p) iv rk hpad hiv
    rw [decryptMsg_of_whole _ rk iv true (hwhole true), hcbc, unpad_pad]
    rfl
  · have henc : (encryptMsg p rk iv false).1 = ecbEncrypt p rk := by
      simp only [encryptMsg, wholeBlocks_of_mod_eq_zero hp, List.take_length]
      rfl
    rw [decryptMsg_of_whole _ rk iv false (hwhole false), henc, ecbDecrypt_ecbEncrypt p rk hp]
    rfl

/-! ### The bytes that truncation drops (R228) -/

/-- Any other IN_BUF. -/
def withInBuf (m : Memory) (s : State) : State := { s with inBuf := m }

/-- The end of a body neither reads nor writes IN_BUF. -/
theorem passesThrough_withInBuf (m : Memory) : PassesThrough (withInBuf m) :=
  ⟨fun _ => rfl, fun _ => rfl, fun _ _ => rfl, fun _ _ => rfl, fun _ _ _ _ _ => rfl, fun _ _ => rfl⟩

/-- No check of Validate reads IN_BUF (60_exceptions.md R302). -/
theorem validate_withInBuf (i : Instr) (m : Memory) (s : State) : validate i (withInBuf m s) = validate i s := rfl

/-- The input up to where two buffers agree. -/
theorem inputBytes_withInBuf (n : Nat) (m : Memory) (s : State) (h : ∀ k, k < n → m.read k = s.inBuf.read k) :
    inputBytes n (withInBuf m s) = inputBytes n s := by
  refine List.map_congr_left fun k hk => ?_
  have hread : (withInBuf m s).inBuf.read k = s.inBuf.read k := h k (List.mem_range.mp hk)
  rw [inputByte, inputByte, hread]

/-- Whether the input is written, up to where two buffers agree. -/
theorem inputWritten_withInBuf (n : Nat) (m : Memory) (s : State) (h : ∀ k, k < n → m.read k = s.inBuf.read k) :
    inputWritten n (withInBuf m s) = inputWritten n s := by
  rw [Bool.eq_iff_iff, inputWritten_iff, inputWritten_iff]
  exact forall₂_congr fun k hk => not_congr (by rw [← h k hk]; rfl)

/-- The message function of ENCRYPT with PAD = 0, in terms of the whole blocks of its input (46_commands.md R260, R263). -/
theorem encryptMsg_inputBytes_unpadded (n : Nat) (s : State) (rk : Vector Word 32) (iv : List Byte) :
    encryptMsg (inputBytes n s) rk iv false =
      (ecbEncrypt (inputBytes (wholeBlocks n) s) rk, wholeBlocks n != n) := by
  have ht := inputBytes_take n (wholeBlocks n) s (Nat.sub_le _ _)
  simp only [encryptMsg, inputBytes_length, ht]
  rfl

/-- An unpadded ENCRYPT does not see the bytes beyond the whole blocks of its input. -/
theorem exec_encrypt_withInBuf (s : State) (m : Memory) (hp : s.cfg.pad = false)
    (h : ∀ k, k < wholeBlocks s.inLen.toNat → m.read k = s.inBuf.read k) :
    exec .encrypt (withInBuf m s) = mapNext (withInBuf m) (exec .encrypt s) := by
  have hf := passesThrough_withInBuf m
  have hp' : (withInBuf m s).cfg.pad = false := hp
  have hn : bytesRead .encrypt (withInBuf m s) = wholeBlocks s.inLen.toNat := by rw [bytesRead, hp']; rfl
  refine hf.exec .encrypt s (validate_withInBuf _ m s) (inputWritten_withInBuf _ m s (by rwa [hn]))
    (hf.encryptBody s fun rk => ?_)
  rw [hp, hp', encryptMsg_inputBytes_unpadded, encryptMsg_inputBytes_unpadded]
  exact congrArg (fun b => (ecbEncrypt b rk, _)) (inputBytes_withInBuf _ m s h)

/-- DECRYPT does not see the bytes beyond the whole blocks of its input. -/
theorem exec_decrypt_withInBuf (s : State) (m : Memory)
    (h : ∀ k, k < wholeBlocks s.inLen.toNat → m.read k = s.inBuf.read k) :
    exec .decrypt (withInBuf m s) = mapNext (withInBuf m) (exec .decrypt s) := by
  have hf := passesThrough_withInBuf m
  refine hf.exec .decrypt s (validate_withInBuf _ m s) (inputWritten_withInBuf _ m s h)
    (hf.decryptBody s (fun _ => rfl) (fun _ => rfl) fun rk => ?_)
  have hin : inputBytes (wholeBlocks (withInBuf m s).inLen.toNat) (withInBuf m s) =
    inputBytes (wholeBlocks s.inLen.toNat) s := inputBytes_withInBuf _ m s h
  rw [decryptMsg_inputBytes, decryptMsg_inputBytes, hin]
  rfl

/-- Settles O25: both commands see only the whole blocks of IN_BUF, and pass every other buffer through. -/
theorem droppedBytesNeverMatter : Obligations.DroppedBytesNeverMatter := by
  intro i s m hi h
  have hexec : exec i (withInBuf m s) = mapNext (withInBuf m) (exec i s) := by
    rcases hi with ⟨rfl, hp⟩ | rfl
    · exact exec_encrypt_withInBuf s m hp h
    · exact exec_decrypt_withInBuf s m h
  obtain ⟨hnext, hfault⟩ := next_and_fault_of_mapNext hexec
  exact ⟨hnext, hfault .uninitRead⟩

end Sys2Proof.Machine

namespace Sys2Proof.Machine

/-! ## The commands (46_commands.md) -/

/-! ### The block commands (R257, R258) -/

/-- A command that passes Validate on written input completes with what its body stores (46_commands.md R252). -/
theorem completes_of_body (i : Instr) (s : State) (out : List Byte) (tr pi po : Bool) (hv : validate i s = none)
    (hw : inputWritten (bytesRead i s) s = true)
    (hb : bodyOf i s = complete out.length tr pi po (storeOut out (loadRoundKeys s))) :
    ∃ t, exec i s = .next t ∧
      CompletesTo s t (keySchedule s.key.toList) out (successStatus s.status tr pi po) :=
  ⟨_, exec_of_ok i s hv hw, hb ▸ completesTo_complete s out tr pi po⟩

/-- A block command on one block with a key passes Validate: MAX_MSG is at least 16 (60_exceptions.md R302). -/
theorem validate_block_of_ok (i : Instr) (hi : i = .encBlock ∨ i = .decBlock) (s : State)
    (hp : paramsWf s.params = true) (hk : s.keylen = 16) (hn : s.inLen = 16) : validate i s = none := by
  obtain ⟨-, hm, -⟩ := legal_of_paramsWf _ hp
  have hlen : ¬ s.params.maxMsg < s.inLen.toNat := by rw [hn]; exact Nat.not_lt.mpr hm
  rw [validate_block i hi, if_neg hlen, if_neg (not_not.mpr hk), if_neg (not_not.mpr hn)]

/-- Settles O11: both pass Validate, and their bodies read the written block. -/
theorem blockCommandsComplete : Obligations.BlockCommandsComplete := by
  intro s b hp hk hn hb hin
  have hw : inputWritten 16 s = true := hb ▸ inputWritten_of_inputIs b s hin
  have hbytes : inputBytes 16 s = b := hb ▸ inputBytes_of_inputIs b s hin
  refine ⟨completes_of_body .encBlock s _ _ _ _ (validate_block_of_ok _ (.inl rfl) s hp hk hn) hw ?_,
    completes_of_body .decBlock s _ _ _ _ (validate_block_of_ok _ (.inr rfl) s hp hk hn) hw ?_⟩
  · simp only [bodyOf, encBlockBody, hbytes, loadRoundKeys_rk, encryptBlock_length]
  · simp only [bodyOf, decBlockBody, hbytes, loadRoundKeys_rk, decryptBlock_length]

/-! ### The checks and the chaining seed of a message command -/

/-- The checks of a message command (60_exceptions.md R302). -/
theorem validate_message (i : Instr) (hi : i = .encrypt ∨ i = .decrypt) (s : State) :
    validate i s =
      if s.params.maxMsg < s.inLen.toNat then some .invalidLength
      else if s.keylen ≠ 16 then some .invalidKeyLength
      else if s.cfg.pad = true ∧ s.ivlen ≠ 0 ∧ s.ivlen ≠ 16 then some .invalidIvLength
      else if s.cfg.strict = true ∧ s.inLen.toNat % 16 ≠ 0 ∧ (i = .decrypt ∨ s.cfg.pad = false) then some .truncatedInput
      else none := by
  rcases hi with rfl | rfl <;> simp [validate, readsInput, isMessage, isBlock, and_assoc]

/-- A message command passes Validate on a key, a message that fits, with PAD = 1 an IV of 16 bytes or none, and in strict mode
whole blocks where it would drop bytes. -/
theorem validate_message_of_ok (i : Instr) (hi : i = .encrypt ∨ i = .decrypt) (s : State)
    (hn : s.inLen.toNat ≤ s.params.maxMsg) (hk : s.keylen = 16)
    (hiv : s.cfg.pad = true → s.ivlen = 16 ∨ s.ivlen = 0)
    (hs : s.cfg.strict = true → i = .decrypt ∨ s.cfg.pad = false → s.inLen.toNat % 16 = 0) : validate i s = none := by
  have hseed : ¬(s.cfg.pad = true ∧ s.ivlen ≠ 0 ∧ s.ivlen ≠ 16) := fun ⟨hp, h0, h16⟩ => (hiv hp).elim h16 h0
  have htrunc : ¬(s.cfg.strict = true ∧ s.inLen.toNat % 16 ≠ 0 ∧ (i = .decrypt ∨ s.cfg.pad = false)) :=
    fun ⟨hst, hmod, hi⟩ => hmod (hs hst hi)
  rw [validate_message i hi, if_neg (Nat.not_lt.mpr hn), if_neg (not_not.mpr hk), if_neg hseed, if_neg htrunc]

/-- The seed of a padded message command: IV, or sixteen zero bytes without one (45_chaining_padding.md R224). -/
theorem ivSeed_eq (s : State) (iv : List Byte)
    (h : (s.ivlen = 16 ∧ iv = s.iv.toList) ∨ (s.ivlen = 0 ∧ iv = List.replicate 16 0)) : ivSeed s = iv := by
  rcases h with ⟨h16, rfl⟩ | ⟨h0, rfl⟩
  · exact ivSeed_of_iv s h16
  · exact ivSeed_of_noiv s h0

/-- The seed is a block. -/
@[simp] theorem ivSeed_length (s : State) : (ivSeed s).length = 16 := by
  unfold ivSeed
  split <;> simp

/-! ### ENCRYPT (R260) -/

/-- A padded ENCRYPT completes with the CBC encryption of the padded input, chained from the seed. -/
theorem exec_encrypt_padded (s : State) (p : List Byte) (hp : s.cfg.pad = true) (hk : s.keylen = 16)
    (hiv : s.ivlen = 16 ∨ s.ivlen = 0) (hn : p.length = s.inLen.toNat) (hm : p.length ≤ s.params.maxMsg)
    (hin : InputIs p s) :
    ∃ t, exec .encrypt s = .next t ∧
      CompletesTo s t (keySchedule s.key.toList) (cbcEncrypt (pad p) (ivSeed s) (keySchedule s.key.toList))
        (successStatus s.status false false false) := by
  have hbytes : inputBytes s.inLen.toNat s = p := hn ▸ inputBytes_of_inputIs p s hin
  have hv : validate .encrypt s = none :=
    validate_message_of_ok _ (.inl rfl) s (hn ▸ hm) hk (fun _ => hiv) (by simp [hp])
  refine completes_of_body .encrypt s _ _ _ _ hv ?_ ?_
  · rw [bytesRead, if_pos hp, ← hn]
    exact inputWritten_of_inputIs p s hin
  · simp only [bodyOf, encryptBody, encryptMsg, hbytes, hp, if_true, loadRoundKeys_rk]

/-- Settles O12: the seed is IV or sixteen zero bytes. -/
theorem paddedEncryptCompletes : Obligations.PaddedEncryptCompletes := by
  intro s p hp hk hn hm hin
  refine ⟨fun h16 => ?_, fun h0 => ?_⟩
  · rw [← ivSeed_of_iv s h16]
    exact exec_encrypt_padded s p hp hk (.inl h16) hn hm hin
  · rw [← ivSeed_of_noiv s h0]
    exact exec_encrypt_padded s p hp hk (.inr h0) hn hm hin

/-- Settles O13: the body reads the whole blocks only. -/
theorem unpaddedEncryptCompletes : Obligations.UnpaddedEncryptCompletes := by
  intro s p hp hk hm hs hn hin
  replace hn : p.length = wholeBlocks s.inLen.toNat := hn
  have hbytes : inputBytes (wholeBlocks s.inLen.toNat) s = p := hn ▸ inputBytes_of_inputIs p s hin
  have hv : validate .encrypt s = none :=
    validate_message_of_ok _ (.inl rfl) s hm hk (by simp [hp]) (fun hst _ => hs hst)
  refine completes_of_body .encrypt s _ _ _ _ hv ?_ ?_
  · rw [bytesRead, if_neg (by simp [hp]), ← hn]
    exact inputWritten_of_inputIs p s hin
  · rw [← wholeBlocks_ne, ← hbytes]
    exact encryptBody_unpadded s hp

/-! ### DECRYPT (R261) -/

/-- The body of DECRYPT with PAD = 1 on the whole blocks `c` of its input. -/
theorem decryptBody_padded (s : State) (c : List Byte) (hp : s.cfg.pad = true)
    (hn : c.length = wholeBlocks s.inLen.toNat) (hin : InputIs c s) :
    let u := unpad (cbcDecrypt c (ivSeed s) (keySchedule s.key.toList))
    decryptBody s =
      finishDecrypt (u.1, decide (s.inLen.toNat % 16 ≠ 0), if u.2 then .valid else .invalid) (loadRoundKeys s) := by
  have hbytes : inputBytes (wholeBlocks s.inLen.toNat) s = c := hn ▸ inputBytes_of_inputIs c s hin
  simp only [decryptBody, decryptMsg_inputBytes, hbytes, hp, if_true, loadRoundKeys_rk, wholeBlocks_ne]

/-- The body of DECRYPT with PAD = 0 on the whole blocks `c` of its input: it looks at no padding, so it completes. -/
theorem decryptBody_unpadded (s : State) (c : List Byte) (hp : s.cfg.pad = false)
    (hn : c.length = wholeBlocks s.inLen.toNat) (hin : InputIs c s) :
    let out := ecbDecrypt c (keySchedule s.key.toList)
    decryptBody s =
      complete out.length (decide (s.inLen.toNat % 16 ≠ 0)) false false (storeOut out (loadRoundKeys s)) := by
  have hbytes : inputBytes (wholeBlocks s.inLen.toNat) s = c := hn ▸ inputBytes_of_inputIs c s hin
  simp only [decryptBody, decryptMsg_inputBytes, hbytes, hp, loadRoundKeys_rk, wholeBlocks_ne]
  exact finishDecrypt_of_ok _ _ fun h => nomatch h.1

/-- DECRYPT reads the whole blocks of its input only (46_commands.md R263). -/
theorem inputWritten_decrypt (s : State) (c : List Byte) (hn : c.length = wholeBlocks s.inLen.toNat) (hin : InputIs c s) :
    inputWritten (bytesRead .decrypt s) s = true := by
  rw [bytesRead, ← hn]
  exact inputWritten_of_inputIs c s hin

/-- A padded DECRYPT completes with the unpadded CBC decryption of the whole blocks of its input, unless it is strict and has
bytes to drop or no valid padding. -/
theorem exec_decrypt_padded (s : State) (c : List Byte) (hp : s.cfg.pad = true) (hk : s.keylen = 16)
    (hiv : s.ivlen = 16 ∨ s.ivlen = 0) (hm : s.inLen.toNat ≤ s.params.maxMsg)
    (hn : c.length = wholeBlocks s.inLen.toNat) (hin : InputIs c s) :
    let u := unpad (cbcDecrypt c (ivSeed s) (keySchedule s.key.toList))
    (s.cfg.strict = true → s.inLen.toNat % 16 = 0 ∧ u.2 = true) →
    ∃ t, exec .decrypt s = .next t ∧
      CompletesTo s t (keySchedule s.key.toList) u.1
        (successStatus s.status (decide (s.inLen.toNat % 16 ≠ 0)) (!u.2) u.2) := by
  intro u hs
  have hv : validate .decrypt s = none :=
    validate_message_of_ok _ (.inr rfl) s hm hk (fun _ => hiv) (fun hst _ => (hs hst).1)
  refine completes_of_body .decrypt s _ _ _ _ hv (inputWritten_decrypt s c hn hin)
    ((decryptBody_padded s c hp hn hin).trans ?_)
  change finishDecrypt (u.1, _, if u.2 then .valid else .invalid) _ = _
  cases hu : u.2 with
  | true => exact finishDecrypt_of_ok _ _ fun h => nomatch h.1
  | false => exact finishDecrypt_of_ok _ _ fun h => absurd (hu.symm.trans (hs h.2).2) (by decide)

/-- Settles O14: the seed is IV or sixteen zero bytes. -/
theorem paddedDecryptCompletes : Obligations.PaddedDecryptCompletes := by
  intro s c iv hp hk hm hiv hn hin
  rw [← ivSeed_eq s iv hiv]
  exact exec_decrypt_padded s c hp hk (hiv.imp And.left And.left) hm hn hin

/-- Settles O15: without a padding there is nothing that could be invalid. -/
theorem unpaddedDecryptCompletes : Obligations.UnpaddedDecryptCompletes := by
  intro s c hp hk hm hs hn hin
  have hv : validate .decrypt s = none :=
    validate_message_of_ok _ (.inr rfl) s hm hk (by simp [hp]) (fun hst _ => hs hst)
  exact completes_of_body .decrypt s _ _ _ _ hv (inputWritten_decrypt s c hn hin) (decryptBody_unpadded s c hp hn hin)

end Sys2Proof.Machine

namespace Sys2Proof.Machine

/-! ### The round trip on the machine (R231, R260, R261) -/

/-- The length of a padded encryption. -/
theorem cbcEncrypt_pad_length (p iv : List Byte) (rk : Vector Word 32) :
    (cbcEncrypt (pad p) iv rk).length = 16 * (p.length / 16 + 1) :=
  encryptMsg_length_padded p rk iv

/-- A padded encryption decrypts to the padded message. -/
theorem cbcDecrypt_cbcEncrypt_pad (p iv : List Byte) (rk : Vector Word 32) (hiv : iv.length = 16) :
    cbcDecrypt (cbcEncrypt (pad p) iv rk) iv rk = pad p :=
  cbcDecrypt_cbcEncrypt (pad p) iv rk (by rw [pad_length, Nat.mul_mod_right]) hiv

/-- A padded DECRYPT of a padded encryption that fits IN_BUF completes with the message, strict or not: the input is whole
blocks, and its padding is valid. -/
theorem exec_decrypt_cbcEncrypt_pad (u : State) (p : List Byte) (hpad : u.cfg.pad = true) (hk : u.keylen = 16)
    (hiv : u.ivlen = 16 ∨ u.ivlen = 0) (hm : 16 * (p.length / 16 + 1) ≤ u.params.maxMsg)
    (hn : u.inLen.toNat = 16 * (p.length / 16 + 1))
    (hin : InputIs (cbcEncrypt (pad p) (ivSeed u) (keySchedule u.key.toList)) u) :
    ∃ v, exec .decrypt u = .next v ∧
      CompletesTo u v (keySchedule u.key.toList) p (successStatus u.status false false true) := by
  have hwhole : u.inLen.toNat % 16 = 0 := by omega
  have hlen := cbcEncrypt_pad_length p (ivSeed u) (keySchedule u.key.toList)
  have h := exec_decrypt_padded u _ hpad hk hiv (by omega) (by rw [hlen, wholeBlocks_of_mod_eq_zero hwhole, hn]) hin
  rw [cbcDecrypt_cbcEncrypt_pad p _ _ (ivSeed_length u), unpad_pad] at h
  simpa [hwhole] using h

/-- Settles O60: the second core reads the first one's output under the same key and seed. -/
theorem machineRoundTrip : Obligations.MachineRoundTrip := by
  intro s p hps hp hk hiv hn hm hin
  obtain ⟨t, ht, ht_eq, hout, -⟩ := exec_encrypt_padded s p hp hk hiv hn hm hin
  rw [cbcEncrypt_pad_length] at hout
  refine ⟨t, ht, fun u hpu hmu hkey hkl hivu hil hpad hlen hbuf => ?_⟩
  obtain ⟨hmod, -, hmax, -⟩ := legal_of_paramsWf _ hpu
  have htlen : t.outLen.toNat = 16 * (p.length / 16 + 1) := by
    rw [ht_eq, cbcEncrypt_pad_length]
    exact Nat.mod_eq_of_lt (by omega)
  have hseed : ivSeed u = ivSeed s := by rw [ivSeed, ivSeed, hil, hivu]
  have hin' : InputIs (cbcEncrypt (pad p) (ivSeed u) (keySchedule u.key.toList)) u := by
    intro j hj
    rw [cbcEncrypt_pad_length] at hj
    rw [hseed, hkey, hbuf j (htlen ▸ hj), hout j hj]
  obtain ⟨v, hv, hv_eq, hvout, -⟩ :=
    exec_decrypt_cbcEncrypt_pad u p hpad (hkl.trans hk) (hil ▸ hiv) (by omega) (hlen ▸ htlen) hin'
  refine ⟨v, hv, ?_, fun j hj => ?_, ?_⟩
  · rw [hv_eq]
    exact hn ▸ BitVec.ofNat_toNat ..
  · rw [← hn] at hj
    exact (hvout j hj).trans (hin j hj).symm
  · rw [hv_eq]
    exact ⟨rfl, rfl, rfl, rfl⟩

end Sys2Proof.Machine

namespace Sys2Proof.Machine

/-! ### NOP and KEYSCHED (R255, R256) -/

/-- NOP makes no check and reads no input, so it always completes. -/
theorem exec_nop (s : State) : exec .nop s = .next (complete 0 false false false s) :=
  exec_of_ok .nop s rfl rfl

/-- STATUS after a success that sets no other flag, with WERR = 0 (46_commands.md R255). -/
theorem successStatus_word (st : Status) (h : st.werr = false) :
    (successStatus st false false false).word false = 0x00000002 := by
  rw [successStatus, h]
  rfl

/-- Settles O9: OUT_LEN is 0, so that no byte of OUT_BUF is of a result. -/
theorem nopCompletes : Obligations.NopCompletes := fun s => by
  refine ⟨_, exec_nop s, rfl, fun i => outLane_of_unspecified i _ (.inl (Nat.zero_le i)), fun hw => ?_, Bool.and_true _⟩
  exact (memRead_register_idle .status _ rfl).trans (congrArg _ (successStatus_word s.status hw))

/-- KEYSCHED with a key completes after the key schedule. -/
theorem exec_keysched_of_key (s : State) (hk : s.keylen = 16) :
    exec .keysched s = .next (complete 0 false false false (loadRoundKeys s)) :=
  exec_of_ok .keysched s (by rw [validate_keysched, if_neg (not_not.mpr hk)]) rfl

/-- A command that fails in Validate ends in its error, and nothing else changes (60_exceptions.md R307). -/
theorem exec_of_error (i : Instr) (s : State) (c : ErrorCode) (h : validate i s = some c) :
    exec i s = .next (failedState c s) :=
  (exec_eq_runBody i s).trans (runBody_of_error _ _ _ c h)

/-- Settles O10: the key schedule reads KEY, which the completion keeps, and KEYLEN is the only check. -/
theorem keyschedCompletes : Obligations.KeyschedCompletes := by
  refine fun s => ⟨fun hk => ⟨_, exec_keysched_of_key s hk, rfl, ?_⟩, fun hk => ?_⟩
  · exact exec_keysched_of_key (complete 0 false false false (loadRoundKeys s)) hk
  · exact exec_of_error .keysched s _ (by rw [validate_keysched, if_pos hk])

end Sys2Proof.Machine

namespace Sys2Proof.Machine

/-! ### Failures and the output buffer (R252, R261, R263; 60_exceptions.md R307) -/

/-- Settles O16: the body ends in INVALID_PADDING, after the key schedule. -/
theorem strictInvalidPaddingFails : Obligations.StrictInvalidPaddingFails := by
  intro s c iv hp hst hk hm hmod hiv hn hin hu
  rw [← ivSeed_eq s iv hiv] at hu
  have hwhole := wholeBlocks_of_mod_eq_zero hmod
  have hc : c.length = wholeBlocks s.inLen.toNat := hn.trans hwhole.symm
  have hv : validate .decrypt s = none :=
    validate_message_of_ok _ (.inr rfl) s hm hk (fun _ => hiv.imp And.left And.left) (fun _ _ => hmod)
  have hb : bodyOf .decrypt s =
      raiseError .invalidPadding (forgetOut (wholeBlocks s.inLen.toNat) (loadRoundKeys s)) :=
    (decryptBody_padded s c hp hc hin).trans (finishDecrypt_of_invalid _ _ ⟨by rw [hu]; rfl, hst⟩)
  rw [hwhole] at hb
  exact ⟨_, (exec_of_ok .decrypt s hv (inputWritten_decrypt s c hc hin)).trans (congrArg _ hb), rfl,
    fun j hj => read_dropBelow_lt _ _ j hj, fun j hj => read_dropBelow_ge _ _ j hj,
    fun j => outLane_of_unspecified j _ (.inr (.inl rfl))⟩

/-- The bytes that each command reads, by R263's list. -/
theorem bytesRead_eq (i : Instr) (s : State) :
    bytesRead i s =
      if i = .encBlock ∨ i = .decBlock then 16
      else if i = .encrypt ∧ s.cfg.pad = true then s.inLen.toNat
      else if i = .encrypt ∨ i = .decrypt then s.inLen.toNat - s.inLen.toNat % 16
      else 0 := by
  cases i <;> simp [bytesRead, wholeBlocks]

/-- A command that passes Validate has its input ready exactly when the bytes it reads are written (46_commands.md R263). -/
theorem inputReady_iff (i : Instr) (s : State) (hv : validate i s = none) :
    inputReady i s = true ↔ ∀ k, k < bytesRead i s → s.inBuf.read k ≠ none := by
  rw [← inputWritten_iff, inputReady, hv]
  rfl

/-- Settles O18: a command goes on exactly when it fails in Validate or the bytes it reads are written. -/
theorem unwrittenInputFaults : Obligations.UnwrittenInputFaults := by
  intro i s n
  have hn : bytesRead i s = n := bytesRead_eq i s
  refine ⟨fun c hc => ⟨_, exec_of_error i s c hc⟩, fun hv ⟨k, hk, hnone⟩ => exec_of_not_ready i s ?_,
    fun hv hw => exec_of_ready i s ((inputReady_iff i s hv).mpr (hn ▸ hw))⟩
  rw [Bool.eq_false_iff]
  exact fun hr => (inputReady_iff i s hv).mp hr k (hn ▸ hk) hnone

/-- The only error that a body raises is the INVALID_PADDING of DECRYPT (60_exceptions.md R302). -/
theorem bodyOf_of_err (i : Instr) (s : State) (h : (bodyOf i s).status.err = true) :
    bodyOf i s = raiseError .invalidPadding (forgetOut (wholeBlocks s.inLen.toNat) (loadRoundKeys s)) := by
  cases i with
  | nop | keysched | encBlock | decBlock | encrypt => cases h
  | decrypt =>
    rcases finishDecrypt_cases (decryptMsg (inputBytes s.inLen.toNat s) (keySchedule s.key.toList) (ivSeed s) s.cfg.pad)
      (loadRoundKeys s) with ⟨-, -, e⟩ | ⟨-, e⟩
    · exact e
    · cases (congrArg (·.status.err) e).symm.trans h

/-- A body that completes leaves OUT_BUF as it was from OUT_LEN on: the result fits, so OUT_LEN is its length
(46_commands.md R252). -/
theorem bodyOf_outBuf_above (i : Instr) (s : State) (hp : paramsWf s.params = true) (hv : validate i s = none)
    (h : (bodyOf i s).status.err = false) (a : Nat) (ha : (bodyOf i s).outLen.toNat ≤ a) :
    (bodyOf i s).outBuf.read a = s.outBuf.read a := by
  rcases body_cases i s hv with e | e | ⟨out, tr, pi, po, e, hl, -⟩ | ⟨m, e⟩ <;> rw [e] at h ha ⊢
  · rfl
  · rfl
  · obtain ⟨-, -, hm, -⟩ := legal_of_paramsWf _ hp
    rw [outBufBytes_eq] at hl
    have hlen : out.length ≤ a := by
      rwa [complete_outLen, BitVec.toNat_ofNat, Nat.mod_eq_of_lt (by omega)] at ha
    exact read_writeBytes_outside _ _ _ _ (.inr (by omega))
  · cases h

/-- Settles O22: a failed check writes no byte, a completion its result only, INVALID_PADDING the whole blocks' bytes. -/
theorem outputBytesOutsideResultKept : Obligations.OutputBytesOutsideResultKept := by
  intro i s t hp h
  rcases exec_cases i s t h with ⟨c, hc, rfl⟩ | ⟨hv, -, rfl⟩
  · exact ⟨fun _ _ => rfl, fun _ _ _ => rfl, fun _ _ _ => rfl⟩
  · refine ⟨?_, bodyOf_outBuf_above i s hp hv, fun he a ha => ?_⟩
    · rintro (rfl | rfl | hn) a
      · rfl
      · rfl
      · exact absurd hv hn
    · rw [bodyOf_of_err i s he]
      exact read_dropBelow_ge _ _ a ha

end Sys2Proof.Machine

namespace Sys2Proof.Machine

/-! ### Acceptance and the completion step (R250–R253, R262) -/

/-- Settles O33: CMD is a writable register that is not STATUS. -/
theorem commandWriteIsAccepted : Obligations.CommandWriteIsAccepted := fun s w =>
  ⟨fun h => memWrite_register_idle .cmd w s rfl ((not_busy_iff s).mpr h),
   fun w' h => memWrite_register_late .cmd w s ((busy_iff s).mpr ⟨w', h⟩) rfl (by decide)⟩

/-- STATUS after an illegal word, with WERR = 0 (46_commands.md R262). -/
theorem failureStatus_illegalCommand_word (st : Status) (h : st.werr = false) :
    (failureStatus st .illegalCommand).word false = 0x00000706 := by
  rw [failureStatus, h]
  rfl

/-- Settles O4: the acceptance of the word, then its failure. -/
theorem illegalWordFails : Obligations.IllegalWordFails := by
  intro s w hw hb
  obtain ⟨e, he⟩ := decode_of_illegal w hw
  exact ⟨accept w s, memWrite_register_idle .cmd w s rfl hb, rfl, rfl, completionStep_of_error w e _ he,
    failureStatus_illegalCommand_word s.status⟩

/-- The completion step of a word that decodes is its command's (46_commands.md R252). -/
theorem completionStep_of_ok (w : Word) (i : Instr) (s : State) (h : decode w = .ok i) :
    completionStep w s = exec i s := by
  simp only [completionStep, h]

/-- While Busy, and with an empty schedule, a step is the completion step (log 1). -/
theorem step_of_busy (s : State) (w : Word) (hs : s.seq = .busy w) (hq : s.sched = []) :
    step s = completionStep w s := by
  simp [step, nextTurn, hq, defaultAgent, State.busy, hs, turn, sequencerTurn]

/-- While Busy, and with the sequencer at the head of the schedule, a step is the completion step (log 1). -/
theorem step_of_sequencer (s : State) (w : Word) (rest : List Agent) (hs : s.seq = .busy w)
    (hq : s.sched = .sequencer :: rest) : step s = completionStep w { s with sched := rest } := by
  simp [step, nextTurn, hq, turn, sequencerTurn, hs]

/-- Settles O3: either schedule gives the sequencer its turn, and the word decodes or does not. -/
theorem stepRunsDecodedCommand : Obligations.StepRunsDecodedCommand := fun s w hs =>
  ⟨step_of_busy s w hs, fun rest => step_of_sequencer s w rest hs,
   fun i hi => ⟨fun hq => (step_of_busy s w hs hq).trans (completionStep_of_ok w i s hi),
     fun rest hq => (step_of_sequencer s w rest hs hq).trans (completionStep_of_ok w i _ hi)⟩,
   fun e he => ⟨fun hq => (step_of_busy s w hs hq).trans (completionStep_of_error w e s he),
     fun rest hq => (step_of_sequencer s w rest hs hq).trans (completionStep_of_error w e _ he)⟩⟩

/-- With the host at the head of the schedule, a step is the host's turn (log 1). -/
theorem step_of_host_scheduled (s : State) (rest : List Agent) (hq : s.sched = .host :: rest) :
    step s = .next (hostTurn { s with sched := rest }) := by
  simp [step, nextTurn, hq, turn]

/-- A busy core's host turn keeps the schedule, the command in flight, and whether its input is ready (20_memory.md R82). -/
theorem hostTurn_keeps_command (s : State) (w : Word) (hs : s.seq = .busy w) :
    (hostTurn s).sched = s.sched ∧ (hostTurn s).seq = .busy w ∧ ∀ i, inputReady i (hostTurn s) = inputReady i s := by
  obtain ⟨dn, we, h, d, e⟩ := hostTurn_of_busy s ((busy_iff s).mpr ⟨w, hs⟩)
  rw [e]
  exact ⟨rfl, hs, fun _ => rfl⟩

/-- After the scheduled host turns the command is still in flight, its input as ready as before. -/
theorem run_host_turns (k : Nat) (s : State) (w : Word) (hs : s.seq = .busy w) (hq : s.sched = List.replicate k .host) :
    ∃ u, core.run k s = .next u ∧ u.seq = .busy w ∧ u.sched = [] ∧ ∀ i, inputReady i u = inputReady i s := by
  induction k generalizing s with
  | zero => exact ⟨s, rfl, hs, hq, fun _ => rfl⟩
  | succ k ih =>
    have hstep := step_of_host_scheduled s _ hq
    obtain ⟨hsched, hseq, hready⟩ := hostTurn_keeps_command { s with sched := List.replicate k .host } w hs
    obtain ⟨u, hrun, hu, hnil, hr⟩ := ih _ hseq hsched
    exact ⟨u, (run_succ_of_next k s _ hstep).trans hrun, hu, hnil, fun i => (hr i).trans (hready i)⟩

/-- Settles O47: the completion step comes after the host turns, which leave the command and its input alone. -/
theorem commandCompletesOnceScheduled : Obligations.CommandCompletesOnceScheduled := by
  intro s w k hs hq
  obtain ⟨u, hrun, hu, hsched, hready⟩ := run_host_turns k s w hs hq
  have hstep := step_of_busy u w hu hsched
  have goesOn (t : State) (h : completionStep w u = .next t) : core.run (k + 1) s = .next t :=
    (run_add k 1 s u hrun).trans (run_succ_of_next 0 u t (hstep.trans h))
  refine ⟨fun e he => ⟨_, goesOn _ (completionStep_of_error w e u he), rfl, rfl, rfl, rfl⟩,
    fun i hi => ⟨fun hr => ?_, fun hr => ?_⟩⟩
  · obtain ⟨t, ht⟩ := exec_of_ready i u ((hready i).trans hr)
    obtain ⟨hframe, -, hdone⟩ := exec_frame i u t ht
    exact ⟨t, goesOn t ((completionStep_of_ok w i u hi).trans ht), by rw [hframe], hdone⟩
  · have hf := exec_of_not_ready i u ((hready i).trans hr)
    exact (run_add k 1 s u hrun).trans
      (run_succ_of_fault 0 u _ (hstep.trans ((completionStep_of_ok w i u hi).trans hf)))

end Sys2Proof.Machine

namespace Sys2Proof.Machine

/-! ### The order of the checks, and the errors left when all pass (60_exceptions.md R302) -/

/-- The checks of every command but NOP, in one chain; those that a command does not make never fail for it. -/
theorem validate_of_ne_nop (i : Instr) (s : State) (hi : i ≠ .nop) :
    validate i s =
      if (i = .encBlock ∨ i = .decBlock ∨ i = .encrypt ∨ i = .decrypt) ∧ s.params.maxMsg < s.inLen.toNat then
        some .invalidLength
      else if s.keylen ≠ 16 then some .invalidKeyLength
      else if (i = .encrypt ∨ i = .decrypt) ∧ s.cfg.pad = true ∧ s.ivlen ≠ 0 ∧ s.ivlen ≠ 16 then some .invalidIvLength
      else if (i = .encBlock ∨ i = .decBlock) ∧ s.inLen ≠ 16 then some .invalidBlockSize
      else if s.cfg.strict = true ∧ s.inLen.toNat % 16 ≠ 0 ∧ (i = .decrypt ∨ (i = .encrypt ∧ s.cfg.pad = false)) then
        some .truncatedInput
      else none := by
  cases i with
  | nop => exact absurd rfl hi
  | keysched => simp [validate_keysched]
  | encBlock => simp [validate_block]
  | decBlock => simp [validate_block]
  | encrypt => simp [validate_message]
  | decrypt => simp [validate_message]

/-- Only a padded decryption looks at the padding (45_chaining_padding.md R227). -/
theorem padded_of_decryptMsg_invalid (c : List Byte) (rk : Vector Word 32) (iv : List Byte) (padded : Bool)
    (h : (decryptMsg c rk iv padded).2.2 = .invalid) : padded = true := by
  cases padded with
  | true => rfl
  | false => cases h

/-- A body that ends in an error is that of a padded DECRYPT in strict mode, and the error INVALID_PADDING
(46_commands.md R261). -/
theorem strict_padded_decrypt_of_bodyOf_err (i : Instr) (s : State) (h : (bodyOf i s).status.err = true) :
    i = .decrypt ∧ s.cfg.pad = true ∧ s.cfg.strict = true ∧ (bodyOf i s).status.errcode = .invalidPadding := by
  have hcode : (bodyOf i s).status.errcode = .invalidPadding := by rw [bodyOf_of_err i s h]; rfl
  cases i with
  | nop | keysched | encBlock | decBlock | encrypt => cases h
  | decrypt =>
    rcases finishDecrypt_cases (decryptMsg (inputBytes s.inLen.toNat s) (keySchedule s.key.toList) (ivSeed s) s.cfg.pad)
      (loadRoundKeys s) with ⟨hinv, hstrict, -⟩ | ⟨-, e⟩
    · exact ⟨rfl, padded_of_decryptMsg_invalid _ _ _ _ hinv, hstrict, hcode⟩
    · cases (congrArg (·.status.err) e).symm.trans h

/-- Settles O17: the first failing check is the branch that the chain takes; when it takes none, the error is the body's. -/
theorem firstFailingCheckIsReported : Obligations.FirstFailingCheckIsReported := by
  refine ⟨completionStep_of_error, ?_, fun s t h => ?_⟩
  · intro i s tooLong badKey badIv badBlock truncated hi
    have hv := validate_of_ne_nop i s hi
    refine ⟨fun h => exec_of_error i s _ (by rw [hv, if_pos h]),
      fun h1 h => exec_of_error i s _ (by rw [hv, if_neg h1, if_pos h]),
      fun h1 h2 h => exec_of_error i s _ (by rw [hv, if_neg h1, if_neg h2, if_pos h]),
      fun h1 h2 h3 h => exec_of_error i s _ (by rw [hv, if_neg h1, if_neg h2, if_neg h3, if_pos h]),
      fun h1 h2 h3 h4 h => exec_of_error i s _ (by rw [hv, if_neg h1, if_neg h2, if_neg h3, if_neg h4, if_pos h]),
      fun h1 h2 h3 h4 h5 t ht herr => ?_⟩
    rw [if_neg h1, if_neg h2, if_neg h3, if_neg h4, if_neg h5] at hv
    rcases exec_cases i s t ht with ⟨c, hc, -⟩ | ⟨-, -, rfl⟩
    · cases hv.symm.trans hc
    · exact strict_padded_decrypt_of_bodyOf_err i s herr
  · cases (exec_nop s).symm.trans h
    rfl

end Sys2Proof.Machine

namespace Sys2Proof.Machine

/-! ### The STATUS and CFG words (10_state.md R33, R36) -/

/-- A flag's word holds the flag in its bit and 0 elsewhere. -/
theorem getLsbD_flagBit (b : Bool) (n i : Nat) (hn : n < 32) : (flagBit b n).getLsbD i = (decide (i = n) && b) := by
  simp only [flagBit, BitVec.getLsbD_shiftLeft, BitVec.getLsbD_setWidth, BitVec.getLsbD_ofBool]
  rcases Nat.lt_trichotomy i n with h | rfl | h
  · simp [h, h.ne]
  · simp [hn]
  · simp [h.ne', Nat.sub_ne_zero_of_lt h]

/-- The bits of the error code's number, in its place in the STATUS word. -/
theorem getLsbD_errcodeField (c : BitVec 4) (i : Nat) :
    ((c.setWidth 32 : Word) <<< 8).getLsbD i = (!decide (i < 8) && c.getLsbD (i - 8)) := by
  simp only [BitVec.getLsbD_shiftLeft, BitVec.getLsbD_setWidth]
  by_cases h : i < 12
  · simp [show i < 32 by omega, show i - 8 < 32 by omega]
  · simp [BitVec.getLsbD_of_ge c (i - 8) (by omega)]

/-- The bits of the STATUS word. -/
theorem Status.getLsbD_word (st : Status) (busy : Bool) (i : Nat) :
    (st.word busy).getLsbD i =
      (decide (i = 0) && busy || decide (i = 1) && st.done || decide (i = 2) && st.err || decide (i = 3) && st.trunc ||
        decide (i = 4) && st.padinv || decide (i = 5) && st.padok || decide (i = 6) && st.werr ||
        !decide (i < 8) && st.errcode.number.getLsbD (i - 8)) := by
  simp (disch := decide) only [Status.word, BitVec.getLsbD_or, getLsbD_flagBit, getLsbD_errcodeField]

/-- The bits of the CFG word. -/
theorem Cfg.getLsbD_word (c : Cfg) (i : Nat) :
    c.word.getLsbD i = (decide (i = 0) && c.pad || decide (i = 1) && c.strict || decide (i = 2) && c.ie) := by
  simp (disch := decide) only [Cfg.word, BitVec.getLsbD_or, getLsbD_flagBit]

/-- A bit of the STATUS word above the flags is one of ERRCODE or 0. -/
theorem Status.getLsbD_word_add_eight (st : Status) (busy : Bool) (i : Nat) :
    (st.word busy).getLsbD (8 + i) = st.errcode.number.getLsbD i := by
  have hflag (n : Nat) (hn : n < 8) : (decide (8 + i = n)) = false := decide_eq_false (by omega)
  simp [Status.getLsbD_word, hflag]

/-- ERRCODE is bits 11:8 of the STATUS word (10_state.md R33). -/
theorem Status.extract_word_errcode (st : Status) (busy : Bool) : (st.word busy).extractLsb' 8 4 = st.errcode.number := by
  apply BitVec.eq_of_getLsbD_eq
  intro i hi
  simp only [BitVec.getLsbD_extractLsb', Status.getLsbD_word_add_eight, hi, decide_true, Bool.true_and]

/-- Bits 31:12 of the STATUS word are 0 (10_state.md R33, 20_memory.md R80). -/
theorem Status.extract_word_reserved (st : Status) (busy : Bool) : (st.word busy).extractLsb' 12 20 = 0 := by
  apply BitVec.eq_of_getLsbD_eq
  intro i hi
  rw [BitVec.getLsbD_extractLsb', show 12 + i = 8 + (4 + i) by omega, Status.getLsbD_word_add_eight,
    BitVec.getLsbD_of_ge _ _ (by omega), Bool.and_false, BitVec.ofNat_eq_ofNat, BitVec.getLsbD_zero]

/-- Bits 31:3 of the CFG word are 0 (10_state.md R36, 20_memory.md R80). -/
theorem Cfg.extract_word_reserved (c : Cfg) : c.word.extractLsb' 3 29 = 0 := by
  apply BitVec.eq_of_getLsbD_eq
  intro i hi
  have hflag (n : Nat) (hn : n < 3) : (decide (3 + i = n)) = false := decide_eq_false (by omega)
  simp [Cfg.getLsbD_word, hflag]

/-- Settles O29: the number of each code, then each field by the bits of its word. -/
theorem statusAndCfgWordLayout : Obligations.StatusAndCfgWordLayout := by
  refine ⟨⟨rfl, rfl, rfl, rfl, rfl, rfl, rfl, rfl⟩, fun st busy => ?_, fun c => ?_⟩
  · simp only [Status.getLsbD_word, Status.extract_word_errcode, Status.extract_word_reserved]
    simp
  · simp only [Cfg.getLsbD_word, Cfg.extract_word_reserved]
    simp

end Sys2Proof.Machine

namespace Sys2Proof.Machine

/-! ## Reset (70_reset_and_hazards.md R340–R342) -/

/-- Settles O5: the registers that are read give the words of the reset fields, every other row is a field. -/
theorem resetValues : Obligations.ResetValues := by
  have hread (r : Reg) : memRead (offsetOf r) .w32 State.reset = .ok (readReg r State.reset) :=
    memRead_register_idle r State.reset rfl
  refine ⟨hread .id, rfl, rfl, rfl, rfl, rfl, rfl, rfl, rfl, rfl, hread .status, rfl, hread .cfg, rfl, rfl, rfl, rfl,
    fun j => ⟨?_, ?_⟩, fun n => ?_, fun _ => ⟨rfl, rfl⟩, rfl, rfl⟩
  · exact Vector.getElem_replicate j.isLt
  · exact Vector.getElem_replicate j.isLt
  · exact Vector.getElem_replicate n.isLt

/-- With the reset input at the head of the schedule, a step is the reset, the command in flight or not (log 1). -/
theorem step_of_reset_scheduled (s : State) (rest : List Agent) (hq : s.sched = .reset :: rest) :
    step s = .next (applyReset { s with sched := rest }) := by
  simp only [step, nextTurn, hq, turn]

/-- Settles O6: the reset keeps all that is no state of the core, the turn being taken off the schedule. -/
theorem resetTurnSetsEverything : Obligations.ResetTurnSetsEverything := step_of_reset_scheduled

/-- An empty buffer fits any size. -/
theorem fits_nil (size : Nat) : Memory.Fits [] size :=
  ⟨List.Pairwise.nil, fun _ hc => absurd hc List.not_mem_nil⟩

/-- The state after reset meets the invariant: it is Idle, no flag is set, and both buffers are empty. -/
theorem reset_consistent : State.reset.Consistent where
  flags := Status.accepted_consistent Status.reset
  busy := fun _ hw => Seq.noConfusion hw
  inBuf := fits_nil _
  outBuf := fits_nil _
  outLen := Nat.zero_le _
  result := fun _ hi => absurd hi (Nat.not_lt_zero _)
  failed := fun _ => rfl
  params := paramsWf_config

/-- Settles O7: the invariant at reset, and the parameters of this hardware. -/
theorem resetIsConsistent : Obligations.ResetIsConsistent :=
  ⟨reset_consistent, rfl, rfl, rfl⟩

/-- Without a key, and with an IN_LEN that fits, the key check is the first that fails (60_exceptions.md R302). -/
theorem validate_of_no_key (i : Instr) (s : State) (hi : i ≠ .nop) (hk : s.keylen ≠ 16)
    (hn : s.inLen.toNat ≤ s.params.maxMsg) : validate i s = some .invalidKeyLength := by
  rw [validate_of_ne_nop i s hi, if_neg fun h => absurd hn (Nat.not_le.mpr h.2), if_pos hk]

/-- Settles O19: NOP makes no check, and every other command stops at the key check. -/
theorem onlyNopSucceedsBeforeKeylen : Obligations.OnlyNopSucceedsBeforeKeylen := by
  refine ⟨by decide, Nat.zero_le _, fun i s hk hn => ?_⟩
  by_cases hi : i = .nop
  · subst hi
    exact ⟨_, exec_nop s, fun h => absurd rfl h, fun _ => ⟨rfl, rfl⟩⟩
  · exact ⟨_, exec_of_error i s _ (validate_of_no_key i s hi hk hn), fun _ => rfl, fun h => absurd h hi⟩

end Sys2Proof.Machine

namespace Sys2Proof.Machine

/-! ## The reference vectors and the tables (95_test_vectors.md L1.2, L2.2) -/

/-- A vector that holds for encryption holds both ways (44_block_cipher.md R203). -/
theorem vector_both_ways (p c : List Byte) (rk : Vector Word 32) (hp : p.length = 16) (h : encryptBlock p rk = c) :
    encryptBlock p rk = c ∧ decryptBlock c rk = p :=
  ⟨h, h ▸ decryptBlock_encryptBlock p rk hp⟩

/-- A byte that stands in a table of 16 rows of 16 is an entry of it (41_constant_tables.md R150). -/
theorem exists_tableEntry_eq (rows : List (List Byte)) (hrows : rows.length = 16) (hrow : ∀ r ∈ rows, r.length = 16)
    (y : Byte) (hy : y ∈ rows.flatten) : ∃ x, tableEntry rows x = y := by
  obtain ⟨r, hr, hyr⟩ := List.mem_flatten.mp hy
  have hlen := hrow r hr
  obtain ⟨i, hi, rfl⟩ := List.mem_iff_getElem.mp hr
  obtain ⟨j, hj, rfl⟩ := List.mem_iff_getElem.mp hyr
  refine ⟨BitVec.ofNat 8 (16 * i + j), ?_⟩
  have hx : (BitVec.ofNat 8 (16 * i + j)).toNat = 16 * i + j := by
    rw [BitVec.toNat_ofNat]
    omega
  have hquot : (16 * i + j) / 16 = i := by omega
  have hrem : (16 * i + j) % 16 = j := by omega
  rw [tableEntry, hx, hquot, hrem, List.getD_eq_getElem _ _ hi, List.getD_eq_getElem _ _ hj]

/-- The set of the bytes of a list, as a number: bit `b` is 1 when the byte `b` is in it. -/
def byteMask : List Byte → Nat
  | [] => 0
  | b :: l => 2 ^ b.toNat ||| byteMask l

/-- A byte whose bit is set stands in the list. -/
theorem mem_of_testBit_byteMask (l : List Byte) (y : Byte) (h : (byteMask l).testBit y.toNat = true) : y ∈ l := by
  induction l with
  | nil => simp [byteMask] at h
  | cons b l ih =>
    simp only [byteMask, Nat.testBit_or, Nat.testBit_two_pow, Bool.or_eq_true, decide_eq_true_eq] at h
    rcases h with h | h
    · exact List.mem_cons.mpr (.inl (BitVec.eq_of_toNat_eq h.symm))
    · exact List.mem_cons_of_mem b (ih h)

/-- A list whose 256 bits are all set holds every byte. -/
theorem mem_of_byteMask_full (l : List Byte) (h : byteMask l = 2 ^ 256 - 1) (y : Byte) : y ∈ l := by
  apply mem_of_testBit_byteMask
  rw [h, Nat.testBit_two_pow_sub_one]
  exact decide_eq_true y.isLt

/-- Every byte stands in the table of S1 (41_constant_tables.md R150). -/
theorem mem_s1Rows (y : Byte) : y ∈ s1Rows.flatten :=
  mem_of_byteMask_full _ (by decide +kernel) y

/-- Every byte stands in the table of S2 (41_constant_tables.md R151). -/
theorem mem_s2Rows (y : Byte) : y ∈ s2Rows.flatten :=
  mem_of_byteMask_full _ (by decide +kernel) y

/-- S1 takes every byte as a value. -/
theorem s1_surjective (y : Byte) : ∃ x, s1 x = y :=
  exists_tableEntry_eq s1Rows rfl (by decide) y (mem_s1Rows y)

/-- S2 takes every byte as a value. -/
theorem s2_surjective (y : Byte) : ∃ x, s2 x = y :=
  exists_tableEntry_eq s2Rows rfl (by decide) y (mem_s2Rows y)

/-- Settles O54: each vector by running the encryption, the permutations by the rows of the tables, and the four sums. -/
theorem referenceVectorsAndTables : Obligations.ReferenceVectorsAndTables := by
  refine ⟨vector_both_ways _ _ _ rfl ?_, vector_both_ways _ _ _ rfl ?_, vector_both_ways _ _ _ rfl ?_,
    vector_both_ways _ _ _ rfl ?_, fun y => ⟨s1_surjective y, s2_surjective y⟩, ?_⟩
  · decide +kernel
  · decide +kernel
  · decide +kernel
  · decide +kernel
  · decide +kernel

end Sys2Proof.Machine
